-- ==== Sys2Proof/Word.lean ====
section
/-! DEFINITION. The word types of the block: 32-bit bus words, bytes, binary32 bit patterns and 20-bit host
addresses (spec/00_scope.md R8-R10). -/

namespace Sys2Proof

/-- A 32-bit bus word, and the content of every register and sample RAM word (R8, R9). -/
abbrev Word := BitVec 32

/-- The host bus space is byte-addressed (R90); a word is four bytes, little-endian (R95). -/
abbrev Byte := BitVec 8

/-- A sample or parameter: an IEEE 754 binary32 bit pattern, any of the 2^32 (R10, R92). -/
abbrev F32 := BitVec 32

/-- A host byte address, 20 bits wide (R8, R90). -/
abbrev Addr := BitVec 20

end Sys2Proof
end

