-- ==== Sys2Proof/Config.lean ====
section
/-! DEFINITION. What an implementation fixes: the build parameters of spec/00_scope.md R7, held as plain data so that
a State carries them and every statement over states is over every build; and the free values, opaque constants that
nothing can evaluate, one for each point the spec leaves open as a draw or a function parameter. -/

namespace Sys2Proof

/-- Which cookbook band-pass form FILTER.BP uses (R7, R185). -/
inductive BpVariant where
  | peak0dB
  | skirt
  deriving DecidableEq, Repr

/-- The build parameters of R7 that the host can read in a capability register (R37-R43). RESAMPLE is
`Config.resampleSample`; T_RUN is timing and is left out (log 14). -/
structure Build where
  /-- N_SLOTS, CAP0[7:0]. -/
  nSlots : Nat
  /-- MAX_BUFFER_SIZE, CAP_BUF. -/
  maxBuffer : Nat
  /-- MAX_DELAY_SAMPLES, CAP_DELAY. -/
  maxDelay : Nat
  /-- PS_FRAME_SIZE (F), CAP_PSF[15:0]. -/
  psFrame : Nat
  /-- PS_QUEUE_CAP, CAP_PSQ. -/
  psQueue : Nat
  /-- GAIN_MIN_DB, CAP_GMIN: a binary32 pattern. -/
  gainMin : F32
  /-- GAIN_MAX_DB, CAP_GMAX: a binary32 pattern. -/
  gainMax : F32
  /-- BP_VARIANT, CAP0[12]. -/
  bpVariant : BpVariant
  deriving DecidableEq, Repr

/-- DESIGN CHOICE (log 2): the build that State.reset uses, since a reset state is one value and R7 fixes no
value. The sizes are those spec/95_test_vectors.md assumes (V-S1, V-D2, V-P1, V-P4); GAIN_MIN_DB and GAIN_MAX_DB are
-60.0 and +60.0; BP_VARIANT is the spec's default. -/
def Build.standard : Build where
  nSlots := 8
  maxBuffer := 1024
  maxDelay := 65536
  psFrame := 4
  psQueue := 8
  gainMin := 0xC2700000#32
  gainMax := 0x42700000#32
  bpVariant := .peak0dB

namespace Config

/-- FREE VALUE (R320, I30; log 3): the byte an address of a sample RAM holds at power-on, the same on every read
until it is written. -/
opaque powerOnByte : Nat → Byte

/-- FREE VALUE (R321, I31; log 5): the words a SOFT_RESET leaves in OUT where it aborts a run, one draw per word,
applied to a counter in State. -/
opaque abortedWord : Nat → Word

/-- FREE VALUE (R152, R333, I33, I34; log 1): whether the engine moves before the host's next access while both can
move, applied to a counter in State. -/
opaque engineFirst : Nat → Bool

/-- FREE VALUE (R254, I37; log 6): sample i of RESAMPLE(x, L) where L differs from the length of x. It is a function
of x, L and i alone; `resample` adds the identity at equal length and the length. -/
opaque resampleSample : List F32 → Nat → Nat → F32

/-- FREE VALUE (log 7): which of the two ends a correctly rounded result takes when the model's enclosure of the exact
real, given by its two endpoints, is not narrow enough to tell. -/
opaque roundingChoice : Rat → Rat → Bool

end Config

end Sys2Proof
end

