-- ==== Sys2Proof/Machine/State.lean ====
section
/-! DEFINITION. The state of the block as plain data (spec/10_state.md R30-R70, spec/20_memory.md R92-R93), the reasons
a step can stop, and the state after power-on reset (spec/70_reset_and_hazards.md R320). -/

namespace Sys2Proof.Machine

/-- One value per channel: MAX_CHANNELS is 2 (R8). -/
structure Chan (α : Type) where
  c0 : α
  c1 : α
  deriving DecidableEq, Repr

/-- The history of one biquad stage: its last two inputs and its last two unclipped outputs (R64). -/
structure Biquad where
  x1 : F32
  x2 : F32
  y1 : F32
  y2 : F32
  deriving DecidableEq, Repr

/-- The filter history of one channel, per cascaded stage (R64). -/
structure FilterLane where
  stage0 : Biquad
  stage1 : Biquad
  deriving DecidableEq, Repr

/-- The pitch-shifter state of one channel: the accumulator and the output queue, oldest first (R66). -/
structure PitchLane where
  acc : List F32
  queue : List F32
  deriving DecidableEq, Repr

/-- The module state every slot owns, for all three kinds (R64-R66, R68). -/
structure SlotState where
  filter : Chan FilterLane
  /-- dh[s][c], oldest first (R65). -/
  delay : Chan (List F32)
  pitch : Chan PitchLane
  deriving DecidableEq, Repr

/-- The shadowed registers of a slot (R54-R56). -/
structure SlotRegs where
  desc : Word
  p0 : F32
  p1 : F32
  p2 : F32
  deriving DecidableEq, Repr

/-- The effective and derived registers of a slot (R57, R58). -/
structure Derived where
  e0 : Word
  e1 : Word
  e2 : Word
  k0 : Word
  k1 : Word
  k2 : Word
  k3 : Word
  k4 : Word
  deriving DecidableEq, Repr

/-- One slot: its shadow and committed registers, E and K, the pending-clear flag pend[s] (R62) and its own
state. -/
structure Slot where
  shadow : SlotRegs
  reg : SlotRegs
  derived : Derived
  pend : Bool
  state : SlotState
  deriving DecidableEq, Repr

/-- The shadowed global registers (R48-R51, R61). -/
structure GlobalRegs where
  sampleRate : Word
  format : Word
  bufferSize : Word
  chainLen : Word
  deriving DecidableEq, Repr

/-- The stored STATUS bits (R45); BUSY and CUR_SLOT are computed from phase and slot_pc. -/
structure Status where
  done : Bool
  err : Bool
  refused : Bool
  fmtUnsup : Bool
  psOvf : Bool
  deriving DecidableEq, Repr

/-- INT_EN (R53). -/
structure IntEnable where
  doneIe : Bool
  errIe : Bool
  deriving DecidableEq, Repr

/-- The engine's phase (R33). -/
inductive Phase where
  | idle
  | commit
  | process
  | convert
  deriving DecidableEq, Repr

/-- The error codes of R290, but for "none". -/
inductive ErrCode where
  | busAlign
  | addr
  | ramBusy
  | runBusy
  | descOpc
  | descField
  | paramNonfinite
  | fmtRsvd
  | fmtDepth
  | fmtChannels
  | fmtRate
  | bufSize
  | chainLen
  | cutoff
  | coefRange
  | delayRange
  deriving DecidableEq, Repr

/-- The refusal a commit has found: the code and the slot that failed (R153). -/
structure CommitError where
  code : ErrCode
  slot : Nat
  deriving DecidableEq, Repr

/-- What the commit has said of the run that its RUN write started (R153): the run goes on, or it is refused and is
finished by the engine's next action (R150; log 10). -/
inductive Verdict where
  | accepted
  | refused
  deriving DecidableEq, Repr

/-- One statement of the host's program (R132, R134). -/
inductive HostOp where
  /-- A read access, with its byte address and size (R96). -/
  | rd (addr : Addr) (size : Nat)
  /-- A write access, with its byte address, size and data (R96). -/
  | wr (addr : Addr) (size : Nat) (data : Word)
  /-- Repeat a read of STATUS until BUSY reads 0 (R134, R333). -/
  | wait
  deriving DecidableEq, Repr

/-- The whole state. Everything but `verdict`, `hostQueue`, `replies` and `draws` is the spec's; those four are the
model's own (log 10, log 1, log 15). -/
structure State where
  /-- The build parameters, as the capability registers show them (R7, R37-R43); no step changes them (log 2). -/
  build : Build
  status : Status
  errInfo : Word
  errAddr : Word
  /-- shadow.NAME of the global RW-S registers (R61). -/
  shadow : GlobalRegs
  /-- The committed reg.NAME of the global RW-S registers (R61). -/
  reg : GlobalRegs
  runCount : Word
  intEn : IntEnable
  pendAll : Bool
  slots : List Slot
  phase : Phase
  slotPc : BitVec 8
  /-- The commit's result for the run in progress; `accepted` while there is none (R153; log 10). -/
  verdict : Verdict
  /-- WB: per channel, the samples of the frames loaded (R63). -/
  wb : Chan (List F32)
  /-- The written bytes of the IN and OUT RAMs, addresses strictly rising (R92, R93). -/
  mem : List Host.Cell
  /-- The statements the host has still to issue, oldest first (R102, R132; log 1). -/
  hostQueue : List HostOp
  /-- The words the host's reads have returned, newest first (log 15). -/
  replies : List Word
  /-- How many free values have been drawn (log 1, log 5). -/
  draws : Nat
  deriving DecidableEq, Repr

/-- Why the model stops. No state that a run reaches stops: every committed descriptor and format is legal (R130). -/
inductive Fault where
  /-- Raised by the engine's step in PROCESS where the committed DESC of the current slot does not decode. Safe: the
  write checks keep such a word out of every register, and nothing is concluded from such a state (log 13). -/
  | illegalDescriptor (word : Word)
  /-- Raised by the engine's step in CONVERT where the committed FORMAT selects no converter. Safe, as above. -/
  | illegalFormat (word : Word)
  deriving DecidableEq, Repr

/-- Why an instruction is refused. -/
inductive Refusal where
  /-- Raised by exec for an instruction that has no meaning yet. Safe: nothing is concluded of it. -/
  | notModelled (mnemonic : String)
  deriving DecidableEq, Repr

/-- An empty biquad history: +0.0 for all (R64). -/
def Biquad.zero : Biquad := ⟨0#32, 0#32, 0#32, 0#32⟩

/-- Cleared module state: zero filter history, empty delay history, accumulator and queue (R68). -/
def SlotState.clear : SlotState where
  filter := ⟨⟨Biquad.zero, Biquad.zero⟩, ⟨Biquad.zero, Biquad.zero⟩⟩
  delay := ⟨[], []⟩
  pitch := ⟨⟨[], []⟩, ⟨[], []⟩⟩

/-- E0-E2 and K0-K4 all 0x00000000 (R54, R156). -/
def Derived.zero : Derived := ⟨0#32, 0#32, 0#32, 0#32, 0#32, 0#32, 0#32, 0#32⟩

/-- DESC and P0-P2 all 0x00000000 (R54). -/
def SlotRegs.zero : SlotRegs := ⟨0#32, 0#32, 0#32, 0#32⟩

/-- A slot after reset (R320). -/
def Slot.reset : Slot := ⟨SlotRegs.zero, SlotRegs.zero, Derived.zero, false, SlotState.clear⟩

/-- SAMPLE_RATE 44100, FORMAT 16-bit stereo, BUFFER_SIZE 64, CHAIN_LEN 0 (R320). -/
def GlobalRegs.reset : GlobalRegs := ⟨0x0000AC44#32, 0x00000210#32, 0x00000040#32, 0#32⟩

/-- The state at power-on of a block built with `b` (R320). WB holds no frame (DESIGN CHOICE, log 4); no RAM byte has
been written (log 3); the host has nothing pending (log 1). -/
def State.init (b : Build) : State where
  build := b
  status := ⟨false, false, false, false, false⟩
  errInfo := 0#32
  errAddr := 0#32
  shadow := GlobalRegs.reset
  reg := GlobalRegs.reset
  runCount := 0#32
  intEn := ⟨false, false⟩
  pendAll := false
  slots := List.replicate b.nSlots Slot.reset
  phase := .idle
  slotPc := 0#8
  verdict := .accepted
  wb := ⟨[], []⟩
  mem := []
  hostQueue := []
  replies := []
  draws := 0

/-- The machine right after power-on reset, of the standard build (log 2). -/
def State.reset : State := State.init Build.standard

end Sys2Proof.Machine
end

