-- ==== Sys2Proof/Machine/Flags.lean ====
section
/-! DEFINITION. The STATUS word and its flags (spec/10_state.md R45, R70), the interrupt line (spec/60_exceptions.md
R295) and INT_EN (R53). -/

namespace Sys2Proof.Machine

/-- A flag as the bit at place n of a word. -/
def bitAt (b : Bool) (n : Nat) : Word := if b then BitVec.ofNat 32 (2 ^ n) else 0#32

/-- STATUS.BUSY: 1 exactly when phase is not IDLE (R33). -/
def State.busy (s : State) : Bool := decide (s.phase ≠ .idle)

/-- STATUS.CUR_SLOT: slot_pc while BUSY = 1, else 0 (R32, R45). -/
def State.curSlot (s : State) : BitVec 8 := if s.busy then s.slotPc else 0#8

/-- The STATUS word the host reads (R45). -/
def State.statusWord (s : State) : Word :=
  bitAt s.busy 0 ||| bitAt s.status.done 1 ||| bitAt s.status.err 2 ||| bitAt s.status.refused 3
    ||| bitAt s.status.fmtUnsup 4 ||| bitAt s.status.psOvf 5 ||| (s.curSlot.setWidth 32 <<< 8)

/-- A host write to STATUS: each of DONE, ERR and PS_OVF is cleared by a 1 at its place, and clearing ERR also zeroes
ERR_INFO and ERR_ADDR (R45, R125). -/
def State.ackStatus (s : State) (w : Word) : State :=
  { s with
    status := { s.status with
      done := s.status.done && !w.getLsbD 1
      err := s.status.err && !w.getLsbD 2
      psOvf := s.status.psOvf && !w.getLsbD 5 }
    errInfo := if w.getLsbD 2 then 0#32 else s.errInfo
    errAddr := if w.getLsbD 2 then 0#32 else s.errAddr }

/-- The INT_EN word the host reads (R53). -/
def IntEnable.word (i : IntEnable) : Word := bitAt i.doneIe 0 ||| bitAt i.errIe 1

/-- A host write to INT_EN; reserved bits are ignored (R53, R34). -/
def State.setIntEn (s : State) (w : Word) : State := { s with intEn := ⟨w.getLsbD 0, w.getLsbD 1⟩ }

/-- The interrupt line (R295). -/
def State.irq (s : State) : Bool := (s.status.done && s.intEn.doneIe) || (s.status.err && s.intEn.errIe)

end Sys2Proof.Machine
end

