-- ==== Sys2Proof/Syntax.lean ====
section
/-! DEFINITION. The instructions: one constructor per row of spec/opcode_table.json (spec/30_encoding.md R127-R129):
18 slot descriptors, 3 output converters selected by FORMAT.BIT_DEPTH, 4 host commands. -/

namespace Sys2Proof

inductive Instr where
  /-- DESC 0x00000000: bypass (R156). -/
  | nop
  /-- DESC 0x00000001: linear gain (R232). -/
  | gain
  /-- DESC 0x00000002: gain, then hard clip (R233). -/
  | dist
  /-- DESC 0x00000003: gain, then asymmetric hard clip (R234). -/
  | odrive
  /-- DESC 0x00000004: gain, then tanh (R235). -/
  | sat
  /-- DESC 0x00000005: low-pass, 12 dB/octave (R190). -/
  | filterLpS12
  /-- DESC 0x00000085: low-pass, 24 dB/octave (R190). -/
  | filterLpS24
  /-- DESC 0x00000015: high-pass, 12 dB/octave (R191). -/
  | filterHpS12
  /-- DESC 0x00000095: high-pass, 24 dB/octave (R191). -/
  | filterHpS24
  /-- DESC 0x00000025: band-pass, 12 dB/octave (R192). -/
  | filterBpS12
  /-- DESC 0x000000A5: band-pass, 24 dB/octave (R192). -/
  | filterBpS24
  /-- DESC 0x00000035: low-shelf, 12 dB/octave (R193). -/
  | filterLsS12
  /-- DESC 0x000000B5: low-shelf, 24 dB/octave (R193). -/
  | filterLsS24
  /-- DESC 0x00000045: high-shelf, 12 dB/octave (R194). -/
  | filterHsS12
  /-- DESC 0x000000C5: high-shelf, 24 dB/octave (R194). -/
  | filterHsS24
  /-- DESC 0x00000006: feedback delay line (R212). -/
  | delay
  /-- DESC 0x00000007: pitch shift, warp off (R252). -/
  | pitch
  /-- DESC 0x00000107: pitch shift, warp on (R252). -/
  | pitchWarp
  /-- FORMAT.BIT_DEPTH 16: binary32 to signed 16-bit (R271). -/
  | conv16
  /-- FORMAT.BIT_DEPTH 32: binary32 to signed 32-bit (R272). -/
  | conv32
  /-- FORMAT.BIT_DEPTH 64: silent buffer (R273). -/
  | convsil
  /-- CTRL bit 0: start a run (R150). -/
  | run
  /-- CTRL bit 1: clear all module state at the next commit (R160). -/
  | stateclear
  /-- CTRL bit 2: SOFT_RESET (R321). -/
  | reset
  /-- SCTL bit 0 of slot `slot`, the index that its address gives: clear that slot's state at the next commit that has
  it active (R162). -/
  | slotclr (slot : Nat)
  deriving DecidableEq, Repr

end Sys2Proof
end

