-- ==== Sys2Proof/WellFormed.lean ====
section
/-! DEFINITION. When a term of Instr is an instruction of the block: a slot command names one of the 64 slot positions
of spec/20_memory.md R91. Whether that position is below N_SLOTS depends on the build and is checked by the access
(R97). -/

namespace Sys2Proof

/-- The slot positions of the address map: 4 KiB of 0x40-byte blocks (R91). -/
def slotPositions : Nat := 64

/-- Only `slotclr` has an operand. -/
def Instr.wellFormed : Instr → Bool
  | .slotclr slot => decide (slot < slotPositions)
  | .nop | .gain | .dist | .odrive | .sat => true
  | .filterLpS12 | .filterLpS24 | .filterHpS12 | .filterHpS24 | .filterBpS12 | .filterBpS24 => true
  | .filterLsS12 | .filterLsS24 | .filterHsS12 | .filterHsS24 => true
  | .delay | .pitch | .pitchWarp => true
  | .conv16 | .conv32 | .convsil => true
  | .run | .stateclear | .reset => true

end Sys2Proof
end

