-- ==== Sys2Proof/Decode.lean ====
section
/-! DEFINITION. Decoding, total on every word, and the encoder after it (spec/30_encoding.md R120-R131). The block has
no fetch from a list of opcodes: what a word means depends on where it is written (R120), so a decoder takes the place
with the word. -/

namespace Sys2Proof

/-- Where a word that stands for instructions is written (R120, R127-R129). -/
inductive Place where
  /-- A slot's DESC register: the block's instruction (R121). -/
  | desc
  /-- The FORMAT register, whose BIT_DEPTH selects the converter (R128). -/
  | format
  /-- The CTRL register (R129). -/
  | ctrl
  /-- The SCTL register of one slot (R129). -/
  | sctl (slot : Nat)
  deriving DecidableEq, Repr

/-- Why a word is refused, by the name R290 gives it. -/
inductive Reject where
  /-- E_DESC_OPC: OPC is 8 to 15. -/
  | descOpc
  /-- E_DESC_FIELD: a bit outside the opcode's legal mask, or FTYPE 5 to 7. -/
  | descField
  /-- E_PARAM_NONFINITE: an exponent field of all ones. -/
  | paramNonfinite
  /-- E_FMT_RSVD: a nonzero FORMAT[31:12]. -/
  | fmtRsvd
  /-- E_FMT_DEPTH: a BIT_DEPTH other than 16, 32 and 64. -/
  | fmtDepth
  /-- E_FMT_CHANNELS: a CHANNELS other than 1 and 2. -/
  | fmtChannels
  deriving DecidableEq, Repr

/-- The field v[hi:lo] as an unsigned number, with n = hi - lo + 1 (R9). -/
def field (v : Word) (lo n : Nat) : Nat := v.toNat / 2 ^ lo % 2 ^ n

/-- DESC[3:0] (R121). -/
def descOpc (w : Word) : Nat := field w 0 4

/-- DESC[6:4] (R121). -/
def descFtype (w : Word) : Nat := field w 4 3

/-- DESC[7] (R121). -/
def descSlope (w : Word) : Bool := w.getLsbD 7

/-- DESC[8] (R121). -/
def descWarp (w : Word) : Bool := w.getLsbD 8

/-- The bits an opcode uses (R122). -/
def descLegalMask (opc : Nat) : Word :=
  if opc = 5 then 0x000000FF#32 else if opc = 7 then 0x0000010F#32 else 0x0000000F#32

/-- The filter of an FTYPE below 5 and a SLOPE (R121, R127). -/
def filterOf (ftype : Nat) (slope : Bool) : Instr :=
  match ftype with
  | 0 => if slope then .filterLpS24 else .filterLpS12
  | 1 => if slope then .filterHpS24 else .filterHpS12
  | 2 => if slope then .filterBpS24 else .filterBpS12
  | 3 => if slope then .filterLsS24 else .filterLsS12
  | _ => if slope then .filterHsS24 else .filterHsS12

/-- Decoding a DESC word, with the checks of R122 in their order (R127, R131). -/
def decodeDesc (w : Word) : Except Reject Instr :=
  let opc : Nat := descOpc w
  if 8 ≤ opc then .error .descOpc
  else if (w &&& ~~~(descLegalMask opc)) ≠ 0#32 ∨ (opc = 5 ∧ 5 ≤ descFtype w) then .error .descField
  else
    match opc with
    | 0 => .ok .nop
    | 1 => .ok .gain
    | 2 => .ok .dist
    | 3 => .ok .odrive
    | 4 => .ok .sat
    | 5 => .ok (filterOf (descFtype w) (descSlope w))
    | 6 => .ok .delay
    | _ => .ok (if descWarp w then .pitchWarp else .pitch)

/-- FORMAT[7:0] (R49). -/
def fmtDepth (w : Word) : Nat := field w 0 8

/-- FORMAT[11:8] (R49). -/
def fmtChannels (w : Word) : Nat := field w 8 4

/-- The converter that a FORMAT word's BIT_DEPTH selects; the table's row fixes bits 7:0 alone (R128, R270). -/
def decodeFormat (w : Word) : Except Reject Instr :=
  if fmtDepth w = 16 then .ok .conv16
  else if fmtDepth w = 32 then .ok .conv32
  else if fmtDepth w = 64 then .ok .convsil
  else .error .fmtDepth

/-- The commands of a CTRL word, in the order they act: SOFT_RESET discards the others, STATE_CLEAR is before RUN
(R129, R161). Other bits are ignored (R125). -/
def decodeCtrl (w : Word) : List Instr :=
  if w.getLsbD 2 then [.reset]
  else (if w.getLsbD 1 then [.stateclear] else []) ++ (if w.getLsbD 0 then [.run] else [])

/-- The command of an SCTL word of slot `slot` (R129, R59). -/
def decodeSctl (slot : Nat) (w : Word) : List Instr := if w.getLsbD 0 then [.slotclr slot] else []

/-- The instructions a word stands for at a place, in the order they act, or the name it is refused by. -/
def decode (p : Place) (w : Word) : Except Reject (List Instr) :=
  match p with
  | .desc => (decodeDesc w).map fun i => [i]
  | .format => (decodeFormat w).map fun i => [i]
  | .ctrl => .ok (decodeCtrl w)
  | .sctl slot => .ok (decodeSctl slot w)

/-- The check of a P0, P1 or P2 write (R124): none where it is accepted. -/
def checkParam (w : Word) : Option Reject := if field w 23 8 = 0xFF then some .paramNonfinite else none

/-- The check of a FORMAT write (R126), in its order: none where it is accepted. -/
def checkFormat (w : Word) : Option Reject :=
  if field w 12 20 ≠ 0 then some .fmtRsvd
  else if fmtDepth w ≠ 16 ∧ fmtDepth w ≠ 32 ∧ fmtDepth w ≠ 64 then some .fmtDepth
  else if fmtChannels w ≠ 1 ∧ fmtChannels w ≠ 2 then some .fmtChannels
  else none

/-- The place and the word of an instruction (R127-R129). A converter's word is a FORMAT word of two channels, since
its row leaves FORMAT[31:8] open and only CHANNELS 1 and 2 are legal (R126). -/
def encode : Instr → Place × Word
  | .nop => (.desc, 0x00000000#32)
  | .gain => (.desc, 0x00000001#32)
  | .dist => (.desc, 0x00000002#32)
  | .odrive => (.desc, 0x00000003#32)
  | .sat => (.desc, 0x00000004#32)
  | .filterLpS12 => (.desc, 0x00000005#32)
  | .filterLpS24 => (.desc, 0x00000085#32)
  | .filterHpS12 => (.desc, 0x00000015#32)
  | .filterHpS24 => (.desc, 0x00000095#32)
  | .filterBpS12 => (.desc, 0x00000025#32)
  | .filterBpS24 => (.desc, 0x000000A5#32)
  | .filterLsS12 => (.desc, 0x00000035#32)
  | .filterLsS24 => (.desc, 0x000000B5#32)
  | .filterHsS12 => (.desc, 0x00000045#32)
  | .filterHsS24 => (.desc, 0x000000C5#32)
  | .delay => (.desc, 0x00000006#32)
  | .pitch => (.desc, 0x00000007#32)
  | .pitchWarp => (.desc, 0x00000107#32)
  | .conv16 => (.format, 0x00000210#32)
  | .conv32 => (.format, 0x00000220#32)
  | .convsil => (.format, 0x00000240#32)
  | .run => (.ctrl, 0x00000001#32)
  | .stateclear => (.ctrl, 0x00000002#32)
  | .reset => (.ctrl, 0x00000004#32)
  | .slotclr slot => (.sctl slot, 0x00000001#32)

/-- The places tried, in order, for a word of the table that comes without its place (log 11): a row that fixes all 32
bits is a DESC word, so DESC is tried first on 32 bits and not at all on fewer. -/
def tablePlaces (nbits : Nat) : List Place :=
  if nbits < 32 then [.format, .ctrl] else [.desc, .format, .ctrl]

/-- The first place at which the word stands for an instruction, with the first instruction it stands for there. -/
def firstDecoded : List Place → Word → Option (Place × Instr)
  | [], _ => none
  | p :: ps, w =>
    match decode p w with
    | .ok (i :: _) => some (p, i)
    | .ok [] => firstDecoded ps w
    | .error _ => firstDecoded ps w

/-- The instruction the decoder reads from a table word of nbits bits: the bits above nbits are zero, and a word wider
than 32 bits is none (R120). -/
def decodeTableWord (nbits w : Nat) : Option Instr :=
  if 2 ^ nbits ≤ w ∨ 32 < nbits then none
  else (firstDecoded (tablePlaces nbits) (BitVec.ofNat 32 w)).map (·.2)

end Sys2Proof
end

