-- ==== Sys2Proof/Machine/Float.lean ====
section
/-! DEFINITION. binary32 arithmetic (spec/00_scope.md R10-R14): the exact value of a pattern, rounding an exact
fraction to nearest even, and the add32, sub32, mul32, neg32, comparison, clip and max of the rules. -/

namespace Sys2Proof.Binary32

/-- The quiet NaN that R12 and I36 let every NaN result be (log 9). -/
def qNaN : F32 := 0x7FC00000#32

def posZero : F32 := 0x00000000#32
def negZero : F32 := 0x80000000#32
def one : F32 := 0x3F800000#32
def negOne : F32 := 0xBF800000#32

/-- The bit pattern below the sign bit, as a number (R95: exponent in bits 30:23, fraction in bits 22:0). -/
def mag (v : F32) : Nat := v.toNat % 2 ^ 31

/-- The sign bit. -/
def sign (v : F32) : Bool := v.msb

/-- NaN: exponent all ones and a nonzero fraction (R10). -/
def isNaN (v : F32) : Bool := decide (0x7F800000 < mag v)

/-- ±∞: exponent all ones and a zero fraction (R10). -/
def isInf (v : F32) : Bool := mag v == 0x7F800000

/-- Every pattern other than NaN and ±∞ (R10). -/
def isFinite (v : F32) : Bool := decide (mag v < 0x7F800000)

/-- The significand times its power of two, in units of 2^-149 (the smallest subnormal). -/
def magUnits (m : Nat) : Nat :=
  let e : Nat := m / 2 ^ 23
  let f : Nat := m % 2 ^ 23
  if e = 0 then f else (2 ^ 23 + f) * 2 ^ (e - 1)

/-- The exact value of a finite pattern in units of 2^-149 (R10): real(v) = units v / 2^149. -/
def units (v : F32) : Int :=
  if sign v then -(magUnits (mag v) : Int) else (magUnits (mag v) : Int)

/-- real(v) of R10, for a finite pattern. -/
def real (v : F32) : Rat := mkRat (units v) (2 ^ 149)

/-- The quotient n/d rounded to the nearest integer, halves to the even one (round_he of R14, on a fraction). -/
def roundHalfEven (n d : Nat) : Nat :=
  let q : Nat := n / d
  let r : Nat := n % d
  if 2 * r < d then q
  else if d < 2 * r then q + 1
  else if q % 2 = 0 then q else q + 1

/-- The exponent of n/d: the greatest e with 2^e ≤ n/d, for n and d positive. -/
def exponent (n d : Nat) : Int :=
  let e : Int := (Nat.log2 n : Int) - (Nat.log2 d : Int)
  let below : Bool := if 0 ≤ e then decide (n < d * 2 ^ e.toNat) else decide (n * 2 ^ (-e).toNat < d)
  if below then e - 1 else e

/-- The magnitude bits of the binary32 nearest n/d (R11): the quantum is 2^(t-149), the significand is rounded half to
even, subnormals are kept, and everything at or beyond the overflow threshold is the pattern of ∞. -/
def roundMag (n d : Nat) : Nat :=
  if n = 0 then 0
  else
    let t : Nat := (exponent n d + 126).toNat
    let m : Nat := if 149 ≤ t then roundHalfEven n (d * 2 ^ (t - 149)) else roundHalfEven (n * 2 ^ (149 - t)) d
    min (t * 2 ^ 23 + m) 0x7F800000

/-- A pattern from its sign and magnitude bits. -/
def pack (negative : Bool) (m : Nat) : F32 := BitVec.ofNat 32 ((if negative then 2 ^ 31 else 0) + m)

/-- rnd32 of the exact real n/d (R11). A nonzero real that rounds to zero keeps its sign (log 19); rnd32(0) = +0. -/
def rnd32 (n : Int) (d : Nat) : F32 := pack (decide (n < 0)) (roundMag n.natAbs d)

/-- rnd32 of an exact rational. -/
def rnd32Rat (r : Rat) : F32 := rnd32 r.num r.den

/-- neg32 flips the sign bit (R12). -/
def neg32 (a : F32) : F32 := a ^^^ 0x80000000#32

/-- add32 (R12): rnd32 of the exact sum of finite operands; an exact zero sum is -0 only for two negative zeros. -/
def add32 (a b : F32) : F32 :=
  if isNaN a || isNaN b then qNaN
  else if isInf a then (if isInf b && (sign a != sign b) then qNaN else a)
  else if isInf b then b
  else if units a + units b = 0 then (if sign a && sign b then negZero else posZero)
  else rnd32 (units a + units b) (2 ^ 149)

/-- sub32 (R12). -/
def sub32 (a b : F32) : F32 := add32 a (neg32 b)

/-- mul32 (R12): rnd32 of the exact product of finite operands; zero and infinite results take the product of the
signs; 0·∞ is NaN. -/
def mul32 (a b : F32) : F32 :=
  let negative : Bool := sign a != sign b
  if isNaN a || isNaN b then qNaN
  else if isInf a || isInf b then
    (if mag a = 0 || mag b = 0 then qNaN else pack negative 0x7F800000)
  else pack negative (roundMag (magUnits (mag a) * magUnits (mag b)) (2 ^ 149 * 2 ^ 149))

/-- The place of a pattern that is not NaN in IEEE order: -0 and +0 share place 0. -/
def key (v : F32) : Int := if sign v then -(mag v : Int) else (mag v : Int)

/-- a < b of R13: false if either is NaN, and -0 equals +0. `gt32 a b` is `lt32 b a`. -/
def lt32 (a b : F32) : Bool := !isNaN a && !isNaN b && decide (key a < key b)

/-- clip of R13: first against hi, then against lo; NaN passes unchanged. -/
def clip (v lo hi : F32) : F32 := if lt32 hi v then hi else if lt32 v lo then lo else v

/-- max of R13, for a clamp: b if b > a, else a. -/
def max32 (a b : F32) : F32 := if lt32 a b then b else a

/-- min of R13, for a clamp: b if b < a, else a. -/
def min32 (a b : F32) : F32 := if lt32 b a then b else a

/-- sat of R14. -/
def sat (n lo hi : Int) : Int := if n < lo then lo else if hi < n then hi else n

end Sys2Proof.Binary32
end

