-- ==== Sys2Proof/Machine/Operands.lean ====
section
/-! DEFINITION. Operand assembly (spec/30_encoding.md R123, spec/20_memory.md R94): the fields of the committed
registers, the channels as independent lanes (spec/40_sequencer.md R159), and folding a lane sample by sample in
ascending frame order (R163). -/

namespace Sys2Proof.Machine

/-- FORMAT.CHANNELS of a set of global registers, C in the rules (R123). -/
def GlobalRegs.channels (r : GlobalRegs) : Nat := fmtChannels r.format

/-- FORMAT.BIT_DEPTH of a set of global registers (R123). -/
def GlobalRegs.depth (r : GlobalRegs) : Nat := fmtDepth r.format

/-- BUFFER_SIZE as a number, B in the rules (R123). -/
def GlobalRegs.frames (r : GlobalRegs) : Nat := r.bufferSize.toNat

/-- n_st of a FILTER descriptor: 1 + DESC[7] (R123). -/
def nStages (desc : Word) : Nat := if descSlope desc then 2 else 1

/-- A channel's value; only channels 0 and 1 exist (R8), and any other index reads channel 1. -/
def Chan.get {α : Type} (x : Chan α) (c : Nat) : α := if c = 0 then x.c0 else x.c1

/-- Apply f to every channel below n and leave the others alone: lanes of R159. -/
def Chan.mapActive {α : Type} (n : Nat) (f : α → α) (x : Chan α) : Chan α :=
  ⟨if 0 < n then f x.c0 else x.c0, if 1 < n then f x.c1 else x.c1⟩

/-- Pair up two values per channel. -/
def Chan.zip {α β : Type} (x : Chan α) (y : Chan β) : Chan (α × β) := ⟨(x.c0, y.c0), (x.c1, y.c1)⟩

/-- The first value of each channel's pair. -/
def Chan.fst {α β : Type} (x : Chan (α × β)) : Chan α := ⟨x.c0.1, x.c1.1⟩

/-- The second value of each channel's pair. -/
def Chan.snd {α β : Type} (x : Chan (α × β)) : Chan β := ⟨x.c0.2, x.c1.2⟩

/-- Run a sample-by-sample step over one lane, frames ascending: the new lane state and the new samples (R163). -/
def foldLane {σ : Type} (step : σ → F32 → σ × F32) : σ → List F32 → σ × List F32
  | st, [] => (st, [])
  | st, v :: vs =>
    let r : σ × F32 := step st v
    let rest : σ × List F32 := foldLane step r.1 vs
    (rest.1, r.2 :: rest.2)

end Sys2Proof.Machine
end

