-- ==== Sys2Proof/Machine/Ops.lean ====
section
/-! DEFINITION. The named operations over memory, slots and registers, and the shared operations of the rules: raising
an error (spec/60_exceptions.md R292, the block's counterpart of taking an exception, R297), finishing a run (R157,
R158), advancing the slot index (R32, R155). There is no return from an exception (R298): the host clears the record
with `State.ackStatus`. -/

namespace Sys2Proof.Machine

/-! ### Memory: the written bytes of the sample RAMs -/

/-- The written bytes, addresses strictly rising. -/
abbrev Memory := List Host.Cell

/-- The canonical form: addresses strictly rising. An unlisted address reads as no written byte at all, so no entry
can equal what an unlisted address reads as. -/
abbrev Memory.wf (m : Memory) : Prop := m.Pairwise fun a b => a.1 < b.1

/-- The byte last written at an address, or none. -/
def Memory.read? : Memory → Nat → Option Byte
  | [], _ => none
  | cell :: rest, a => if a = cell.1 then some cell.2 else Memory.read? rest a

/-- Write one byte, keeping the addresses rising. -/
def Memory.write : Memory → Nat → Byte → Memory
  | [], a, b => [(a, b)]
  | cell :: rest, a, b =>
    if a < cell.1 then (a, b) :: cell :: rest
    else if a = cell.1 then (a, b) :: rest
    else cell :: Memory.write rest a b

/-- The byte a RAM address holds: the one last written, else the free value it powered on with (R320; log 3). -/
def Memory.byteAt (m : Memory) (a : Nat) : Byte := (Memory.read? m a).getD (Config.powerOnByte a)

/-- The little-endian word at a byte address (R95). -/
def Memory.wordAt (m : Memory) (a : Nat) : Word :=
  Memory.byteAt m (a + 3) ++ Memory.byteAt m (a + 2) ++ Memory.byteAt m (a + 1) ++ Memory.byteAt m a

/-- Byte j of a word: bits [8j+7:8j] (R95). -/
def byteOf (w : Word) (j : Nat) : Byte := w.extractLsb' (8 * j) 8

/-- Write a little-endian word at a byte address (R95). -/
def Memory.writeWord (m : Memory) (a : Nat) (w : Word) : Memory :=
  Memory.write (Memory.write (Memory.write (Memory.write m a (byteOf w 0)) (a + 1) (byteOf w 1))
    (a + 2) (byteOf w 2)) (a + 3) (byteOf w 3)

/-- Write consecutive words from a byte address on, in ascending order (R274). -/
def Memory.writeWords : Memory → Nat → List Word → Memory
  | m, _, [] => m
  | m, a, w :: ws => Memory.writeWords (Memory.writeWord m a w) (a + 4) ws

/-- The byte address of IN[i] (R92). -/
def inAddr (i : Nat) : Nat := 0x40000 + 4 * i

/-- The byte address of OUT[i] (R93). -/
def outAddr (i : Nat) : Nat := 0x80000 + 4 * i

/-- IN[i] (R92). -/
def State.inWord (s : State) (i : Nat) : Word := Memory.wordAt s.mem (inAddr i)

/-- OUT[i] (R93). -/
def State.outWord (s : State) (i : Nat) : Word := Memory.wordAt s.mem (outAddr i)

/-! ### Slots and the working buffer -/

/-- Slot i; an index no slot has reads a reset slot. -/
def State.slot (s : State) (i : Nat) : Slot := s.slots.getD i Slot.reset

/-- Change slot i; an index no slot has changes nothing. -/
def State.modifySlot (s : State) (i : Nat) (f : Slot → Slot) : State := { s with slots := s.slots.modify i f }

/-- The slot being applied: slot[slot_pc] (R32). -/
def State.current (s : State) : Slot := s.slot s.slotPc.toNat

/-- dlen[s]: the length of the delay history, read off channel 0 (R65; log 12). -/
def Slot.dlen (x : Slot) : Nat := x.state.delay.c0.length

/-- nacc[s]: the length of the accumulator, read off channel 0 (R66; log 12). -/
def Slot.nacc (x : Slot) : Nat := x.state.pitch.c0.acc.length

/-- nq[s]: the length of the output queue, read off channel 0 (R66; log 12). -/
def Slot.nq (x : Slot) : Nat := x.state.pitch.c0.queue.length

/-- WB[f][c] (R63). -/
def State.sample (s : State) (f c : Nat) : F32 := (s.wb.get c).getD f 0#32

/-- Set pend[i] (R62, R162). -/
def State.setPend (s : State) (i : Nat) : State := s.modifySlot i fun x => { x with pend := true }

/-! ### Errors -/

/-- ERR_INFO.CODE of an error (R290). -/
def ErrCode.byte : ErrCode → BitVec 8
  | .busAlign => 0x01#8
  | .addr => 0x02#8
  | .ramBusy => 0x03#8
  | .runBusy => 0x04#8
  | .descOpc => 0x10#8
  | .descField => 0x11#8
  | .paramNonfinite => 0x12#8
  | .fmtRsvd => 0x13#8
  | .fmtDepth => 0x14#8
  | .fmtChannels => 0x15#8
  | .fmtRate => 0x16#8
  | .bufSize => 0x17#8
  | .chainLen => 0x18#8
  | .cutoff => 0x20#8
  | .coefRange => 0x21#8
  | .delayRange => 0x22#8

/-- The error a refused word raises (R122, R124, R126, R290). -/
def rejectCode : Reject → ErrCode
  | .descOpc => .descOpc
  | .descField => .descField
  | .paramNonfinite => .paramNonfinite
  | .fmtRsvd => .fmtRsvd
  | .fmtDepth => .fmtDepth
  | .fmtChannels => .fmtChannels

/-- The SLOT field of an error that concerns no slot (R46). -/
def noSlot : BitVec 8 := 0xFF#8

/-- The address of CTRL, which every commit error records (R44, R47). -/
def ctrlAddr : Addr := 0x00040#20

/-- The ERR_INFO word of an error (R46). -/
def errorInfo (code : ErrCode) (slot : BitVec 8) : Word := 0#16 ++ slot ++ code.byte

/-- The ERR_ADDR word of an error (R47). -/
def errorAddr (addr : Addr) : Word := 0#12 ++ addr

/-- raise Error(code, slot, addr): the first error since ERR was last 0 is recorded, and ERR is set (R292). Control goes
on; nothing else changes (R293). -/
def State.raiseError (s : State) (code : ErrCode) (slot : BitVec 8) (addr : Addr) : State :=
  { s with
    errInfo := if s.status.err then s.errInfo else errorInfo code slot
    errAddr := if s.status.err then s.errAddr else errorAddr addr
    status := { s.status with err := true } }

/-! ### The run -/

/-- After a slot has finished its whole buffer: the next slot, or the converter after the last one (R32, R150, R155). -/
def State.advanceSlot (s : State) : State :=
  if s.slotPc.toNat + 1 < s.reg.chainLen.toNat then { s with slotPc := s.slotPc + 1#8 }
  else { s with phase := .convert, slotPc := 0xFF#8 }

/-- Finishing a completed run (R157). -/
def State.finishCompleted (s : State) : State :=
  { s with
    runCount := s.runCount + 1#32
    status := { s.status with refused := false, done := true }
    phase := .idle
    slotPc := 0#8 }

/-- Finishing a refused run (R158). -/
def State.finishRefused (s : State) : State :=
  { s with
    status := { s.status with refused := true, done := true }
    phase := .idle
    slotPc := 0#8
    verdict := .accepted }

/-- Refusing the run that a RUN write starts: the commit's error is raised there and then, with the slot that failed and
the address of CTRL (R46, R47, R153, R292), and BUSY reads 1 until the run is finished (R150, R152; log 10). -/
def State.refuseRun (s : State) (e : CommitError) : State :=
  { s.raiseError e.code (BitVec.ofNat 8 e.slot) ctrlAddr with
    phase := .commit
    slotPc := 0xFE#8
    verdict := .refused }

/-- The number of OUT words a completed run with these registers writes (R93). -/
def GlobalRegs.outWords (r : GlobalRegs) : Nat :=
  if r.depth = 64 then 2 * (r.frames * r.channels) else r.frames * r.channels

/-- The number of OUT words the run in progress would write: none where no run is or it is refused (R93, R158, R321). -/
def State.pendingOutWords (s : State) : Nat :=
  if s.phase = .idle ∨ s.verdict = .refused then 0 else s.reg.outWords

/-! ### The host's side -/

/-- A read returns a word to the host (log 15). -/
def State.reply (s : State) (w : Word) : State := { s with replies := w :: s.replies }

end Sys2Proof.Machine
end

