-- ==== Sys2Proof/Machine/Bypass.lean ====
section
/-! DEFINITION. NOP, the bypass (spec/40_sequencer.md R156), and the two shared ways a module rule transforms the
working buffer (R155, R159, R163): sample by sample with no state, and lane by lane with the slot's own state. -/

namespace Sys2Proof.Machine

/-- A module with no state: every sample of every active channel is transformed by itself (R155, R231). -/
def State.mapSamples (s : State) (f : F32 → F32) : State :=
  { s with wb := s.wb.mapActive s.reg.channels fun lane => lane.map f }

/-- A module with state: every active channel's lane is folded by `step` from the lane's state in the current
slot, which `get` reads and `put` writes (R155, R159, R163). -/
def State.foldChannels {σ : Type} (s : State) (get : SlotState → Chan σ) (put : SlotState → Chan σ → SlotState)
    (step : σ → F32 → σ × F32) : State :=
  let r : Chan (σ × List F32) :=
    (Chan.zip (get s.current.state) s.wb).mapActive s.reg.channels fun p => foldLane step p.1 p.2
  { s with
    wb := r.snd
    slots := s.slots.modify s.slotPc.toNat fun x => { x with state := put x.state r.fst } }

/-- The derivation of NOP: E0-E2 and K0-K4 all zero (R156). -/
def deriveNop : Derived := Derived.zero

/-- nop: the working buffer is unchanged (R156). -/
def execNop (s : State) : Host.Outcome State Fault Refusal := .next s.advanceSlot

end Sys2Proof.Machine
end

