-- ==== Sys2Proof/Machine/Delay.lean ====
section
/-! DEFINITION. The delay-line feedback engine (spec/42_delay.md R210-R216). -/

namespace Sys2Proof.Machine

open Binary32

/-- D_raw = round_he(fs · real(E0) / 1000), an exact rational rounded once (R211). -/
def delayRaw (fs : Nat) (e0 : F32) : Nat := roundHalfEven (fs * (units e0).toNat) (1000 * 2 ^ 149)

/-- The derivation of a DELAY slot: E0 clamped to at least 1 ms, feedback to [0, 1] (R210); D with the floor of the
buffer size, refused beyond MAX_DELAY_SAMPLES (R211). -/
def deriveDelay (b : Build) (p : SlotRegs) (fs frames : Nat) : Except ErrCode Derived :=
  let e0 : F32 := max32 p.p0 one
  let e1 : F32 := clip p.p1 posZero one
  let d : Nat := max (delayRaw fs e0) frames
  if b.maxDelay < d then .error .delayRange
  else .ok { Derived.zero with e0 := e0, e1 := e1, k0 := BitVec.ofNat 32 d }

/-- One frame of one channel: the delayed value is the oldest retained one if D are retained, else +0.0; the output
enters the history, and the oldest one leaves if it was full (R212). -/
def delayStep (d : Nat) (fb : F32) (hist : List F32) (x : F32) : List F32 × F32 :=
  let full : Bool := hist.length == d
  let delayed : F32 := if full then hist.headD posZero else posZero
  let y : F32 := add32 x (mul32 delayed fb)
  let grown : List F32 := hist ++ [y]
  (if full then grown.drop 1 else grown, y)

/-- delay_resize at a commit: the oldest frames are dropped until at most D remain (R214). -/
def resizeHistory (d : Nat) (hist : List F32) : List F32 := hist.drop (hist.length - d)

/-- delay_resize(s) on every channel of a slot (R214). -/
def SlotState.resizeDelay (x : SlotState) (d : Nat) : SlotState :=
  { x with delay := ⟨resizeHistory d x.delay.c0, resizeHistory d x.delay.c1⟩ }

/-- delay_apply(s) on the current slot (R212). -/
def State.applyDelay (s : State) : State :=
  s.foldChannels (fun x => x.delay) (fun x lanes => { x with delay := lanes })
    (delayStep s.current.derived.k0.toNat s.current.derived.e1)

/-- delay (R212). -/
def execDelay (s : State) : Host.Outcome State Fault Refusal := .next s.applyDelay.advanceSlot

end Sys2Proof.Machine
end

