-- ==== Sys2Proof/Machine/Exact.lean ====
section
/-! DEFINITION. The exact real functions of spec/00_scope.md R15 (sin, cos, tanh, sqrt, 10^r, π), as rational
enclosures, and the correct rounding rnd32 of an enclosed real. An enclosure is a pair of rationals between which the
exact real lies; rounding both ends gives the binary32 of the real whenever the two agree, which is what the width of
2^-600 is for (log 7). -/

namespace Sys2Proof.ExactReal

/-- A real known to lie between two rationals. Where lo = hi it is that rational exactly; where they differ the real
is not zero (log 7). -/
structure Enclosure where
  lo : Rat
  hi : Rat
  deriving DecidableEq, Repr

/-- A real that is a known rational. -/
def point (r : Rat) : Enclosure := ⟨r, r⟩

def add (a b : Enclosure) : Enclosure := ⟨a.lo + b.lo, a.hi + b.hi⟩

def neg (a : Enclosure) : Enclosure := ⟨-a.hi, -a.lo⟩

def sub (a b : Enclosure) : Enclosure := add a (neg b)

/-- The product lies between the least and the greatest of the four products of the ends. -/
def mul (a b : Enclosure) : Enclosure :=
  let p : Rat := a.lo * b.lo
  let q : Rat := a.lo * b.hi
  let r : Rat := a.hi * b.lo
  let t : Rat := a.hi * b.hi
  ⟨min (min p q) (min r t), max (max p q) (max r t)⟩

/-- The quotient by a real whose enclosure is positive. -/
def divPos (a b : Enclosure) : Enclosure :=
  ⟨min (a.lo / b.lo) (a.lo / b.hi), max (a.hi / b.lo) (a.hi / b.hi)⟩

/-- rnd32 of an enclosed real (R11): the rounding of both ends where they agree; otherwise the free value picks one of
the two. An end that is 0 while the other is not stands for a nonzero real of the other's sign. -/
def round (x : Enclosure) : F32 :=
  let a : F32 := Binary32.rnd32Rat x.lo
  let b : F32 := if x.hi = 0 ∧ x.lo < 0 then Binary32.negZero else Binary32.rnd32Rat x.hi
  if a = b then a else if Config.roundingChoice x.lo x.hi then b else a

/-- The fractional bits of the fixed-point series for the derived constants. -/
def fracBits : Nat := 640

/-- The fractional bits of the fixed-point series for tanh. -/
def tanhBits : Nat := 192

/-- The error allowed for a series, in units of its last fractional bit: it covers the argument's truncation, every
term's truncation and the terms left out. -/
def slack : Nat := 2 ^ 40

/-- The number of terms summed: 20^160/160! and π^160/160! are below 2^-250 and 2^-680. -/
def nTerms : Nat := 160

/-- floor(π·2^640). -/
def piFixed : Nat := 0x3243f6a8885a308d313198a2e03707344a4093822299f31d0082efa98ec4e6c89452821e638d01377be5466cf34e90c6cc0ac29b7c97c50dd3f84d5b5b54709179216d5d98979fb1bd1310ba698dfb5ac

/-- floor(ln 10·2^640). -/
def ln10Fixed : Nat := 0x24d763776aaa2b05ba95b58ae0b4c28a38a3fb3e76977e43a0f187a0807c0b5ca58bc0b5ec6a0417331c32f00b17c35a0b1889061042f8b6bee3de2100b945b59e0b3e28a2a324479d96a9b0ec360c7ef

/-- The integer part of a nonnegative fraction times 2^p. -/
def fixed (p num den : Nat) : Nat := num * 2 ^ p / den

/-- The Taylor series of e^x from term k on, in fixed point with p fractional bits, each term rounded down. -/
def expSeries (p x : Nat) : Nat → Nat → Nat → Nat
  | 0, _, _ => 0
  | n + 1, k, term => term + expSeries p x n (k + 1) (term * x / (2 ^ p * (k + 1)))

/-- An enclosure of e^x for x in fixed point with p fractional bits, rounded down, where 0 ≤ x ≤ 20 (and p ≤ 192 if
x > 5/2). -/
def exp (p x : Nat) : Enclosure :=
  let s : Nat := expSeries p x nTerms 0 (2 ^ p)
  ⟨mkRat s (2 ^ p), mkRat (s + slack : Nat) (2 ^ p)⟩

/-- The alternating series of cos (from j = 0, term 1) and of sin (from j = 1, term x), in fixed point, each term
rounded down: term - term·x²/((j+1)(j+2)) + … -/
def altSeries (p x2 : Nat) : Nat → Nat → Nat → Int
  | 0, _, _ => 0
  | n + 1, j, term => (term : Int) - altSeries p x2 n (j + 2) (term * x2 / (2 ^ (2 * p) * ((j + 1) * (j + 2))))

/-- A fixed-point value with 640 fractional bits and its allowed error on both sides. -/
def around (v : Int) : Enclosure :=
  ⟨mkRat (v - slack) (2 ^ fracBits), mkRat (v + slack) (2 ^ fracBits)⟩

/-- cos ω for ω in fixed point, 0 < ω < π. -/
def cosFixed (w : Nat) : Enclosure := around (altSeries fracBits (w * w) nTerms 0 (2 ^ fracBits))

/-- sin ω for ω in fixed point, 0 < ω < π. -/
def sinFixed (w : Nat) : Enclosure := around (altSeries fracBits (w * w) nTerms 1 w)

/-- The angle ω = 2π·r of R182 in fixed point, for 0 < r < 1/2. -/
def angle (r : Rat) : Nat := 2 * piFixed * r.num.toNat / r.den

/-- cos(2π·r) for 0 < r < 1/2; exactly 0 at r = 1/4. -/
def cosTurn (r : Rat) : Enclosure := if r = 1 / 4 then point 0 else cosFixed (angle r)

/-- sin(2π·r) for 0 < r < 1/2; exactly 1 at r = 1/4. -/
def sinTurn (r : Rat) : Enclosure := if r = 1 / 4 then point 1 else sinFixed (angle r)

/-- The floor of the square root, one binary digit at a time from bit k - 1 down: `acc` is the digits found. -/
def sqrtDigits (n : Nat) : Nat → Nat → Nat
  | 0, acc => acc
  | k + 1, acc =>
    let next : Nat := acc + 2 ^ k
    if next * next ≤ n then sqrtDigits n k next else sqrtDigits n k acc

/-- The floor of the square root of n. -/
def natSqrt (n : Nat) : Nat := sqrtDigits n (Nat.log2 n / 2 + 1) 0

/-- The square root of an enclosed real that is not negative. -/
def sqrt (a : Enclosure) : Enclosure :=
  let down (r : Rat) : Nat := natSqrt (r.num.toNat * 2 ^ (2 * fracBits) / r.den)
  ⟨mkRat (down a.lo) (2 ^ fracBits), mkRat (down a.hi + 1 : Nat) (2 ^ fracBits)⟩

/-- The exponents beyond which 10^r is not computed: there every result it enters rounds as at the bound (log 8). -/
def expLimit : Int := 512

/-- 10^n for an integer exponent, exactly. -/
def pow10Int (n : Int) : Rat := if 0 ≤ n then mkRat (10 ^ n.toNat : Nat) 1 else mkRat 1 (10 ^ (-n).toNat)

/-- 10^r (R15): exact at an integer exponent; else 10^⌊r⌋ · e^(frac(r)·ln 10). -/
def pow10 (r : Rat) : Enclosure :=
  if r < -(expLimit : Rat) then ⟨0, pow10Int (-expLimit)⟩
  else if (expLimit : Rat) < r then point (pow10Int expLimit)
  else
    let n : Int := r.num / (r.den : Int)
    let f : Nat := (r.num % (r.den : Int)).toNat
    if f = 0 then point (pow10Int n)
    else mul (point (pow10Int n)) (exp fracBits (ln10Fixed * f / r.den))

/-- tanh m for a rational m > 0: m - m³/3 < tanh m < m near 0, 1 - 2^-26 < tanh m < 1 from 10 on, else
(e^(2m) - 1)/(e^(2m) + 1), which grows with e^(2m). -/
def tanhPos (m : Rat) : Enclosure :=
  if m ≤ mkRat 1 (2 ^ 13) then ⟨m - m * m * m / 3, m⟩
  else if 10 ≤ m then ⟨1 - mkRat 1 (2 ^ 26), 1⟩
  else
    let e : Enclosure := exp tanhBits (fixed tanhBits (2 * m.num.toNat) m.den)
    ⟨(e.lo - 1) / (e.lo + 1), (e.hi - 1) / (e.hi + 1)⟩

/-- tanh32 of R15: the correctly rounded tanh; ±∞ to ±1, NaN to NaN, ±0 to itself. -/
def tanh32 (v : F32) : F32 :=
  if Binary32.isNaN v then Binary32.qNaN
  else if Binary32.mag v = 0 then v
  else if Binary32.isInf v then (if Binary32.sign v then Binary32.negOne else Binary32.one)
  else if Binary32.sign v then round (neg (tanhPos (-Binary32.real v)))
  else round (tanhPos (Binary32.real v))

end Sys2Proof.ExactReal
end

