-- ==== Sys2Proof/Machine/Drive.lean ====
section
/-! DEFINITION. The drive family (spec/43_drive.md R230-R236): GAIN, DIST, OVERDRIVE and SAT, which share one
derivation and one gain stage and hold no state. -/

namespace Sys2Proof.Machine

open Binary32

/-- -36.0 and +36.0, the drive range of DIST, OVERDRIVE and SAT (R230). -/
def driveMin : F32 := 0xC2100000#32
def driveMax : F32 := 0x42100000#32

/-- G = rnd32(10^(real(E0)/20)), rounded once (R230). -/
def gainFactor (e0 : F32) : F32 := ExactReal.round (ExactReal.pow10 (real e0 / 20))

/-- The derivation of GAIN (R230): E0 clamped to the build's range. -/
def deriveGain (b : Build) (p : SlotRegs) : Derived :=
  let e0 : F32 := clip p.p0 b.gainMin b.gainMax
  { Derived.zero with e0 := e0, k0 := gainFactor e0 }

/-- The derivation of DIST and of SAT (R230): E0 clamped to [-36, 36]. -/
def deriveDrive (p : SlotRegs) : Derived :=
  let e0 : F32 := clip p.p0 driveMin driveMax
  { Derived.zero with e0 := e0, k0 := gainFactor e0 }

/-- The derivation of OVERDRIVE (R230): threshold t and asymmetry clamped to [0, 1], hi = t, lo = -t·(1 - asymmetry). -/
def deriveOverdrive (p : SlotRegs) : Derived :=
  let e1 : F32 := clip p.p1 posZero one
  let e2 : F32 := clip p.p2 posZero one
  { deriveDrive p with e1 := e1, e2 := e2, k1 := e1, k2 := neg32 (mul32 e1 (sub32 one e2)) }

/-- gain: the gain stage alone (R231, R232). -/
def execGain (s : State) : Host.Outcome State Fault Refusal :=
  .next (s.mapSamples fun v => mul32 v s.current.derived.k0).advanceSlot

/-- dist: the gain stage, then a clip to [-1, 1] (R233). -/
def execDist (s : State) : Host.Outcome State Fault Refusal :=
  .next (s.mapSamples fun v => clip (mul32 v s.current.derived.k0) negOne one).advanceSlot

/-- odrive: the gain stage, then a clip to [lo, hi] = [K2, K1] (R234). -/
def execOdrive (s : State) : Host.Outcome State Fault Refusal :=
  .next (s.mapSamples fun v => clip (mul32 v s.current.derived.k0) s.current.derived.k2 s.current.derived.k1).advanceSlot

/-- sat: the gain stage, then the correctly rounded tanh (R235). -/
def execSat (s : State) : Host.Outcome State Fault Refusal :=
  .next (s.mapSamples fun v => ExactReal.tanh32 (mul32 v s.current.derived.k0)).advanceSlot

end Sys2Proof.Machine
end

