-- ==== Sys2Proof/Machine/Filter.lean ====
section
/-! DEFINITION. The biquad IIR filter bank (spec/41_filter.md R180-R195): the derivation of the five coefficients from
exact reals, rounded once, and the recurrence shared by all five types. -/

namespace Sys2Proof.Machine

open Binary32 ExactReal

/-- The five filter types (R121). -/
inductive FilterKind where
  | lp
  | hp
  | bp
  | ls
  | hs
  deriving DecidableEq, Repr

/-- The raw coefficients of a design, before the division by a0 (R183-R187). -/
structure RawCoefs where
  b0 : Enclosure
  b1 : Enclosure
  b2 : Enclosure
  a0 : Enclosure
  a1 : Enclosure
  a2 : Enclosure
  deriving DecidableEq, Repr

/-- c · x for a known rational c. -/
def scale (c : Rat) (x : Enclosure) : Enclosure := mul (point c) x

/-- 1 + x. -/
def onePlus (x : Enclosure) : Enclosure := add (point 1) x

/-- 1 - x. -/
def oneMinus (x : Enclosure) : Enclosure := sub (point 1) x

/-- LP, HP and BP from cw = cos ω, sw = sin ω and α (R182-R185). -/
def passCoefs (kind : FilterKind) (bp : BpVariant) (cw sw alpha : Enclosure) : RawCoefs :=
  let a0 : Enclosure := onePlus alpha
  let a1 : Enclosure := scale (-2) cw
  let a2 : Enclosure := oneMinus alpha
  match kind with
  | .lp => ⟨scale (1 / 2) (oneMinus cw), oneMinus cw, scale (1 / 2) (oneMinus cw), a0, a1, a2⟩
  | .hp => ⟨scale (1 / 2) (onePlus cw), neg (onePlus cw), scale (1 / 2) (onePlus cw), a0, a1, a2⟩
  | .bp | .ls | .hs =>
    match bp with
    | .peak0dB => ⟨alpha, point 0, neg alpha, a0, a1, a2⟩
    | .skirt => ⟨scale (1 / 2) sw, point 0, neg (scale (1 / 2) sw), a0, a1, a2⟩

/-- (A + 1) + β·sw and (A + 1) - β·sw of R186 and R187. At slope 12, S = 1/2 and β = √A·√(A + 1/A + 2) = A + 1, so
they are (A + 1)·(1 ± sw); at slope 24, S = 1 and β = √A·√2 = √(2A) (R182). -/
def shelfSums (nStage : Nat) (a sw : Enclosure) : Enclosure × Enclosure :=
  if nStage = 1 then (mul (onePlus a) (onePlus sw), mul (onePlus a) (oneMinus sw))
  else
    let bsw : Enclosure := mul (sqrt (scale 2 a)) sw
    (add (onePlus a) bsw, sub (onePlus a) bsw)

/-- The low-shelf and, with cw replaced by -cw where the sets differ, the high-shelf coefficients (R186, R187). -/
def shelfCoefs (high : Bool) (nStage : Nat) (cw sw a : Enclosure) : RawCoefs :=
  let sums : Enclosure × Enclosure := shelfSums nStage a sw
  let am1 : Enclosure := sub a (point 1)
  let ap1 : Enclosure := onePlus a
  let tilt : Enclosure := mul am1 cw
  if high then
    ⟨mul a (add sums.1 tilt), scale (-2) (mul a (add am1 (mul ap1 cw))), mul a (add sums.2 tilt),
      sub sums.1 tilt, scale 2 (sub am1 (mul ap1 cw)), sub sums.2 tilt⟩
  else
    ⟨mul a (sub sums.1 tilt), scale 2 (mul a (sub am1 (mul ap1 cw))), mul a (sub sums.2 tilt),
      add sums.1 tilt, scale (-2) (add am1 (mul ap1 cw)), add sums.2 tilt⟩

/-- The raw coefficients from the effective parameters, the sample rate and the number of stages (R182-R187). -/
def rawCoefs (kind : FilterKind) (nStage : Nat) (bp : BpVariant) (e0 e1 e2 : F32) (fs : Nat) : RawCoefs :=
  let turn : Rat := real e0 / (fs : Rat)
  let cw : Enclosure := cosTurn turn
  let sw : Enclosure := sinTurn turn
  match kind with
  | .lp | .hp | .bp => passCoefs kind bp cw sw (scale (1 / (2 * real e1)) sw)
  | .ls => shelfCoefs false nStage cw sw (pow10 (real e2 / 40))
  | .hs => shelfCoefs true nStage cw sw (pow10 (real e2 / 40))

/-- The derivation of a FILTER slot: the effective parameters (R180), the cutoff check (R181), the coefficients
normalised by a0 and rounded once, and the range check after it (R188, R294). -/
def deriveFilter (kind : FilterKind) (nStage : Nat) (b : Build) (p : SlotRegs) (fs : Nat) : Except ErrCode Derived :=
  let e0 : F32 := p.p0
  let e1 : F32 := max32 p.p1 one
  let e2 : F32 := p.p2
  if 0 < real e0 ∧ 2 * real e0 < (fs : Rat) then
    let c : RawCoefs := rawCoefs kind nStage b.bpVariant e0 e1 e2 fs
    let k0 : F32 := round (divPos c.b0 c.a0)
    let k1 : F32 := round (divPos c.b1 c.a0)
    let k2 : F32 := round (divPos c.b2 c.a0)
    let k3 : F32 := round (divPos c.a1 c.a0)
    let k4 : F32 := round (divPos c.a2 c.a0)
    if isInf k0 || isInf k1 || isInf k2 || isInf k3 || isInf k4 then .error .coefRange
    else .ok ⟨e0, e1, e2, k0, k1, k2, k3, k4⟩
  else .error .cutoff

/-- One step of one stage: the recurrence in the order R189 writes it, and the new history. -/
def biquadStep (k : Derived) (h : Biquad) (x : F32) : Biquad × F32 :=
  let t0 : F32 := mul32 k.k0 x
  let t1 : F32 := add32 t0 (mul32 k.k1 h.x1)
  let t2 : F32 := add32 t1 (mul32 k.k2 h.x2)
  let t3 : F32 := sub32 t2 (mul32 k.k3 h.y1)
  let y : F32 := sub32 t3 (mul32 k.k4 h.y2)
  (⟨x, h.x1, y, h.y1⟩, y)

/-- One sample through the cascade: stage 1 takes stage 0's unclipped output, and the output of the last stage is
clipped to [-1, 1] (R189). With one stage, stage 1's history is untouched. -/
def filterStep (nStage : Nat) (k : Derived) (h : FilterLane) (x : F32) : FilterLane × F32 :=
  let r0 : Biquad × F32 := biquadStep k h.stage0 x
  if nStage = 1 then (⟨r0.1, h.stage1⟩, clip r0.2 negOne one)
  else
    let r1 : Biquad × F32 := biquadStep k h.stage1 r0.2
    (⟨r0.1, r1.1⟩, clip r1.2 negOne one)

/-- filter_apply(s) of R189 on the current slot. -/
def State.applyFilter (s : State) (nStage : Nat) : State :=
  s.foldChannels (fun x => x.filter) (fun x lanes => { x with filter := lanes })
    (filterStep nStage s.current.derived)

/-- filter.lp.s12 (R190). -/
def execFilterLpS12 (s : State) : Host.Outcome State Fault Refusal := .next (s.applyFilter 1).advanceSlot

/-- filter.lp.s24 (R190). -/
def execFilterLpS24 (s : State) : Host.Outcome State Fault Refusal := .next (s.applyFilter 2).advanceSlot

/-- filter.hp.s12 (R191). -/
def execFilterHpS12 (s : State) : Host.Outcome State Fault Refusal := .next (s.applyFilter 1).advanceSlot

/-- filter.hp.s24 (R191). -/
def execFilterHpS24 (s : State) : Host.Outcome State Fault Refusal := .next (s.applyFilter 2).advanceSlot

/-- filter.bp.s12 (R192). -/
def execFilterBpS12 (s : State) : Host.Outcome State Fault Refusal := .next (s.applyFilter 1).advanceSlot

/-- filter.bp.s24 (R192). -/
def execFilterBpS24 (s : State) : Host.Outcome State Fault Refusal := .next (s.applyFilter 2).advanceSlot

/-- filter.ls.s12 (R193). -/
def execFilterLsS12 (s : State) : Host.Outcome State Fault Refusal := .next (s.applyFilter 1).advanceSlot

/-- filter.ls.s24 (R193). -/
def execFilterLsS24 (s : State) : Host.Outcome State Fault Refusal := .next (s.applyFilter 2).advanceSlot

/-- filter.hs.s12 (R194). -/
def execFilterHsS12 (s : State) : Host.Outcome State Fault Refusal := .next (s.applyFilter 1).advanceSlot

/-- filter.hs.s24 (R194). -/
def execFilterHsS24 (s : State) : Host.Outcome State Fault Refusal := .next (s.applyFilter 2).advanceSlot

end Sys2Proof.Machine
end

