-- ==== Sys2Proof/Machine/Pitch.lean ====
section
/-! DEFINITION. The frame-based pitch shifter (spec/44_pitch_shift.md R250-R258). -/

namespace Sys2Proof.Machine

open Binary32

/-- 0.5 and 2.0, the range of the pitch factor (R250). -/
def pitchMin : F32 := 0x3F000000#32
def pitchMax : F32 := 0x40000000#32

/-- L = round_he(F / real(E0)), an exact rational rounded once (R251). -/
def pitchLength (f : Nat) (e0 : F32) : Nat := roundHalfEven (f * 2 ^ 149) (units e0).toNat

/-- The derivation of a PITCH slot: the factor clamped to [0.5, 2.0] (R250), L and the length pushed per frame (R251).
It cannot fail. -/
def derivePitch (warp : Bool) (b : Build) (p : SlotRegs) : Derived :=
  let e0 : F32 := clip p.p0 pitchMin pitchMax
  let len : Nat := pitchLength b.psFrame e0
  { Derived.zero with
    e0 := e0
    k0 := BitVec.ofNat 32 len
    k1 := BitVec.ofNat 32 (if warp then b.psFrame else len) }

/-- RESAMPLE(x, L): L samples that depend on x and L alone, and x itself where L is its length (R254; log 6). -/
def resample (x : List F32) (len : Nat) : List F32 :=
  if len = x.length then x else (List.range len).map (Config.resampleSample x len)

/-- warp_fit(r, F): padded with +0.0 or truncated at the end to F samples (R253). -/
def warpFit (r : List F32) (f : Nat) : List F32 :=
  if r.length < f then r ++ List.replicate (f - r.length) posZero else r.take f

/-- queue_push: as many of r as there is room for, in order, and whether some were dropped (R256, R257). -/
def queuePush (cap : Nat) (queue r : List F32) : List F32 × Bool :=
  (queue ++ r.take (cap - queue.length), decide (cap < queue.length + r.length))

/-- One frame of one channel: accumulate; if the frame is full, resample it, fit it if warp is on, push it and clear
the accumulator; then emit the front of the queue, or +0.0 (R252). The flag is whether a push has overflowed. -/
def pitchStep (warp : Bool) (b : Build) (len : Nat) (st : PitchLane × Bool) (x : F32) : (PitchLane × Bool) × F32 :=
  let acc : List F32 := st.1.acc ++ [x]
  if acc.length = b.psFrame then
    let r : List F32 := if warp then warpFit (resample acc len) b.psFrame else resample acc len
    let pushed : List F32 × Bool := queuePush b.psQueue st.1.queue r
    ((⟨[], pushed.1.drop 1⟩, st.2 || pushed.2), pushed.1.headD posZero)
  else ((⟨acc, st.1.queue.drop 1⟩, st.2), st.1.queue.headD posZero)

/-- pitch_apply(s) on the current slot (R252); an overflow on any active channel sets STATUS.PS_OVF (R257). -/
def State.applyPitch (s : State) (warp : Bool) : State :=
  let lanes : Chan PitchLane := s.current.state.pitch
  let r : Chan ((PitchLane × Bool) × List F32) :=
    (Chan.zip (Chan.zip lanes ⟨false, false⟩) s.wb).mapActive s.reg.channels fun p =>
      foldLane (pitchStep warp s.build s.current.derived.k0.toNat) p.1 p.2
  { s with
    wb := r.snd
    slots := s.slots.modify s.slotPc.toNat fun x => { x with state := { x.state with pitch := r.fst.fst } }
    status := { s.status with psOvf := s.status.psOvf || r.c0.1.2 || r.c1.1.2 } }

/-- pitch: warp off (R252). -/
def execPitch (s : State) : Host.Outcome State Fault Refusal := .next (s.applyPitch false).advanceSlot

/-- pitch.warp: warp on (R252, R253). -/
def execPitchWarp (s : State) : Host.Outcome State Fault Refusal := .next (s.applyPitch true).advanceSlot

end Sys2Proof.Machine
end

