-- ==== Sys2Proof/Machine/Commit.lean ====
section
/-! DEFINITION. The commit (spec/40_sequencer.md R153): derive every active slot from the shadow registers, refuse at
the first that fails, else copy all registers, write E and K, act on the pending clears and resize the delay histories,
as one step. -/

namespace Sys2Proof.Machine

/-- derive(d, P0..P2, fs, B) of R153, by the instruction a descriptor decodes to. The converters and host commands are
no descriptors and derive nothing. -/
def derive (i : Instr) (b : Build) (p : SlotRegs) (g : GlobalRegs) : Except ErrCode Derived :=
  match i with
  | .nop => .ok deriveNop
  | .gain => .ok (deriveGain b p)
  | .dist => .ok (deriveDrive p)
  | .odrive => .ok (deriveOverdrive p)
  | .sat => .ok (deriveDrive p)
  | .filterLpS12 => deriveFilter .lp 1 b p g.sampleRate.toNat
  | .filterLpS24 => deriveFilter .lp 2 b p g.sampleRate.toNat
  | .filterHpS12 => deriveFilter .hp 1 b p g.sampleRate.toNat
  | .filterHpS24 => deriveFilter .hp 2 b p g.sampleRate.toNat
  | .filterBpS12 => deriveFilter .bp 1 b p g.sampleRate.toNat
  | .filterBpS24 => deriveFilter .bp 2 b p g.sampleRate.toNat
  | .filterLsS12 => deriveFilter .ls 1 b p g.sampleRate.toNat
  | .filterLsS24 => deriveFilter .ls 2 b p g.sampleRate.toNat
  | .filterHsS12 => deriveFilter .hs 1 b p g.sampleRate.toNat
  | .filterHsS24 => deriveFilter .hs 2 b p g.sampleRate.toNat
  | .delay => deriveDelay b p g.sampleRate.toNat g.frames
  | .pitch => .ok (derivePitch false b p)
  | .pitchWarp => .ok (derivePitch true b p)
  | .conv16 | .conv32 | .convsil | .run | .stateclear | .reset | .slotclr _ => .ok Derived.zero

/-- The derivation of a slot from its shadow registers. A descriptor that does not decode is never in a register
(R130); it derives nothing here and stops the engine's step later (log 13). -/
def deriveSlot (b : Build) (p : SlotRegs) (g : GlobalRegs) : Except ErrCode Derived :=
  match decodeDesc p.desc with
  | .ok i => derive i b p g
  | .error _ => .ok Derived.zero

/-- The derivations of the active slots, the first of them having index n: the first failure wins (R153, R294). -/
def deriveSlots (b : Build) (g : GlobalRegs) : Nat → List Slot → Except CommitError (List Derived)
  | _, [] => .ok []
  | n, x :: xs =>
    match deriveSlot b x.shadow g with
    | .error code => .error ⟨code, n⟩
    | .ok d =>
      match deriveSlots b g (n + 1) xs with
      | .error e => .error e
      | .ok ds => .ok (d :: ds)

/-- An active slot at a successful commit: registers copied, E and K written, the state cleared where a clear is
pending and the flag zeroed, then the delay history resized if the slot is a DELAY (R153, R214). -/
def Slot.commitActive (clearAll : Bool) (d : Derived) (x : Slot) : Slot :=
  let st : SlotState := if clearAll || x.pend then SlotState.clear else x.state
  { shadow := x.shadow
    reg := x.shadow
    derived := d
    pend := false
    state := if descOpc x.shadow.desc = 6 then st.resizeDelay d.k0.toNat else st }

/-- An inactive slot at a successful commit: registers copied; only a global clear touches its state and its pending
flag (R69, R153). -/
def Slot.commitInactive (clearAll : Bool) (x : Slot) : Slot :=
  { x with
    reg := x.shadow
    pend := if clearAll then false else x.pend
    state := if clearAll then SlotState.clear else x.state }

/-- Every slot at a successful commit; the derivations are those of the active slots, which come first. -/
def commitSlots (clearAll : Bool) : List Derived → List Slot → List Slot
  | _, [] => []
  | [], x :: xs => x.commitInactive clearAll :: commitSlots clearAll [] xs
  | d :: ds, x :: xs => x.commitActive clearAll d :: commitSlots clearAll ds xs

/-- commit() of R153: the state after it, or the refusal, in which case nothing has changed. -/
def State.commit (s : State) : Except CommitError State :=
  match deriveSlots s.build s.shadow 0 (s.slots.take s.shadow.chainLen.toNat) with
  | .error e => .error e
  | .ok ds =>
    .ok { s with
      reg := s.shadow
      slots := commitSlots s.pendAll ds s.slots
      pendAll := false }

end Sys2Proof.Machine
end

