-- ==== Sys2Proof/Machine/Command.lean ====
section
/-! DEFINITION. The host commands: RUN (spec/40_sequencer.md R150, R151), STATE_CLEAR (R160), SLOT_STATE_CLR (R162) and
SOFT_RESET (spec/70_reset_and_hazards.md R321). -/

namespace Sys2Proof.Machine

/-- The base address of a slot's register block (R54). -/
def slotBase (i : Nat) : Nat := 0x01000 + 0x40 * i

/-- The address of a slot's SCTL register (R54, R59). -/
def sctlAddr (i : Nat) : Addr := BitVec.ofNat 20 (slotBase i + 0x30)

/-- run: while a run is in progress it starts nothing and raises E_RUN_BUSY (R151); else the phase becomes COMMIT,
slot_pc 0xFE, and the commit is made on the state at this instant. A failing commit refuses the run (R150, R153). -/
def execRun (s : State) : Host.Outcome State Fault Refusal :=
  if s.phase = .idle then
    match s.commit with
    | .ok t => .next { t with phase := .commit, slotPc := 0xFE#8, verdict := .accepted }
    | .error e => .next (s.refuseRun e)
  else .next (s.raiseError .runBusy noSlot ctrlAddr)

/-- stateclear: every slot's state is cleared by the next completed commit (R160). -/
def execStateclear (s : State) : Host.Outcome State Fault Refusal := .next { s with pendAll := true }

/-- slotclr: slot i's state is cleared by the next completed commit in which it is active (R162). Where the build has no
slot i, its SCTL address is unmapped (R97; log 16). -/
def execSlotclr (i : Nat) (s : State) : Host.Outcome State Fault Refusal :=
  if i < s.build.nSlots then .next (s.setPend i) else .next (s.raiseError .addr noSlot (sctlAddr i))

/-- The OUT words that a SOFT_RESET leaves where it aborts a run: one free value each (R321; log 5). -/
def State.abortedWords (s : State) : List Word :=
  (List.range s.pendingOutWords).map fun i => Config.abortedWord (s.draws + i)

/-- reset: every register and engine state takes its reset value, except the IN and OUT RAMs; an aborted run leaves
free values in the OUT words it would have written (R321). The build does not change, and what the host has still to
issue and has read is not the block's (log 18). -/
def execReset (s : State) : Host.Outcome State Fault Refusal :=
  .next { State.init s.build with
    mem := Memory.writeWords s.mem (outAddr 0) s.abortedWords
    hostQueue := s.hostQueue
    replies := s.replies
    draws := s.draws + s.pendingOutWords }

end Sys2Proof.Machine
end

