-- ==== Sys2Proof/Machine/Convert.lean ====
section
/-! DEFINITION. The output converters (spec/45_output_convert.md R270-R277). Each ends the run (R150, R157). -/

namespace Sys2Proof.Machine

open Binary32

/-- to_int(v, M, lo, hi): the exact product truncated toward zero and saturated; NaN is 0, ±∞ are the range ends
(R271, R276). -/
def toInt (v : F32) (m lo hi : Int) : Int :=
  if isNaN v then 0
  else if isInf v then (if sign v then lo else hi)
  else sat ((units v * m).tdiv (2 ^ 149)) lo hi

/-- The word CONV16 stores for a sample: the 16-bit value sign-extended, as two's complement (R271). -/
def conv16Word (v : F32) : Word := BitVec.ofInt 32 (toInt v 32767 (-32768) 32767)

/-- The word CONV32 stores for a sample (R272). The scale is the exact integer 2^31 - 1. -/
def conv32Word (v : F32) : Word := BitVec.ofInt 32 (toInt v 2147483647 (-2147483648) 2147483647)

/-- The samples WB[f][c] in OUT's order: frame-major, interleaved (R94, R271). -/
def State.interleaved (s : State) : List F32 :=
  (List.range (s.reg.frames * s.reg.channels)).map fun i =>
    s.sample (i / s.reg.channels) (i % s.reg.channels)

/-- Store the converter's words from OUT[0] on and set FMT_UNSUP (R270, R274). -/
def State.storeOut (s : State) (ws : List Word) (unsupported : Bool) : State :=
  { s with
    mem := Memory.writeWords s.mem (outAddr 0) ws
    status := { s.status with fmtUnsup := unsupported } }

/-- conv16 (R271). -/
def execConv16 (s : State) : Host.Outcome State Fault Refusal :=
  .next (s.storeOut (s.interleaved.map conv16Word) false).finishCompleted

/-- conv32 (R272). -/
def execConv32 (s : State) : Host.Outcome State Fault Refusal :=
  .next (s.storeOut (s.interleaved.map conv32Word) false).finishCompleted

/-- convsil: 2·B·C words of zero (R273). -/
def execConvsil (s : State) : Host.Outcome State Fault Refusal :=
  .next (s.storeOut (List.replicate (2 * (s.reg.frames * s.reg.channels)) 0#32) true).finishCompleted

end Sys2Proof.Machine
end

