-- ==== Sys2Proof/Machine/Dispatch.lean ====
section
/-! DEFINITION. The dispatch: one arm per instruction, each one direct call of its meaning. -/

namespace Sys2Proof.Machine

def exec (i : Instr) (s : State) : Host.Outcome State Fault Refusal :=
  match i with
  | .nop => Sys2Proof.Machine.execNop s
  | .gain => Sys2Proof.Machine.execGain s
  | .dist => Sys2Proof.Machine.execDist s
  | .odrive => Sys2Proof.Machine.execOdrive s
  | .sat => Sys2Proof.Machine.execSat s
  | .filterLpS12 => Sys2Proof.Machine.execFilterLpS12 s
  | .filterLpS24 => Sys2Proof.Machine.execFilterLpS24 s
  | .filterHpS12 => Sys2Proof.Machine.execFilterHpS12 s
  | .filterHpS24 => Sys2Proof.Machine.execFilterHpS24 s
  | .filterBpS12 => Sys2Proof.Machine.execFilterBpS12 s
  | .filterBpS24 => Sys2Proof.Machine.execFilterBpS24 s
  | .filterLsS12 => Sys2Proof.Machine.execFilterLsS12 s
  | .filterLsS24 => Sys2Proof.Machine.execFilterLsS24 s
  | .filterHsS12 => Sys2Proof.Machine.execFilterHsS12 s
  | .filterHsS24 => Sys2Proof.Machine.execFilterHsS24 s
  | .delay => Sys2Proof.Machine.execDelay s
  | .pitch => Sys2Proof.Machine.execPitch s
  | .pitchWarp => Sys2Proof.Machine.execPitchWarp s
  | .conv16 => Sys2Proof.Machine.execConv16 s
  | .conv32 => Sys2Proof.Machine.execConv32 s
  | .convsil => Sys2Proof.Machine.execConvsil s
  | .run => Sys2Proof.Machine.execRun s
  | .stateclear => Sys2Proof.Machine.execStateclear s
  | .reset => Sys2Proof.Machine.execReset s
  | .slotclr slot => Sys2Proof.Machine.execSlotclr slot s

end Sys2Proof.Machine
end

