-- ==== Sys2Proof/Machine/Bus.lean ====
section
/-! DEFINITION. One host bus access (spec/20_memory.md R90-R104): the address map, the checks in their order, the
value of every readable register and word, and the effect of a write on each. A CTRL or SCTL write runs the commands
its word stands for. -/

namespace Sys2Proof.Machine

/-- The global registers (R35-R53). -/
inductive GlobalReg where
  | id
  | version
  | cap0
  | capBuf
  | capDelay
  | capPsf
  | capPsq
  | capGmin
  | capGmax
  | ctrl
  | status
  | errInfo
  | errAddr
  | sampleRate
  | format
  | bufferSize
  | chainLen
  | runCount
  | intEn
  deriving DecidableEq, Repr

/-- The registers of a slot block (R54). -/
inductive SlotReg where
  | desc
  | p0
  | p1
  | p2
  | e0
  | e1
  | e2
  | k0
  | k1
  | k2
  | k3
  | k4
  | sctl
  deriving DecidableEq, Repr

/-- What a mapped word address names (R91). -/
inductive Target where
  | global (r : GlobalReg)
  | slot (i : Nat) (r : SlotReg)
  | inRam (i : Nat)
  | outRam (i : Nat)
  deriving DecidableEq, Repr

/-- The global register at a byte address (R35-R53). -/
def globalRegAt (a : Nat) : Option GlobalReg :=
  match a with
  | 0x00 => some .id
  | 0x04 => some .version
  | 0x08 => some .cap0
  | 0x0C => some .capBuf
  | 0x10 => some .capDelay
  | 0x14 => some .capPsf
  | 0x18 => some .capPsq
  | 0x1C => some .capGmin
  | 0x20 => some .capGmax
  | 0x40 => some .ctrl
  | 0x44 => some .status
  | 0x48 => some .errInfo
  | 0x4C => some .errAddr
  | 0x50 => some .sampleRate
  | 0x54 => some .format
  | 0x58 => some .bufferSize
  | 0x5C => some .chainLen
  | 0x60 => some .runCount
  | 0x64 => some .intEn
  | _ => none

/-- The slot register at an offset of a slot block (R54). -/
def slotRegAt (offset : Nat) : Option SlotReg :=
  match offset with
  | 0x00 => some .desc
  | 0x04 => some .p0
  | 0x08 => some .p1
  | 0x0C => some .p2
  | 0x10 => some .e0
  | 0x14 => some .e1
  | 0x18 => some .e2
  | 0x1C => some .k0
  | 0x20 => some .k1
  | 0x24 => some .k2
  | 0x28 => some .k3
  | 0x2C => some .k4
  | 0x30 => some .sctl
  | _ => none

/-- The target of an aligned word address, or none where it is unmapped (R91, R92, R93, R97). -/
def targetAt (b : Build) (a : Nat) : Option Target :=
  if a < 0x100 then (globalRegAt a).map .global
  else if 0x1000 ≤ a ∧ a < 0x2000 then
    (if (a - 0x1000) / 0x40 < b.nSlots then
      (slotRegAt ((a - 0x1000) % 0x40)).map (.slot ((a - 0x1000) / 0x40))
    else none)
  else if 0x40000 ≤ a ∧ a < 0x80000 then
    (if (a - 0x40000) / 4 < 2 * b.maxBuffer then some (.inRam ((a - 0x40000) / 4)) else none)
  else if 0x80000 ≤ a ∧ a < 0xC0000 then
    (if (a - 0x80000) / 4 < 4 * b.maxBuffer then some (.outRam ((a - 0x80000) / 4)) else none)
  else none

/-- The value of a global register on a read: shadow copies of the RW-S registers (R61), 0 for CTRL (R44). -/
def State.readGlobal (s : State) (r : GlobalReg) : Word :=
  match r with
  | .id => 0x50444C42#32
  | .version => 0x00010000#32
  | .cap0 =>
    BitVec.ofNat 32 (s.build.nSlots % 2 ^ 8 + 2 * 2 ^ 8
      + (match s.build.bpVariant with | .peak0dB => 0 | .skirt => 2 ^ 12))
  | .capBuf => BitVec.ofNat 32 s.build.maxBuffer
  | .capDelay => BitVec.ofNat 32 s.build.maxDelay
  | .capPsf => BitVec.ofNat 32 (s.build.psFrame % 2 ^ 16)
  | .capPsq => BitVec.ofNat 32 s.build.psQueue
  | .capGmin => s.build.gainMin
  | .capGmax => s.build.gainMax
  | .ctrl => 0#32
  | .status => s.statusWord
  | .errInfo => s.errInfo
  | .errAddr => s.errAddr
  | .sampleRate => s.shadow.sampleRate
  | .format => s.shadow.format
  | .bufferSize => s.shadow.bufferSize
  | .chainLen => s.shadow.chainLen
  | .runCount => s.runCount
  | .intEn => s.intEn.word

/-- The value of a slot register on a read: shadow copies of DESC and P0-P2 (R61), 0 for SCTL (R59). -/
def Slot.read (x : Slot) (r : SlotReg) : Word :=
  match r with
  | .desc => x.shadow.desc
  | .p0 => x.shadow.p0
  | .p1 => x.shadow.p1
  | .p2 => x.shadow.p2
  | .e0 => x.derived.e0
  | .e1 => x.derived.e1
  | .e2 => x.derived.e2
  | .k0 => x.derived.k0
  | .k1 => x.derived.k1
  | .k2 => x.derived.k2
  | .k3 => x.derived.k3
  | .k4 => x.derived.k4
  | .sctl => 0#32

/-- The value of a mapped word on a read (R98). -/
def State.readTarget (s : State) (t : Target) : Word :=
  match t with
  | .global r => s.readGlobal r
  | .slot i r => (s.slot i).read r
  | .inRam i => s.inWord i
  | .outRam i => s.outWord i

/-- Whether a target is a sample RAM word (R99). -/
def Target.isRam : Target → Bool
  | .global _ => false
  | .slot _ _ => false
  | .inRam _ => true
  | .outRam _ => true

/-- Run the commands of a word in their order (R161). -/
def execAll : List Instr → State → Host.Outcome State Fault Refusal
  | [], s => .next s
  | i :: is, s =>
    match exec i s with
    | .next t => execAll is t
    | .fault f => .fault f
    | .refused r => .refused r

/-- A write to SAMPLE_RATE, FORMAT, BUFFER_SIZE or CHAIN_LEN, with its check (R126) and pend_all (R62). -/
def State.writeSampleRate (s : State) (a : Addr) (w : Word) : State :=
  if w = 0#32 then s.raiseError .fmtRate noSlot a
  else { s with shadow := { s.shadow with sampleRate := w }, pendAll := true }

def State.writeFormat (s : State) (a : Addr) (w : Word) : State :=
  match checkFormat w with
  | some e => s.raiseError (rejectCode e) noSlot a
  | none => { s with shadow := { s.shadow with format := w }, pendAll := true }

def State.writeBufferSize (s : State) (a : Addr) (w : Word) : State :=
  if w = 0#32 ∨ s.build.maxBuffer < w.toNat then s.raiseError .bufSize noSlot a
  else { s with shadow := { s.shadow with bufferSize := w }, pendAll := true }

def State.writeChainLen (s : State) (a : Addr) (w : Word) : State :=
  if s.build.nSlots < w.toNat then s.raiseError .chainLen noSlot a
  else { s with shadow := { s.shadow with chainLen := w } }

/-- A write to a global register; a write to a read-only one is ignored (R34). -/
def State.writeGlobal (s : State) (a : Addr) (r : GlobalReg) (w : Word) : Host.Outcome State Fault Refusal :=
  match r with
  | .ctrl => execAll (decodeCtrl w) s
  | .status => .next (s.ackStatus w)
  | .sampleRate => .next (s.writeSampleRate a w)
  | .format => .next (s.writeFormat a w)
  | .bufferSize => .next (s.writeBufferSize a w)
  | .chainLen => .next (s.writeChainLen a w)
  | .intEn => .next (s.setIntEn w)
  | .id | .version | .cap0 | .capBuf | .capDelay | .capPsf | .capPsq | .capGmin | .capGmax => .next s
  | .errInfo | .errAddr | .runCount => .next s

/-- A write to slot i's DESC: refused with slot i recorded, or stored with pend[i] set (R55, R122). -/
def State.writeDesc (s : State) (a : Addr) (i : Nat) (w : Word) : State :=
  match decodeDesc w with
  | .error e => s.raiseError (rejectCode e) (BitVec.ofNat 8 i) a
  | .ok _ => s.modifySlot i fun x => { x with shadow := { x.shadow with desc := w }, pend := true }

/-- A write to one of slot i's parameters: refused if not finite, else stored exactly by `put`; no pending clear (R56,
R124). -/
def State.writeParam (s : State) (a : Addr) (i : Nat) (w : Word) (put : SlotRegs → SlotRegs) : State :=
  match checkParam w with
  | some e => s.raiseError (rejectCode e) (BitVec.ofNat 8 i) a
  | none => s.modifySlot i fun x => { x with shadow := put x.shadow }

/-- A write to a slot register; a write to a read-only one is ignored (R34, R54). -/
def State.writeSlot (s : State) (a : Addr) (i : Nat) (r : SlotReg) (w : Word) : Host.Outcome State Fault Refusal :=
  match r with
  | .desc => .next (s.writeDesc a i w)
  | .p0 => .next (s.writeParam a i w fun p => { p with p0 := w })
  | .p1 => .next (s.writeParam a i w fun p => { p with p1 := w })
  | .p2 => .next (s.writeParam a i w fun p => { p with p2 := w })
  | .sctl => execAll (decodeSctl i w) s
  | .e0 | .e1 | .e2 | .k0 | .k1 | .k2 | .k3 | .k4 => .next s

/-- A write to a mapped word; OUT is read-only to the host (R93). -/
def State.writeTarget (s : State) (a : Addr) (t : Target) (w : Word) : Host.Outcome State Fault Refusal :=
  match t with
  | .global r => s.writeGlobal a r w
  | .slot i r => s.writeSlot a i r w
  | .inRam i => .next { s with mem := Memory.writeWord s.mem (inAddr i) w }
  | .outRam _ => .next s

/-- The check of an access that comes before its target's own: size and alignment, mapped address, busy RAM, in this
order (R100). The target, or the error to raise. -/
def State.checkAccess (s : State) (a : Addr) (size : Nat) : Except ErrCode Target :=
  if size ≠ 4 ∨ a.toNat % 4 ≠ 0 then .error .busAlign
  else
    match targetAt s.build a.toNat with
    | none => .error .addr
    | some t => if t.isRam && s.busy then .error .ramBusy else .ok t

/-- One statement of the host (R96-R100): a refused read returns 0 and a refused write changes nothing but the error
record (R293). A `wait` that is not held back reads STATUS once (R134). -/
def hostAccess (x : HostOp) (s : State) : Host.Outcome State Fault Refusal :=
  match x with
  | .rd a size =>
    match s.checkAccess a size with
    | .error code => .next ((s.raiseError code noSlot a).reply 0#32)
    | .ok t => .next (s.reply (s.readTarget t))
  | .wr a size w =>
    match s.checkAccess a size with
    | .error code => .next (s.raiseError code noSlot a)
    | .ok t => s.writeTarget a t w
  | .wait => .next (s.reply s.statusWord)

end Sys2Proof.Machine
end

