-- ==== Sys2Proof/Machine/Cycle.lean ====
section
/-! DEFINITION. One step of the machine: the engine's next action or the host's next access (spec/00_scope.md R6,
spec/40_sequencer.md R150, R152, spec/70_reset_and_hazards.md R322, R333), and where a table word is placed so that the
next step runs it. -/

namespace Sys2Proof.Machine

/-- One channel of load_input: frame f's sample of channel c is IN[f·C + c] (R94, R154). -/
def State.loadLane (s : State) (c : Nat) : List F32 :=
  (List.range s.reg.frames).map fun f => s.inWord (f * s.reg.channels + c)

/-- load_input() of R154: the active channels of WB; an inactive channel is not written (R159). -/
def State.loadInput (s : State) : State :=
  { s with
    wb :=
      ⟨if 0 < s.reg.channels then s.loadLane 0 else s.wb.c0,
        if 1 < s.reg.channels then s.loadLane 1 else s.wb.c1⟩ }

/-- Where the engine goes after a successful commit: slot 0, or the converter for an empty chain (R150, R164). -/
def State.startChain (s : State) : State :=
  if s.reg.chainLen = 0#32 then { s with phase := .convert, slotPc := 0xFF#8 }
  else { s with phase := .process, slotPc := 0#8 }

/-- The end of the COMMIT phase (R150): a refused run is finished; else the input is loaded and the chain begins. -/
def State.endCommit (s : State) : State :=
  if s.verdict = .refused then s.finishRefused else s.loadInput.startChain

/-- The engine's next action (R150): the end of the commit, the current slot's descriptor, or the converter. While the
phase is IDLE the engine does nothing (R305). -/
def engineStep (s : State) : Host.Outcome State Fault Refusal :=
  match s.phase with
  | .idle => .next s
  | .commit => .next s.endCommit
  | .process =>
    match decodeDesc s.current.reg.desc with
    | .ok i => exec i s
    | .error _ => .fault (.illegalDescriptor s.current.reg.desc)
  | .convert =>
    match decodeFormat s.reg.format with
    | .ok i => exec i s
    | .error _ => .fault (.illegalFormat s.reg.format)

/-- One step (R6, R102, R152): with nothing pending the engine moves, and an idle engine leaves the state as it is
(R322); with a statement pending the host moves if the engine is idle. While BUSY a `wait` lets the engine move: its
reads of BUSY = 1 change nothing (R98), and how many there are is a draw nothing may depend on (R333), so they are not
recorded (log 15). For any other statement a draw says whether the engine or the host moves (log 1). -/
def cycle (s : State) : Host.Outcome State Fault Refusal :=
  match s.hostQueue with
  | [] => engineStep s
  | x :: rest =>
    if s.phase = .idle then hostAccess x { s with hostQueue := rest }
    else if x = .wait then engineStep s
    else if Config.engineFirst s.draws then engineStep { s with draws := s.draws + 1 }
    else hostAccess x { s with hostQueue := rest, draws := s.draws + 1 }

/-- The state with descriptor word w committed in slot 0 and the engine about to apply that slot, nothing pending. -/
def State.placeDesc (s : State) (w : Word) : State :=
  { s with
    phase := .process
    slotPc := 0#8
    verdict := .accepted
    hostQueue := []
    slots := s.slots.modify 0 fun x => { x with reg := { x.reg with desc := w } } }

/-- The state with the BIT_DEPTH of w committed and the engine about to convert, nothing pending. A word that is a
legal FORMAT is committed whole; of another, whose row fixes bits 7:0 alone, only BIT_DEPTH is taken. -/
def State.placeFormat (s : State) (w : Word) : State :=
  { s with
    phase := .convert
    slotPc := 0xFF#8
    verdict := .accepted
    hostQueue := []
    reg := { s.reg with
      format := if (checkFormat w).isNone then w
        else (s.reg.format &&& 0xFFFFFF00#32) ||| (w &&& 0x000000FF#32) } }

/-- The state with the engine idle and the host about to write w to the address a. -/
def State.placeWrite (s : State) (a : Addr) (w : Word) : State :=
  { s with
    phase := .idle
    slotPc := 0#8
    verdict := .accepted
    hostQueue := .wr a 4 w :: s.hostQueue }

/-- Where a word goes, by its place (R120). -/
def State.placeWord (s : State) (p : Place) (w : Word) : State :=
  match p with
  | .desc => s.placeDesc w
  | .format => s.placeFormat w
  | .ctrl => s.placeWrite ctrlAddr w
  | .sctl slot => s.placeWrite (sctlAddr slot) w

/-- The table word of nbits bits, placed where the next step runs it (log 11). A word that stands for nothing is placed
as a descriptor. -/
def State.placeTableWord (s : State) (nbits w : Nat) : State :=
  match firstDecoded (tablePlaces nbits) (BitVec.ofNat 32 w) with
  | some r => s.placeWord r.1 (BitVec.ofNat 32 w)
  | none => s.placeDesc (BitVec.ofNat 32 w)

end Sys2Proof.Machine
end

