-- ==== Sys2Proof/Safety.lean ====
section
/-! DEFINITION. What counts as a legal state and a safe run, and the frames that statements are written in: legal
register values (spec/30_encoding.md R122-R131), the build's constraints (spec/00_scope.md R7), the phase and slot_pc
together (spec/10_state.md R32, R33), the error record (R45-R47), the bounds of the module state (R65, R66), and what a
module, a host access and an engine step leave alone. -/

namespace Sys2Proof

/-- The constraints of R7 on a build, with CAP_DELAY and CAP_PSQ wide enough to show the parameter (R39, R41). R7
bounds GAIN_MIN_DB only from above, by -36.0, so minus infinity is admitted, and only NaN is not (log 2). -/
structure Build.Legal (b : Build) : Prop where
  slots : 1 ≤ b.nSlots ∧ b.nSlots ≤ 64
  buffer : 64 ≤ b.maxBuffer ∧ b.maxBuffer ≤ 16384
  delay : b.maxBuffer ≤ b.maxDelay ∧ b.maxDelay < 2 ^ 32
  frame : 2 ≤ b.psFrame ∧ b.psFrame ≤ 65535
  queue : 2 * b.psFrame ≤ b.psQueue ∧ b.psQueue < 2 ^ 32
  gainMin : Binary32.isNaN b.gainMin = false ∧ Binary32.lt32 Machine.driveMin b.gainMin = false
  gainMax : Binary32.isFinite b.gainMax = true ∧ Binary32.lt32 b.gainMax Machine.driveMax = false
    ∧ Binary32.lt32 0x44408000#32 b.gainMax = false

/-- A mapped byte address of an aligned word (R54, R91, R92, R93, R97). -/
def Build.mapped (b : Build) (a : Nat) : Prop :=
  (a ≤ 0x20 ∨ (0x40 ≤ a ∧ a ≤ 0x64))
    ∨ (∃ i, i < b.nSlots ∧ 0x1000 + 0x40 * i ≤ a ∧ a ≤ 0x1000 + 0x40 * i + 0x30)
    ∨ (0x40000 ≤ a ∧ a < 0x40000 + 8 * b.maxBuffer)
    ∨ (0x80000 ≤ a ∧ a < 0x80000 + 16 * b.maxBuffer)

end Sys2Proof

namespace Sys2Proof.Machine

/-- A word that decodes as a descriptor (R131). -/
def legalDesc (w : Word) : Bool :=
  match decodeDesc w with
  | .ok _ => true
  | .error _ => false

/-- A word that a FORMAT write accepts (R126). -/
def legalFormat (w : Word) : Bool := (checkFormat w).isNone

/-- A word that a P0-P2 write accepts (R124). -/
def legalParam (w : Word) : Bool := (checkParam w).isNone

/-- Global registers that a write could have left (R48-R51, R126). -/
structure GlobalRegs.Legal (b : Build) (g : GlobalRegs) : Prop where
  sampleRate : g.sampleRate ≠ 0#32
  format : legalFormat g.format = true
  bufferSize : 1 ≤ g.frames ∧ g.frames ≤ b.maxBuffer
  chainLen : g.chainLen.toNat ≤ b.nSlots

/-- Slot registers that a write could have left (R122, R124). -/
structure SlotRegs.Legal (p : SlotRegs) : Prop where
  desc : legalDesc p.desc = true
  p0 : legalParam p.p0 = true
  p1 : legalParam p.p1 = true
  p2 : legalParam p.p2 = true

/-- slot_pc in each phase (R32, R33, R150). -/
def State.phaseOk (s : State) : Prop :=
  match s.phase with
  | .idle => s.slotPc = 0#8
  | .commit => s.slotPc = 0xFE#8
  | .process => s.slotPc.toNat < s.reg.chainLen.toNat
  | .convert => s.slotPc = 0xFF#8

/-- The legal states: what every run from reset keeps. -/
structure State.Inv (s : State) : Prop where
  build : s.build.Legal
  slotCount : s.slots.length = s.build.nSlots
  shadow : s.shadow.Legal s.build
  reg : s.reg.Legal s.build
  slotShadow : ∀ x ∈ s.slots, x.shadow.Legal
  slotReg : ∀ x ∈ s.slots, x.reg.Legal
  phase : s.phaseOk
  verdict : s.phase ≠ .commit → s.verdict = .accepted
  errRecord : s.status.err = false → s.errInfo = 0#32 ∧ s.errAddr = 0#32

/-- The delay state's bounds (R65): no history exceeds the capacity, and that of an active DELAY slot does not exceed
its committed length, which is itself within the capacity and not below the buffer size (R216). -/
structure State.DelayInv (s : State) : Prop where
  capacity : ∀ x ∈ s.slots, x.state.delay.c0.length ≤ s.build.maxDelay ∧ x.state.delay.c1.length ≤ s.build.maxDelay
  active : ∀ i, i < s.reg.chainLen.toNat → descOpc (s.slot i).reg.desc = 6 →
    s.reg.frames ≤ (s.slot i).derived.k0.toNat ∧ (s.slot i).derived.k0.toNat ≤ s.build.maxDelay
      ∧ (s.slot i).state.delay.c0.length ≤ (s.slot i).derived.k0.toNat
      ∧ (s.slot i).state.delay.c1.length ≤ (s.slot i).derived.k0.toNat

/-- The bounds of one channel's pitch state (R66). -/
def PitchLane.Bounded (b : Build) (l : PitchLane) : Prop := l.acc.length < b.psFrame ∧ l.queue.length ≤ b.psQueue

/-- The pitch state's bounds, on every channel of every slot (R66). -/
def State.PitchInv (s : State) : Prop :=
  ∀ x ∈ s.slots, x.state.pitch.c0.Bounded s.build ∧ x.state.pitch.c1.Bounded s.build

/-- The canonical form of memory, with every written byte inside a mapped RAM word (R92, R93). -/
structure State.MemInv (s : State) : Prop where
  rising : Memory.wf s.mem
  mapped : ∀ cell ∈ s.mem,
    (0x40000 ≤ cell.1 ∧ cell.1 < 0x40000 + 8 * s.build.maxBuffer)
      ∨ (0x80000 ≤ cell.1 ∧ cell.1 < 0x80000 + 16 * s.build.maxBuffer)

/-- The working buffer holds a whole buffer while the slots and the converter use it (R63, R154). -/
def State.WbInv (s : State) : Prop :=
  s.phase = .process ∨ s.phase = .convert → ∀ c, c < s.reg.channels → (s.wb.get c).length = s.reg.frames

/-- The lanes of one slot's state agree wherever both channels are active: a change of CHANNELS that no commit has taken
up yet has a clear of every slot pending, and with two committed channels both lanes have the same sizes (R62, R65,
R66). -/
structure State.LanesAgree (sizes : SlotState → Nat → List Nat) (s : State) : Prop where
  pending : s.shadow.channels ≠ s.reg.channels → s.pendAll = true
  agree : s.reg.channels = 2 → ∀ x ∈ s.slots, sizes x.state 0 = sizes x.state 1

/-- dlen of channel c (R65). -/
def SlotState.delaySizes (st : SlotState) (c : Nat) : List Nat := [(st.delay.get c).length]

/-- nacc and nq of channel c (R66). -/
def SlotState.pitchSizes (st : SlotState) (c : Nat) : List Nat :=
  [(st.pitch.get c).acc.length, (st.pitch.get c).queue.length]

/-- The registers of slot i are the same in both states: shadow, committed, E, K and pend (R54, R62). -/
def SameSlotRegs (s t : State) (i : Nat) : Prop :=
  (t.slot i).shadow = (s.slot i).shadow ∧ (t.slot i).reg = (s.slot i).reg
    ∧ (t.slot i).derived = (s.slot i).derived ∧ (t.slot i).pend = (s.slot i).pend

/-- Every register, flag and model field outside the slots, the working buffer, phase, slot_pc, PS_OVF and memory is
the same in both states. -/
structure SameGlobals (s t : State) : Prop where
  build : t.build = s.build
  done : t.status.done = s.status.done
  err : t.status.err = s.status.err
  refused : t.status.refused = s.status.refused
  fmtUnsup : t.status.fmtUnsup = s.status.fmtUnsup
  errInfo : t.errInfo = s.errInfo
  errAddr : t.errAddr = s.errAddr
  shadow : t.shadow = s.shadow
  reg : t.reg = s.reg
  runCount : t.runCount = s.runCount
  intEn : t.intEn = s.intEn
  pendAll : t.pendAll = s.pendAll
  verdict : t.verdict = s.verdict
  hostQueue : t.hostQueue = s.hostQueue
  replies : t.replies = s.replies
  draws : t.draws = s.draws

/-- What every slot instruction leaves alone (R155): the globals, every RAM byte, every slot's registers, and the
own state of every slot but the current one. -/
structure ModuleFrame (s t : State) : Prop where
  globals : SameGlobals s t
  memory : ∀ a, Memory.byteAt t.mem a = Memory.byteAt s.mem a
  slotCount : t.slots.length = s.slots.length
  slotRegs : ∀ i, SameSlotRegs s t i
  others : ∀ i, i ≠ s.slotPc.toNat → (t.slot i).state = (s.slot i).state

/-- slot_pc after a slot: the next slot, or 0xFF and CONVERT after the last (R32, R150, R155). -/
def Advanced (s t : State) : Prop :=
  (s.slotPc.toNat + 1 < s.reg.chainLen.toNat → t.slotPc = s.slotPc + 1#8 ∧ t.phase = s.phase)
    ∧ (s.reg.chainLen.toNat ≤ s.slotPc.toNat + 1 → t.slotPc = 0xFF#8 ∧ t.phase = .convert)

/-- What every slot instruction does beside its samples: the frame, the advance, and the inactive channels of the
working buffer (R155, R159). -/
structure SlotEffect (s t : State) : Prop where
  frame : ModuleFrame s t
  advance : Advanced s t
  inactive : ∀ c, c < 2 → s.reg.channels ≤ c → t.wb.get c = s.wb.get c

/-- The effect of a module without state whose samples are transformed by g (R231, R236). -/
structure DriveEffect (g : F32 → F32) (s t : State) : Prop extends SlotEffect s t where
  psOvf : t.status.psOvf = s.status.psOvf
  noState : ∀ i, (t.slot i).state = (s.slot i).state
  count : ∀ c, c < 2 → (t.wb.get c).length = (s.wb.get c).length
  samples : ∀ c, c < 2 → c < s.reg.channels → ∀ f, f < (s.wb.get c).length → t.sample f c = g (s.sample f c)

/-- One biquad stage over one lane (R189): xs in, ys out unclipped, h the history before and h' after. X n and Y n are
the inputs and outputs counted from the two the history holds. -/
structure BiquadRun (k : Derived) (h : Biquad) (xs ys : List F32) (h' : Biquad) : Prop where
  count : ys.length = xs.length
  recurrence : ∀ n, n < xs.length →
    ys.getD n 0#32 =
      Binary32.sub32 (Binary32.sub32 (Binary32.add32 (Binary32.add32
        (Binary32.mul32 k.k0 (xs.getD n 0#32))
        (Binary32.mul32 k.k1 ((h.x2 :: h.x1 :: xs).getD (n + 1) 0#32)))
        (Binary32.mul32 k.k2 ((h.x2 :: h.x1 :: xs).getD n 0#32)))
        (Binary32.mul32 k.k3 ((h.y2 :: h.y1 :: ys).getD (n + 1) 0#32)))
        (Binary32.mul32 k.k4 ((h.y2 :: h.y1 :: ys).getD n 0#32))
  history : h' =
    ⟨(h.x2 :: h.x1 :: xs).getD (xs.length + 1) 0#32, (h.x2 :: h.x1 :: xs).getD xs.length 0#32,
      (h.y2 :: h.y1 :: ys).getD (xs.length + 1) 0#32, (h.y2 :: h.y1 :: ys).getD xs.length 0#32⟩

/-- A filter of one or two stages over one lane: the second stage takes the first one's unclipped outputs, only the
last stage's outputs are clipped, and a single stage leaves stage 1's history alone (R189). -/
def FilterRun (stages : Nat) (k : Derived) (h : FilterLane) (xs out : List F32) (h' : FilterLane) : Prop :=
  if stages = 1 then
    h'.stage1 = h.stage1 ∧ ∃ ys, BiquadRun k h.stage0 xs ys h'.stage0
      ∧ out = ys.map fun v => Binary32.clip v Binary32.negOne Binary32.one
  else
    ∃ ys zs, BiquadRun k h.stage0 xs ys h'.stage0 ∧ BiquadRun k h.stage1 ys zs h'.stage1
      ∧ out = zs.map fun v => Binary32.clip v Binary32.negOne Binary32.one

/-- The effect of a filter of one or two stages on the current slot (R189). -/
structure FilterEffect (stages : Nat) (s t : State) : Prop extends SlotEffect s t where
  psOvf : t.status.psOvf = s.status.psOvf
  delay : (t.slot s.slotPc.toNat).state.delay = s.current.state.delay
  pitch : (t.slot s.slotPc.toNat).state.pitch = s.current.state.pitch
  active : ∀ c, c < 2 → c < s.reg.channels →
    FilterRun stages s.current.derived (s.current.state.filter.get c) (s.wb.get c) (t.wb.get c)
      ((t.slot s.slotPc.toNat).state.filter.get c)
  idle : ∀ c, c < 2 → s.reg.channels ≤ c →
    (t.slot s.slotPc.toNat).state.filter.get c = s.current.state.filter.get c

/-- An enclosure holds a real that lies between its two ends (log 7). -/
def Holds (e : ExactReal.Enclosure) (x : ℝ) : Prop := (e.lo : ℝ) ≤ x ∧ x ≤ (e.hi : ℝ)

/-- v is a binary32 nearest the real r, as R11 rounds it: infinite from the overflow threshold on, of r's sign, and of two
equally near ones the even. -/
structure Nearest (v : F32) (r : ℝ) : Prop where
  number : Binary32.isNaN v = false
  overflow : Binary32.isInf v = true ↔ (2 ^ 128 - 2 ^ 103 : ℝ) ≤ |r|
  sign : if v.msb then r ≤ 0 else 0 ≤ r
  nearest : Binary32.isFinite v = true → ∀ u : F32, Binary32.isFinite u = true →
    |(Binary32.real v : ℝ) - r| ≤ |(Binary32.real u : ℝ) - r|
      ∧ (|(Binary32.real v : ℝ) - r| = |(Binary32.real u : ℝ) - r| → Binary32.real u ≠ Binary32.real v →
        v.toNat % 2 = 0)

/-- The two ends of an enclosure round to one pattern, an end at 0 with the other's sign, so that no free value is asked
(log 7). -/
abbrev Decided (e : ExactReal.Enclosure) : Prop :=
  Binary32.rnd32Rat e.lo = if e.hi = 0 ∧ e.lo < 0 then 0x80000000#32 else Binary32.rnd32Rat e.hi

/-- The six enclosures hold these reals. -/
structure CoefsHold (k : RawCoefs) (b0 b1 b2 a0 a1 a2 : ℝ) : Prop where
  b0 : Holds k.b0 b0
  b1 : Holds k.b1 b1
  b2 : Holds k.b2 b2
  a0 : Holds k.a0 a0
  a1 : Holds k.a1 a1
  a2 : Holds k.a2 a2

/-- k holds the raw coefficients that R183-R187 write for cw = c, sw = w, α, A and β (R182). -/
def Cookbook (kind : FilterKind) (bp : BpVariant) (c w α A β : ℝ) (k : RawCoefs) : Prop :=
  match kind with
  | .lp => CoefsHold k ((1 - c) / 2) (1 - c) ((1 - c) / 2) (1 + α) (-2 * c) (1 - α)
  | .hp => CoefsHold k ((1 + c) / 2) (-(1 + c)) ((1 + c) / 2) (1 + α) (-2 * c) (1 - α)
  | .bp =>
    match bp with
    | .peak0dB => CoefsHold k α 0 (-α) (1 + α) (-2 * c) (1 - α)
    | .skirt => CoefsHold k (w / 2) 0 (-w / 2) (1 + α) (-2 * c) (1 - α)
  | .ls =>
    CoefsHold k (A * ((A + 1) - (A - 1) * c + β * w)) (2 * A * ((A - 1) - (A + 1) * c))
      (A * ((A + 1) - (A - 1) * c - β * w)) ((A + 1) + (A - 1) * c + β * w) (-2 * ((A - 1) + (A + 1) * c))
      ((A + 1) + (A - 1) * c - β * w)
  | .hs =>
    CoefsHold k (A * ((A + 1) + (A - 1) * c + β * w)) (-2 * A * ((A - 1) + (A + 1) * c))
      (A * ((A + 1) + (A - 1) * c - β * w)) ((A + 1) - (A - 1) * c + β * w) (2 * ((A - 1) - (A + 1) * c))
      ((A + 1) - (A - 1) * c - β * w)

/-- A delay line over one lane (R212, R213): h is the history before, oldest first; the delayed value of frame n is the
output d frames before it where that many are retained, else +0.0; the last d of all outputs are retained. -/
structure DelayRun (d : Nat) (fb : F32) (h xs ys h' : List F32) : Prop where
  count : ys.length = xs.length
  recurrence : ∀ n, n < xs.length →
    ys.getD n 0#32 = Binary32.add32 (xs.getD n 0#32)
      (Binary32.mul32 (if d ≤ h.length + n then (h ++ ys).getD (h.length + n - d) 0#32 else 0x00000000#32) fb)
  history : h' = (h ++ ys).drop (h.length + xs.length - d)

/-- The effect of the delay on the current slot (R212). -/
structure DelayEffect (s t : State) : Prop extends SlotEffect s t where
  psOvf : t.status.psOvf = s.status.psOvf
  filter : (t.slot s.slotPc.toNat).state.filter = s.current.state.filter
  pitch : (t.slot s.slotPc.toNat).state.pitch = s.current.state.pitch
  active : ∀ c, c < 2 → c < s.reg.channels →
    DelayRun s.current.derived.k0.toNat s.current.derived.e1 (s.current.state.delay.get c) (s.wb.get c) (t.wb.get c)
      ((t.slot s.slotPc.toNat).state.delay.get c)
  idle : ∀ c, c < 2 → s.reg.channels ≤ c →
    (t.slot s.slotPc.toNat).state.delay.get c = s.current.state.delay.get c

/-- One frame of one pitch-shifter lane (R252, R253, R256): x in, y out, and whether a push has dropped samples. -/
def PitchFrame (warp : Bool) (b : Build) (len : Nat) (l : PitchLane) (x y : F32) (l' : PitchLane) (dropped : Prop) :
    Prop :=
  if l.acc.length + 1 = b.psFrame then
    ∃ r : List F32,
      (r = if warp then warpFit (resample (l.acc ++ [x]) len) b.psFrame else resample (l.acc ++ [x]) len)
        ∧ (dropped ↔ b.psQueue < l.queue.length + r.length)
        ∧ y = (l.queue ++ r.take (b.psQueue - l.queue.length)).headD 0x00000000#32
        ∧ l' = ⟨[], (l.queue ++ r.take (b.psQueue - l.queue.length)).tail⟩
  else (dropped ↔ False) ∧ y = l.queue.headD 0x00000000#32 ∧ l' = ⟨l.acc ++ [x], l.queue.tail⟩

/-- A pitch-shifter lane over its frames in order; the last argument says whether any push has dropped samples. -/
inductive PitchRun (warp : Bool) (b : Build) (len : Nat) : PitchLane → List F32 → List F32 → PitchLane → Prop → Prop where
  | nil (l : PitchLane) : PitchRun warp b len l [] [] l False
  | cons {l l' l'' : PitchLane} {x y : F32} {xs ys : List F32} {p q : Prop} :
    PitchFrame warp b len l x y l' p → PitchRun warp b len l' xs ys l'' q →
      PitchRun warp b len l (x :: xs) (y :: ys) l'' (p ∨ q)

/-- The effect of the pitch shifter on the current slot (R252, R257). -/
structure PitchEffect (warp : Bool) (s t : State) : Prop extends SlotEffect s t where
  filter : (t.slot s.slotPc.toNat).state.filter = s.current.state.filter
  delay : (t.slot s.slotPc.toNat).state.delay = s.current.state.delay
  lanes : ∃ dropped : Nat → Prop,
    (∀ c, c < 2 → c < s.reg.channels →
      PitchRun warp s.build s.current.derived.k0.toNat (s.current.state.pitch.get c) (s.wb.get c) (t.wb.get c)
        ((t.slot s.slotPc.toNat).state.pitch.get c) (dropped c))
      ∧ (t.status.psOvf = true ↔ s.status.psOvf = true ∨ ∃ c, c < 2 ∧ c < s.reg.channels ∧ dropped c)
  idle : ∀ c, c < 2 → s.reg.channels ≤ c →
    (t.slot s.slotPc.toNat).state.pitch.get c = s.current.state.pitch.get c

/-- A lane that a warp-on slot leaves: its accumulator is short of a frame and its queue is empty or one frame short of
full with it (R255, R257). A cleared lane is one. -/
def PitchLane.Lagging (f : Nat) (l : PitchLane) : Prop :=
  l.acc.length < f ∧ (l.queue = [] ∨ l.queue.length + l.acc.length = f - 1)

/-- The f - 1 samples such a lane still owes, oldest first: silence where fewer have come in (R255). -/
def PitchLane.owed (f : Nat) (l : PitchLane) : List F32 :=
  List.replicate (f - 1 - (l.queue.length + l.acc.length)) 0x00000000#32 ++ l.queue ++ l.acc

/-- n is the integer nearest r, the even one at a half (round_he of R14). -/
def IsRoundHe (r : Rat) (n : Int) : Prop := |r - n| ≤ 1 / 2 ∧ (|r - n| = 1 / 2 → n % 2 = 0)

/-- The integer part of r, toward zero (trunc of R14). -/
def truncRat (r : Rat) : Int := if 0 ≤ r then ⌊r⌋ else ⌈r⌉

/-- e is v clamped to the ends lo and hi: v itself where it is within them, else the end it is beyond (R13). -/
structure Clamped (v lo hi e : F32) : Prop where
  within : Binary32.real lo ≤ Binary32.real v → Binary32.real v ≤ Binary32.real hi → e = v
  above : Binary32.real hi < Binary32.real v → e = hi
  below : Binary32.real v < Binary32.real lo → e = lo

/-- What the engine sees of the state during a run: the committed registers, E, K and the state of every slot,
the working buffer, phase, slot_pc, whether the run is refused, and the RAMs (R103). -/
structure EngineView where
  build : Build
  reg : GlobalRegs
  slots : List (SlotRegs × Derived × SlotState)
  phase : Phase
  slotPc : BitVec 8
  verdict : Verdict
  wb : Chan (List F32)
  mem : List Host.Cell
  deriving DecidableEq, Repr

def State.engineView (s : State) : EngineView where
  build := s.build
  reg := s.reg
  slots := s.slots.map fun x => (x.reg, x.derived, x.state)
  phase := s.phase
  slotPc := s.slotPc
  verdict := s.verdict
  wb := s.wb
  mem := s.mem

/-- A statement of the host that writes CTRL with SOFT_RESET set (R44, R321). -/
def HostOp.isReset (x : HostOp) : Bool :=
  match x with
  | .wr a size w => a == ctrlAddr && size == 4 && w.getLsbD 2
  | .rd _ _ => false
  | .wait => false

end Sys2Proof.Machine
end

