-- ==== Sys2Proof/Certificates/Slice0/Obligations.lean ====
section
/-! DEFINITION. The statements for the provers, in the order of the spec's rules: reset, invariants, encoding, the host's
accesses, errors, the run and its commit, each instruction, and the whole machine. -/

open Sys2Proof Sys2Proof.Machine

/-! ### Reset -/

/-- R320: the state at power-on of any build, register by register, as the host reads it and as the engine holds it. -/
def Obligations.ResetValues : Prop :=
  ∀ b : Build,
    let s := State.init b
    s.readGlobal .id = 0x50444C42#32 ∧ s.readGlobal .version = 0x00010000#32
      ∧ s.readGlobal .capBuf = BitVec.ofNat 32 b.maxBuffer ∧ s.readGlobal .capDelay = BitVec.ofNat 32 b.maxDelay
      ∧ s.readGlobal .capPsq = BitVec.ofNat 32 b.psQueue
      ∧ s.readGlobal .capPsf = BitVec.ofNat 32 (b.psFrame % 65536)
      ∧ s.readGlobal .cap0 = BitVec.ofNat 32 (b.nSlots % 256 + 512 + if b.bpVariant = .skirt then 4096 else 0)
      ∧ s.readGlobal .capGmin = b.gainMin ∧ s.readGlobal .capGmax = b.gainMax
      ∧ s.statusWord = 0#32 ∧ s.errInfo = 0#32 ∧ s.errAddr = 0#32
      ∧ (∀ r ∈ [s.shadow, s.reg], r.sampleRate = 44100#32 ∧ r.format = 0x00000210#32 ∧ r.bufferSize = 64#32
          ∧ r.chainLen = 0#32)
      ∧ s.runCount = 0#32 ∧ s.intEn.word = 0#32 ∧ s.irq = false
      ∧ s.phase = .idle ∧ s.slotPc = 0#8 ∧ s.pendAll = false ∧ s.slots.length = b.nSlots
      ∧ (∀ i, (∀ p ∈ [(s.slot i).shadow, (s.slot i).reg], p.desc = 0#32 ∧ p.p0 = 0#32 ∧ p.p1 = 0#32 ∧ p.p2 = 0#32)
          ∧ (s.slot i).derived = ⟨0#32, 0#32, 0#32, 0#32, 0#32, 0#32, 0#32, 0#32⟩ ∧ (s.slot i).pend = false
          ∧ (∀ c, c < 2 → (s.slot i).state.filter.get c = ⟨⟨0#32, 0#32, 0#32, 0#32⟩, ⟨0#32, 0#32, 0#32, 0#32⟩⟩
              ∧ (s.slot i).state.delay.get c = [] ∧ (s.slot i).state.pitch.get c = ⟨[], []⟩))
      ∧ (∀ a, Memory.byteAt s.mem a = Config.powerOnByte a)

/-- The reset state is legal: every invariant below holds in it. Its build is the model's choice (log 2). -/
def Obligations.ResetMeetsInvariants : Prop :=
  State.reset.Inv ∧ State.reset.DelayInv ∧ State.reset.PitchInv ∧ State.reset.MemInv ∧ State.reset.WbInv
    ∧ State.reset.LanesAgree SlotState.delaySizes ∧ State.reset.LanesAgree SlotState.pitchSizes

/-! ### Invariants -/

/-- R130, R33, R32, R126: registers stay legal, slot_pc agrees with the phase, and ERR_INFO and ERR_ADDR are zero while
ERR is 0, whatever the host does. A run is refused only in its COMMIT phase (log 10). -/
def Obligations.StepKeepsLegality : Prop :=
  ∀ s t : State, s.Inv → step s = .next t → t.Inv

/-- R65, R211, R214, R216: no delay history outgrows the capacity or, in an active DELAY slot, its committed length.
R65, R62, R330: dlen is one number: while both channels are active their histories are equally long, as a change of
CHANNELS clears every slot (log 12). -/
def Obligations.StepKeepsDelayBounds : Prop :=
  (∀ s t : State, s.Inv → s.DelayInv → step s = .next t → t.DelayInv)
    ∧ ∀ s t : State, s.WbInv → s.LanesAgree SlotState.delaySizes → step s = .next t →
      t.LanesAgree SlotState.delaySizes

/-- R66, R252, R256: the accumulator stays short of a frame and the queue within its capacity. R66, R62, R330: nacc and nq
are one number each: while both channels are active their accumulators and their queues are equally long, as a change of
CHANNELS clears every slot (log 12). -/
def Obligations.StepKeepsPitchBounds : Prop :=
  (∀ s t : State, s.build.Legal → s.PitchInv → step s = .next t → t.PitchInv)
    ∧ ∀ s t : State, s.WbInv → s.LanesAgree SlotState.pitchSizes → step s = .next t →
      t.LanesAgree SlotState.pitchSizes

/-- R92, R93, R165: memory stays in its canonical form, and nothing outside the mapped RAM words is ever written. -/
def Obligations.StepKeepsMemoryForm : Prop :=
  ∀ s t : State, s.Inv → s.MemInv → step s = .next t → t.MemInv

/-- R63, R154, R155: while slots and converter use it, the working buffer holds one sample per frame and channel. -/
def Obligations.StepKeepsBufferShape : Prop :=
  ∀ s t : State, s.WbInv → step s = .next t → t.WbInv

/-- R130, R291: from a legal state no step stops: it answers a next state. -/
def Obligations.LegalStepAnswers : Prop :=
  ∀ s : State, s.Inv → ∃ t, step s = .next t

/-- R7, R34: no step changes a build parameter or the number of slots, so no capability register ever changes. -/
def Obligations.BuildNeverChanges : Prop :=
  ∀ s t : State, s.slots.length = s.build.nSlots → step s = .next t →
    t.build = s.build ∧ t.slots.length = s.slots.length
      ∧ ∀ r ∈ [GlobalReg.id, .version, .cap0, .capBuf, .capDelay, .capPsf, .capPsq, .capGmin, .capGmax],
          t.readGlobal r = s.readGlobal r

/-! ### Encoding -/

/-- R127, R128, R129: the word of every well-formed instruction decodes at its place to that instruction alone. -/
def Obligations.DecodeOfEncode : Prop :=
  ∀ i : Instr, i.wellFormed = true → decode (encode i).1 (encode i).2 = .ok [i]

/-- R121, R127, R128, R129, R161: the words each decoder reads an instruction from, for every word. -/
def Obligations.WordsOfEachRow : Prop :=
  (∀ w i, decodeDesc w = .ok i ↔ encode i = (.desc, w))
    ∧ (∀ w, decodeFormat w = .ok .conv16 ↔ w &&& 0xFF#32 = 0x10#32)
    ∧ (∀ w, decodeFormat w = .ok .conv32 ↔ w &&& 0xFF#32 = 0x20#32)
    ∧ (∀ w, decodeFormat w = .ok .convsil ↔ w &&& 0xFF#32 = 0x40#32)
    ∧ (∀ w, Instr.reset ∈ decodeCtrl w ↔ w &&& 4#32 = 4#32)
    ∧ (∀ w, Instr.stateclear ∈ decodeCtrl w ↔ w &&& 6#32 = 2#32)
    ∧ (∀ w, Instr.run ∈ decodeCtrl w ↔ w &&& 5#32 = 1#32)
    ∧ (∀ w i j, Instr.slotclr j ∈ decodeSctl i w ↔ j = i ∧ w &&& 1#32 = 1#32)

/-- R131: every DESC word is a row of R127 or is rejected by one of the two names, and every FORMAT word is one of the
six legal values or is rejected. -/
def Obligations.DecodingIsTotal : Prop :=
  (∀ w, (∃ i, decodeDesc w = .ok i ∧ encode i = (.desc, w)) ∨ decodeDesc w = .error .descOpc
      ∨ decodeDesc w = .error .descField)
    ∧ ∀ w, checkFormat w = none ↔ w ∈ [0x110#32, 0x120#32, 0x140#32, 0x210#32, 0x220#32, 0x240#32]

/-- R127-R129: words written out from the encoding table decode to the instruction they stand for. -/
def Obligations.WrittenOutWords : Prop :=
  decode .desc 0b00000000000000000000000000000001#32 = .ok [.gain]
    ∧ decode .desc 0b00000000000000000000000010110101#32 = .ok [.filterLsS24]
    ∧ decode .desc 0b00000000000000000000000000000110#32 = .ok [.delay]
    ∧ decode .desc 0b00000000000000000000000100000111#32 = .ok [.pitchWarp]
    ∧ decode .desc 0b00000000000000000000000001010101#32 = .error .descField
    ∧ decode .desc 0b00000000000000000000000000001000#32 = .error .descOpc
    ∧ decode .format 0b00000000000000000000000100010000#32 = .ok [.conv16]
    ∧ decode .ctrl 0b00000000000000000000000000000011#32 = .ok [.stateclear, .run]
    ∧ decode (.sctl 3) 0b00000000000000000000000000000001#32 = .ok [.slotclr 3]

/-! ### The host's accesses -/

/-- R122: a DESC write is rejected by the two checks in their order, and else sets the shadow copy and pend. -/
def Obligations.DescWrite : Prop :=
  ∀ (s : State) (i : Nat) (w : Word), s.build.nSlots ≤ 64 → i < s.build.nSlots →
    let a : Addr := BitVec.ofNat 20 (0x1000 + 0x40 * i)
    let opc : Nat := w.toNat % 16
    let mask : Word := if opc = 5 then 0x000000FF#32 else if opc = 7 then 0x0000010F#32 else 0x0000000F#32
    hostAccess (.wr a 4 w) s =
      if 8 ≤ opc then .next (s.raiseError .descOpc (BitVec.ofNat 8 i) a)
      else if w &&& ~~~mask ≠ 0#32 ∨ (opc = 5 ∧ 5 ≤ w.toNat / 16 % 8) then
        .next (s.raiseError .descField (BitVec.ofNat 8 i) a)
      else .next (s.modifySlot i fun x => { x with shadow := { x.shadow with desc := w }, pend := true })

/-- R124: a P0, P1 or P2 write is rejected where the exponent field is all ones, and else stores the pattern exactly,
with no pending clear. -/
def Obligations.ParamWrite : Prop :=
  ∀ (s : State) (i : Nat) (w : Word), s.build.nSlots ≤ 64 → i < s.build.nSlots →
    ∀ r ∈ [((4 : Nat), fun (p : SlotRegs) => { p with p0 := w }), (8, fun p => { p with p1 := w }),
        (12, fun p => { p with p2 := w })],
      let a : Addr := BitVec.ofNat 20 (0x1000 + 0x40 * i + r.1)
      hostAccess (.wr a 4 w) s =
        if w.toNat / 2 ^ 23 % 256 = 255 then .next (s.raiseError .paramNonfinite (BitVec.ofNat 8 i) a)
        else .next (s.modifySlot i fun x => { x with shadow := r.2 x.shadow })

/-- R126: the checks of the four global registers; a refused write changes nothing but the error record, an accepted one
sets the shadow copy, and pend_all for three of them. -/
def Obligations.GlobalWriteChecks : Prop :=
  ∀ (s : State) (w : Word),
    (hostAccess (.wr 0x00050#20 4 w) s =
      if w = 0#32 then .next (s.raiseError .fmtRate 0xFF#8 0x00050#20)
      else .next { s with shadow := { s.shadow with sampleRate := w }, pendAll := true })
    ∧ (hostAccess (.wr 0x00054#20 4 w) s =
      if w.toNat / 2 ^ 12 ≠ 0 then .next (s.raiseError .fmtRsvd 0xFF#8 0x00054#20)
      else if w.toNat % 256 ∉ [16, 32, 64] then .next (s.raiseError .fmtDepth 0xFF#8 0x00054#20)
      else if w.toNat / 256 % 16 ∉ [1, 2] then .next (s.raiseError .fmtChannels 0xFF#8 0x00054#20)
      else .next { s with shadow := { s.shadow with format := w }, pendAll := true })
    ∧ (hostAccess (.wr 0x00058#20 4 w) s =
      if w = 0#32 ∨ s.build.maxBuffer < w.toNat then .next (s.raiseError .bufSize 0xFF#8 0x00058#20)
      else .next { s with shadow := { s.shadow with bufferSize := w }, pendAll := true })
    ∧ (hostAccess (.wr 0x0005C#20 4 w) s =
      if s.build.nSlots < w.toNat then .next (s.raiseError .chainLen 0xFF#8 0x0005C#20)
      else .next { s with shadow := { s.shadow with chainLen := w } })

/-- R92, R95: an idle block stores an IN word byte by byte, little-endian, changes nothing else, and reads it back. -/
def Obligations.InputWordStored : Prop :=
  ∀ (s : State) (i : Nat) (w : Word), s.build.maxBuffer ≤ 16384 → s.phase = .idle → i < 2 * s.build.maxBuffer →
    let a : Addr := BitVec.ofNat 20 (0x40000 + 4 * i)
    ∃ m, hostAccess (.wr a 4 w) s = .next { s with mem := m }
      ∧ (∀ j, j < 4 → Memory.byteAt m (0x40000 + 4 * i + j) = BitVec.ofNat 8 (w.toNat / 2 ^ (8 * j)))
      ∧ (∀ c, c < 0x40000 + 4 * i ∨ 0x40000 + 4 * i + 4 ≤ c → Memory.byteAt m c = Memory.byteAt s.mem c)
      ∧ hostAccess (.rd a 4) { s with mem := m } = .next ({ s with mem := m }.reply w)

/-- R96: an access that is not an aligned word is refused, for reads and writes alike. -/
def Obligations.MisalignedAccess : Prop :=
  ∀ (s : State) (a : Addr) (size : Nat) (w : Word), size ≠ 4 ∨ a.toNat % 4 ≠ 0 →
    hostAccess (.rd a size) s = .next ((s.raiseError .busAlign 0xFF#8 a).reply 0#32)
      ∧ hostAccess (.wr a size w) s = .next (s.raiseError .busAlign 0xFF#8 a)

/-- R97: an aligned word access is refused with E_ADDR exactly where no rule maps its address: a mapped one is answered,
and its answer records no E_ADDR. -/
def Obligations.UnmappedAccess : Prop :=
  ∀ (s : State) (a : Addr) (w : Word), s.build.nSlots ≤ 64 → s.build.maxBuffer ≤ 16384 → a.toNat % 4 = 0 →
    (s.build.mapped a.toNat ↔ (targetAt s.build a.toNat).isSome = true)
      ∧ (¬ s.build.mapped a.toNat →
        hostAccess (.rd a 4) s = .next ((s.raiseError .addr 0xFF#8 a).reply 0#32)
          ∧ hostAccess (.wr a 4 w) s = .next (s.raiseError .addr 0xFF#8 a))
      ∧ (s.build.mapped a.toNat → s.errInfo ≠ 0x0000FF02#32 →
        ∀ x ∈ [HostOp.rd a 4, .wr a 4 w], ∃ t, hostAccess x s = .next t ∧ t.errInfo ≠ 0x0000FF02#32)

/-- R99: while BUSY a mapped RAM word is refused with E_RAM_BUSY, and a mapped register is not refused by this check. -/
def Obligations.RamWhileBusy : Prop :=
  ∀ (s : State) (a : Addr) (w : Word), s.build.nSlots ≤ 64 → s.build.maxBuffer ≤ 16384 → s.phase ≠ .idle →
    a.toNat % 4 = 0 → s.build.mapped a.toNat →
    (0x40000 ≤ a.toNat →
      hostAccess (.rd a 4) s = .next ((s.raiseError .ramBusy 0xFF#8 a).reply 0#32)
        ∧ hostAccess (.wr a 4 w) s = .next (s.raiseError .ramBusy 0xFF#8 a))
      ∧ (a.toNat < 0x40000 → ∃ t, targetAt s.build a.toNat = some t ∧ t.isRam = false
        ∧ hostAccess (.rd a 4) s = .next (s.reply (s.readTarget t)) ∧ hostAccess (.wr a 4 w) s = s.writeTarget a t w)

/-- R98: a read changes nothing of the block but, where it is refused, the error record. R34-R54, R59, R61: every register
read gives its register, the shadow copy where it has one, and 0 for CTRL and SCTL. R92, R93, R95: an idle block's RAM
word reads little-endian, and an idle block's every mapped word is read. -/
def Obligations.ReadsHaveNoSideEffect : Prop :=
  (∀ (s t : State) (a : Addr) (size : Nat), hostAccess (.rd a size) s = .next t →
    t = { s with replies := t.replies }
      ∨ ∃ code, t = { s.raiseError code 0xFF#8 a with replies := 0#32 :: s.replies })
    ∧ (∀ s : State, ∀ x ∈ [(0x00000#20, 0x50444C42#32), (0x00004#20, 0x00010000#32),
        (0x00008#20, BitVec.ofNat 32 (s.build.nSlots % 256 + 512 + if s.build.bpVariant = .skirt then 4096 else 0)),
        (0x0000C#20, BitVec.ofNat 32 s.build.maxBuffer), (0x00010#20, BitVec.ofNat 32 s.build.maxDelay),
        (0x00014#20, BitVec.ofNat 32 (s.build.psFrame % 65536)), (0x00018#20, BitVec.ofNat 32 s.build.psQueue),
        (0x0001C#20, s.build.gainMin), (0x00020#20, s.build.gainMax), (0x00040#20, 0#32), (0x00044#20, s.statusWord),
        (0x00048#20, s.errInfo), (0x0004C#20, s.errAddr), (0x00050#20, s.shadow.sampleRate),
        (0x00054#20, s.shadow.format), (0x00058#20, s.shadow.bufferSize), (0x0005C#20, s.shadow.chainLen),
        (0x00060#20, s.runCount), (0x00064#20, s.intEn.word)],
      hostAccess (.rd x.1 4) s = .next (s.reply x.2))
    ∧ (∀ (s : State) (i : Nat), s.build.nSlots ≤ 64 → i < s.build.nSlots →
      let y : Slot := s.slot i
      ∀ x ∈ [((0x00 : Nat), y.shadow.desc), (0x04, y.shadow.p0), (0x08, y.shadow.p1), (0x0C, y.shadow.p2),
          (0x10, y.derived.e0), (0x14, y.derived.e1), (0x18, y.derived.e2), (0x1C, y.derived.k0), (0x20, y.derived.k1),
          (0x24, y.derived.k2), (0x28, y.derived.k3), (0x2C, y.derived.k4), (0x30, 0#32)],
        hostAccess (.rd (BitVec.ofNat 20 (0x1000 + 0x40 * i + x.1)) 4) s = .next (s.reply x.2))
    ∧ (∀ (s : State) (i : Nat), s.build.maxBuffer ≤ 16384 → s.phase = .idle →
      ∀ x ∈ [(0x40000, 2 * s.build.maxBuffer), (0x80000, 4 * s.build.maxBuffer)], i < x.2 →
        let byte (j : Nat) : Byte := Memory.byteAt s.mem (x.1 + 4 * i + j)
        hostAccess (.rd (BitVec.ofNat 20 (x.1 + 4 * i)) 4) s = .next (s.reply (byte 3 ++ byte 2 ++ byte 1 ++ byte 0)))
    ∧ ∀ (s : State) (a : Addr), s.build.nSlots ≤ 64 → s.build.maxBuffer ≤ 16384 → s.phase = .idle → a.toNat % 4 = 0 →
      s.build.mapped a.toNat → ∃ v, hostAccess (.rd a 4) s = .next (s.reply v)

/-- R34, R54, R93: a write to a read-only register, or to OUT while idle, is ignored and raises no error. -/
def Obligations.ReadOnlyWritesIgnored : Prop :=
  (∀ (s : State) (w : Word), ∀ a ∈ [0x00#20, 0x04#20, 0x08#20, 0x0C#20, 0x10#20, 0x14#20, 0x18#20, 0x1C#20, 0x20#20,
      0x48#20, 0x4C#20, 0x60#20], hostAccess (.wr a 4 w) s = .next s)
    ∧ (∀ (s : State) (i : Nat) (w : Word), s.build.nSlots ≤ 64 → i < s.build.nSlots →
        ∀ o ∈ [0x10, 0x14, 0x18, 0x1C, 0x20, 0x24, 0x28, 0x2C],
          hostAccess (.wr (BitVec.ofNat 20 (0x1000 + 0x40 * i + o)) 4 w) s = .next s)
    ∧ (∀ (s : State) (i : Nat) (w : Word), s.build.maxBuffer ≤ 16384 → s.phase = .idle → i < 4 * s.build.maxBuffer →
        hostAccess (.wr (BitVec.ofNat 20 (0x80000 + 4 * i)) 4 w) s = .next s)

/-- R44, R45, R53: STATUS reads its fields bit by bit with 0 in the reserved ones; a write clears DONE, ERR and PS_OVF
where it has a 1, ERR with its record, and changes nothing else; CTRL reads 0; INT_EN keeps its two bits. -/
def Obligations.StatusAndEnables : Prop :=
  ∀ (s : State) (w : Word),
    (∀ n, s.statusWord.getLsbD n =
      match n with
      | 0 => s.busy
      | 1 => s.status.done
      | 2 => s.status.err
      | 3 => s.status.refused
      | 4 => s.status.fmtUnsup
      | 5 => s.status.psOvf
      | _ => decide (8 ≤ n) && s.busy && s.slotPc.getLsbD (n - 8))
    ∧ (s.busy = true ↔ s.phase ≠ .idle)
    ∧ hostAccess (.rd 0x00044#20 4) s = .next (s.reply s.statusWord)
    ∧ hostAccess (.wr 0x00044#20 4 w) s = .next { s with
        status := { s.status with
          done := s.status.done && !w.getLsbD 1
          err := s.status.err && !w.getLsbD 2
          psOvf := s.status.psOvf && !w.getLsbD 5 }
        errInfo := if w.getLsbD 2 then 0#32 else s.errInfo
        errAddr := if w.getLsbD 2 then 0#32 else s.errAddr }
    ∧ hostAccess (.rd 0x00040#20 4) s = .next (s.reply 0#32)
    ∧ hostAccess (.wr 0x00064#20 4 w) s = .next { s with intEn := ⟨w.getLsbD 0, w.getLsbD 1⟩ }
    ∧ ∀ n, s.intEn.word.getLsbD n = ((n == 0 && s.intEn.doneIe) || (n == 1 && s.intEn.errIe))

/-! ### Errors and the interrupt line -/

/-- R292: the first error since ERR was last 0 is recorded, and ERR is set; a later one changes nothing; writing 1 to
ERR and a reset clear the record. R290: the CODE of each error. -/
def Obligations.ErrorRecord : Prop :=
  (∀ (s : State) (code : ErrCode) (slot : BitVec 8) (a : Addr),
    s.raiseError code slot a =
      if s.status.err = false then
        { s with
          errInfo := BitVec.ofNat 32 (256 * slot.toNat + code.byte.toNat)
          errAddr := BitVec.ofNat 32 a.toNat
          status := { s.status with err := true } }
      else s)
    ∧ (∀ (s : State) (w : Word), w.getLsbD 2 = true →
      ∃ t, hostAccess (.wr 0x00044#20 4 w) s = .next t ∧ t.status.err = false ∧ t.errInfo = 0#32 ∧ t.errAddr = 0#32)
    ∧ (∀ s : State, ∃ t, exec .reset s = .next t ∧ t.status.err = false ∧ t.errInfo = 0#32 ∧ t.errAddr = 0#32)
    ∧ ∀ x ∈ [(ErrCode.busAlign, 0x01#8), (.addr, 0x02#8), (.ramBusy, 0x03#8), (.runBusy, 0x04#8), (.descOpc, 0x10#8),
        (.descField, 0x11#8), (.paramNonfinite, 0x12#8), (.fmtRsvd, 0x13#8), (.fmtDepth, 0x14#8),
        (.fmtChannels, 0x15#8), (.fmtRate, 0x16#8), (.bufSize, 0x17#8), (.chainLen, 0x18#8), (.cutoff, 0x20#8),
        (.coefRange, 0x21#8), (.delayRange, 0x22#8)], x.1.byte = x.2

/-- R295: the interrupt line is the two status bits under their enables; it is low after reset, clearing the two bits or
the two enables lowers it, and DONE alone or ERR alone raises it under its enable. -/
def Obligations.InterruptLine : Prop :=
  (∀ s : State, s.irq = true ↔
    (s.status.done = true ∧ s.intEn.doneIe = true) ∨ (s.status.err = true ∧ s.intEn.errIe = true))
    ∧ State.reset.irq = false
    ∧ ∀ s : State, (∃ t, hostAccess (.wr 0x00044#20 4 0x6#32) s = .next t ∧ t.irq = false)
        ∧ ∃ t, hostAccess (.wr 0x00064#20 4 0#32) s = .next t ∧ t.irq = false

/-! ### The run -/

/-- R151: a CTRL write with RUN while a run is in progress raises E_RUN_BUSY and disturbs nothing; its STATE_CLEAR still
acts. -/
def Obligations.RunWhileBusy : Prop :=
  ∀ (s : State) (w : Word), s.phase ≠ .idle → w.getLsbD 0 = true → w.getLsbD 2 = false →
    hostAccess (.wr 0x00040#20 4 w) s =
      .next ({ s with pendAll := s.pendAll || w.getLsbD 1 }.raiseError .runBusy 0xFF#8 0x00040#20)

/-- R150, R153, R69, R214: a RUN of an idle block all of whose active slots derive starts a run: every register is
copied, E and K of the active slots are written, the pending clears act, the active delay histories keep their newest
frames, and nothing else changes. A slot's derivation is the family rule of the instruction its DESC decodes to (R153). -/
def Obligations.CommitTakesEffect : Prop :=
  (∀ (b : Build) (p : SlotRegs) (g : GlobalRegs) (i : Instr), decodeDesc p.desc = .ok i →
    deriveSlot b p g = derive i b p g)
  ∧ ∀ (s : State) (d : Nat → Derived), s.phase = .idle → s.shadow.chainLen.toNat ≤ s.slots.length →
    (∀ i, i < s.shadow.chainLen.toNat → deriveSlot s.build (s.slot i).shadow s.shadow = .ok (d i)) →
    ∃ t, exec .run s = .next t
      ∧ t = { s with
          reg := s.shadow, pendAll := false, phase := .commit, slotPc := 0xFE#8, verdict := .accepted
          slots := t.slots }
      ∧ t.slots.length = s.slots.length
      ∧ ∀ i, i < s.slots.length →
        (t.slot i).shadow = (s.slot i).shadow ∧ (t.slot i).reg = (s.slot i).shadow
          ∧ (t.slot i).derived = (if i < s.shadow.chainLen.toNat then d i else (s.slot i).derived)
          ∧ (t.slot i).pend = (!s.pendAll && !decide (i < s.shadow.chainLen.toNat) && (s.slot i).pend)
          ∧ (t.slot i).state =
            (let cleared : SlotState :=
              if s.pendAll = true ∨ (i < s.shadow.chainLen.toNat ∧ (s.slot i).pend = true) then SlotState.clear
              else (s.slot i).state
            if i < s.shadow.chainLen.toNat ∧ descOpc (s.slot i).shadow.desc = 6 then
              { cleared with delay :=
                  ⟨cleared.delay.c0.drop (cleared.delay.c0.length - (d i).k0.toNat),
                    cleared.delay.c1.drop (cleared.delay.c1.length - (d i).k0.toNat)⟩ }
            else cleared)

/-- R153, R292, R294, R46, R47, R70, R158: where an active slot's derivation fails, the first such slot refuses the run, and
nothing is committed. The RUN write raises its error: ERR is 1, with the slot's code, its number and the address of CTRL
recorded unless ERR was 1 already. BUSY reads 1 from there on (R150); the engine's step ends the run with REFUSED, DONE and
the IDLE phase, and nothing else has changed. That these are two
steps is read from R150, R152 and R158 (log 10). -/
def Obligations.FirstFailureRefuses : Prop :=
  ∀ (s : State) (i : Nat) (code : ErrCode), s.phase = .idle → i < s.shadow.chainLen.toNat → i < s.slots.length →
    (∀ j, j < i → ∃ d, deriveSlot s.build (s.slot j).shadow s.shadow = .ok d) →
    deriveSlot s.build (s.slot i).shadow s.shadow = .error code →
    ∃ t, exec .run s = .next t
      ∧ t = { s with
          status := { s.status with err := true }
          errInfo := if s.status.err then s.errInfo else 0#16 ++ BitVec.ofNat 8 i ++ code.byte
          errAddr := if s.status.err then s.errAddr else 0x00000040#32
          phase := .commit
          slotPc := 0xFE#8
          verdict := .refused }
      ∧ engineStep t = .next { t with
          status := { t.status with refused := true, done := true }
          phase := .idle
          slotPc := 0#8
          verdict := .accepted }

/-- R158, R104, R152: a RUN of an idle block reads BUSY = 1 and CUR_SLOT = 0xFE, with ERR set if the run is refused, and
leaves WB, both RAMs and RUN_COUNT as they are. A refused run in progress ends in one engine step, whatever the host has
done since: it then reads BUSY = 0 with DONE and REFUSED set, nothing else has changed, and every OUT word is read at once,
as it was (R93, R99, R326; log 10). -/
def Obligations.RefusedRunEnds : Prop :=
  (∀ s : State, s.phase = .idle → ∃ t, exec .run s = .next t
    ∧ t.statusWord = s.statusWord ||| (if t.verdict = .refused then 0x0000FE05#32 else 0x0000FE01#32)
    ∧ (t.verdict = .accepted → t.errInfo = s.errInfo ∧ t.errAddr = s.errAddr)
    ∧ t.wb = s.wb ∧ t.mem = s.mem ∧ t.runCount = s.runCount ∧ t.shadow = s.shadow ∧ t.intEn = s.intEn
    ∧ t.build = s.build)
  ∧ ∀ s : State, s.phase = .commit → s.verdict = .refused →
    ∃ t, engineStep s = .next t
      ∧ t = { s with
          status := { s.status with refused := true, done := true }
          phase := .idle
          slotPc := 0#8
          verdict := .accepted }
      ∧ (t.statusWord.getLsbD 0 = false ∧ t.statusWord.getLsbD 1 = true ∧ t.statusWord.getLsbD 3 = true)
      ∧ ∀ i, s.build.maxBuffer ≤ 16384 → i < 4 * s.build.maxBuffer →
        hostAccess (.rd (BitVec.ofNat 20 (0x80000 + 4 * i)) 4) t = .next (t.reply (s.outWord i))

/-- R154, R94, R164: after a successful commit the working buffer is loaded from IN, frame by frame, and the engine goes
to slot 0, or to the converter where the chain is empty. -/
def Obligations.InputLoaded : Prop :=
  ∀ s : State, s.phase = .commit → s.verdict = .accepted →
    ∃ t, engineStep s = .next t
      ∧ t = { s with
          wb := t.wb
          phase := if s.reg.chainLen = 0#32 then .convert else .process
          slotPc := if s.reg.chainLen = 0#32 then 0xFF#8 else 0#8 }
      ∧ ∀ c, c < 2 →
        (c < s.reg.channels → (t.wb.get c).length = s.reg.frames
          ∧ ∀ f, f < s.reg.frames → t.sample f c = s.inWord (f * s.reg.channels + c))
          ∧ (s.reg.channels ≤ c → t.wb.get c = s.wb.get c)

/-- R150, R155, R270, R129, R102: a step runs the instruction decoded from the committed descriptor of the current slot,
from the committed FORMAT, or from the host's CTRL or SCTL write, with nothing around it; and with nothing pending an idle
block stays as it is (R322). That the engine moves where the host has nothing pending or only a `wait`, and that a draw
says which agent moves where another statement is pending, are the model's choice (log 1, log 15). -/
def Obligations.StepRunsDecoded : Prop :=
  (∀ (s : State) (i : Instr), s.hostQueue = [] ∨ s.hostQueue.head? = some .wait → s.phase = .process →
      decodeDesc s.current.reg.desc = .ok i → step s = exec i s)
    ∧ (∀ (s : State) (i : Instr), s.hostQueue = [] ∨ s.hostQueue.head? = some .wait → s.phase = .convert →
      decodeFormat s.reg.format = .ok i → step s = exec i s)
    ∧ (∀ (s : State) (x : HostOp) (rest : List HostOp), s.hostQueue = x :: rest → s.phase = .idle →
      step s = hostAccess x { s with hostQueue := rest })
    ∧ (∀ s : State, s.hostQueue = [] ∨ s.hostQueue.head? = some .wait → s.phase ≠ .idle → step s = engineStep s)
    ∧ (∀ (s : State) (x : HostOp) (rest : List HostOp), s.hostQueue = x :: rest → s.phase ≠ .idle → x ≠ .wait →
      step s = if Config.engineFirst s.draws then engineStep { s with draws := s.draws + 1 }
        else hostAccess x { s with hostQueue := rest, draws := s.draws + 1 })
    ∧ (∀ (s : State) (w : Word) (i : Instr), decodeCtrl w = [i] → hostAccess (.wr 0x00040#20 4 w) s = exec i s)
    ∧ (∀ (s : State) (n : Nat), n < s.build.nSlots → s.build.nSlots ≤ 64 →
      hostAccess (.wr (BitVec.ofNat 20 (0x1030 + 0x40 * n)) 4 1#32) s = exec (.slotclr n) s)
    ∧ ∀ s : State, s.hostQueue = [] → s.phase = .idle → step s = .next s

/-- R161: in one CTRL write SOFT_RESET discards the other bits, and else STATE_CLEAR acts before RUN. -/
def Obligations.CommandBitOrder : Prop :=
  ∀ (s : State) (w : Word),
    (w.getLsbD 2 = true → hostAccess (.wr 0x00040#20 4 w) s = exec .reset s)
      ∧ (w.getLsbD 2 = false → w.getLsbD 1 = true → w.getLsbD 0 = true →
        ∃ u, exec .stateclear s = .next u ∧ hostAccess (.wr 0x00040#20 4 w) s = exec .run u)
      ∧ (w.getLsbD 2 = false → w.getLsbD 1 = true → w.getLsbD 0 = false →
        hostAccess (.wr 0x00040#20 4 w) s = exec .stateclear s)
      ∧ (w.getLsbD 2 = false → w.getLsbD 1 = false → w.getLsbD 0 = true →
        hostAccess (.wr 0x00040#20 4 w) s = exec .run s)
      ∧ (w.getLsbD 2 = false → w.getLsbD 1 = false → w.getLsbD 0 = false → hostAccess (.wr 0x00040#20 4 w) s = .next s)

/-- R160, R162: STATE_CLEAR sets pend_all and SLOT_STATE_CLR sets one slot's pend, at any time and nothing else. -/
def Obligations.PendingClearsSet : Prop :=
  (∀ s : State, exec .stateclear s = .next { s with pendAll := true })
    ∧ ∀ (s : State) (n : Nat), n < s.build.nSlots → n < s.slots.length →
      ∃ t, exec (.slotclr n) s = .next t ∧ t = { s with slots := t.slots } ∧ t.slots.length = s.slots.length
        ∧ t.slot n = { s.slot n with pend := true } ∧ ∀ j, j ≠ n → t.slot j = s.slot j

/-- R321: SOFT_RESET gives every register and engine state its reset value; IN keeps its contents, OUT too but for the
words an aborted run would have written, which are free values; a refused run writes none (R158). -/
def Obligations.SoftReset : Prop :=
  ∀ s : State,
    let words : Nat := s.reg.frames * s.reg.channels
    let n : Nat :=
      if s.phase = .idle ∨ s.verdict = .refused then 0 else if s.reg.depth = 64 then 2 * words else words
    ∃ t, exec .reset s = .next t
      ∧ t = { State.init s.build with
          mem := t.mem, hostQueue := s.hostQueue, replies := s.replies, draws := s.draws + n }
      ∧ (∀ a, a < 0x80000 ∨ 0x80000 + 4 * n ≤ a → Memory.byteAt t.mem a = Memory.byteAt s.mem a)
      ∧ ∀ i, i < n → t.outWord i = Config.abortedWord (s.draws + i)

/-! ### The converters -/

/-- R271, R272, R274, R157: the converters of 16 and 32 bits write one word per sample from OUT[0] on, frame by frame,
leave every other byte of memory alone, and finish the run. -/
def Obligations.ConvertedWords : Prop :=
  ∀ s : State, ∀ x ∈ [(Instr.conv16, conv16Word), (Instr.conv32, conv32Word)],
    ∃ t, exec x.1 s = .next t
      ∧ t = { s with
          mem := t.mem
          status := { s.status with fmtUnsup := false, refused := false, done := true }
          runCount := s.runCount + 1#32
          phase := .idle
          slotPc := 0#8 }
      ∧ (∀ f c, f < s.reg.frames → c < s.reg.channels → t.outWord (f * s.reg.channels + c) = x.2 (s.sample f c))
      ∧ ∀ a, a < 0x80000 ∨ 0x80000 + 4 * (s.reg.frames * s.reg.channels) ≤ a →
          Memory.byteAt t.mem a = Memory.byteAt s.mem a

/-- R273, R274, R157: the silent converter writes two zero words per sample, sets FMT_UNSUP, and finishes the run. -/
def Obligations.SilentWords : Prop :=
  ∀ s : State,
    ∃ t, exec .convsil s = .next t
      ∧ t = { s with
          mem := t.mem
          status := { s.status with fmtUnsup := true, refused := false, done := true }
          runCount := s.runCount + 1#32
          phase := .idle
          slotPc := 0#8 }
      ∧ (∀ i, i < 2 * (s.reg.frames * s.reg.channels) → t.outWord i = 0#32)
      ∧ ∀ a, a < 0x80000 ∨ 0x80000 + 4 * (2 * (s.reg.frames * s.reg.channels)) ≤ a →
          Memory.byteAt t.mem a = Memory.byteAt s.mem a

/-- R271, R272, R276: a converted word is the exact product truncated toward zero, then saturated; NaN gives 0 and the
infinities the ends of the range. -/
def Obligations.ConversionTruncates : Prop :=
  ∀ v : F32, ∀ x ∈ [((conv16Word v).toInt, (32767 : Int), (-32768 : Int)),
      ((conv32Word v).toInt, (2147483647 : Int), (-2147483648 : Int))],
    (Binary32.isFinite v = true → x.1 = max x.2.2 (min x.2.1 (truncRat (Binary32.real v * x.2.1))))
      ∧ (Binary32.isNaN v = true → x.1 = 0)
      ∧ (Binary32.isInf v = true → x.1 = if Binary32.sign v then x.2.2 else x.2.1)

/-! ### Bypass and the drive family -/

/-- R156: NOP derives zeros, and leaves the working buffer and everything else but slot_pc unchanged. -/
def Obligations.NopPasses : Prop :=
  (∀ (b : Build) (p : SlotRegs) (g : GlobalRegs), p.desc = 0#32 →
    deriveSlot b p g = .ok ⟨0#32, 0#32, 0#32, 0#32, 0#32, 0#32, 0#32, 0#32⟩)
    ∧ ∀ s : State, ∃ t, exec .nop s = .next t ∧ DriveEffect (fun v => v) s t ∧ t.wb = s.wb ∧ t.slots = s.slots

/-- R232, R231: GAIN multiplies every sample by K0, rounding once, and clips nothing. -/
def Obligations.GainMultiplies : Prop :=
  ∀ s : State, ∃ t, exec .gain s = .next t
    ∧ DriveEffect (fun v => Binary32.mul32 v s.current.derived.k0) s t ∧ t.slots = s.slots

/-- R233: DIST multiplies by K0 and clips to [-1.0, 1.0]. -/
def Obligations.DistClips : Prop :=
  ∀ s : State, ∃ t, exec .dist s = .next t
    ∧ DriveEffect (fun v => Binary32.clip (Binary32.mul32 v s.current.derived.k0) 0xBF800000#32 0x3F800000#32) s t
    ∧ t.slots = s.slots

/-- R234: OVERDRIVE multiplies by K0 and clips, first against K1 and then against K2. -/
def Obligations.OverdriveClips : Prop :=
  ∀ s : State, ∃ t, exec .odrive s = .next t
    ∧ DriveEffect (fun v =>
        let m : F32 := Binary32.mul32 v s.current.derived.k0
        if Binary32.lt32 s.current.derived.k1 m then s.current.derived.k1
        else if Binary32.lt32 m s.current.derived.k2 then s.current.derived.k2 else m) s t
    ∧ t.slots = s.slots

/-- R235, R15: SAT multiplies by K0 and takes tanh32, which is as the rule says on NaN, the infinities and the zeros. Of
another finite value it is the binary32 nearest tanh, wherever the model's enclosure of tanh holds it and its two ends
round alike (log 7). -/
def Obligations.SatTakesTanh : Prop :=
  (∀ s : State, ∃ t, exec .sat s = .next t
      ∧ DriveEffect (fun v => ExactReal.tanh32 (Binary32.mul32 v s.current.derived.k0)) s t ∧ t.slots = s.slots)
    ∧ ∀ v : F32, (Binary32.isNaN v = true → Binary32.isNaN (ExactReal.tanh32 v) = true)
      ∧ (Binary32.isInf v = true → ExactReal.tanh32 v = if v.msb then 0xBF800000#32 else 0x3F800000#32)
      ∧ (v = 0x00000000#32 ∨ v = 0x80000000#32 → ExactReal.tanh32 v = v)
      ∧ (Binary32.isFinite v = true → v ≠ 0x00000000#32 → v ≠ 0x80000000#32 →
        let e : ExactReal.Enclosure :=
          if v.msb then ExactReal.neg (ExactReal.tanhPos (-Binary32.real v)) else ExactReal.tanhPos (Binary32.real v)
        Holds e (Real.tanh (Binary32.real v : ℝ)) → Decided e →
          Nearest (ExactReal.tanh32 v) (Real.tanh (Binary32.real v : ℝ)))

/-- R230, R153: the drive family's derivation never fails; E0 is P0 where P0 is within its range and else the end it is
beyond, and OVERDRIVE clamps E1 and E2 to [0, 1] in the same way; E and K the opcode does not use are 0. K0 is the gain
factor of E0: the binary32 nearest 10^(real(E0)/20), wherever the model's enclosure of 10^r holds it and its two ends round
alike (log 7). -/
def Obligations.DriveDerivation : Prop :=
  (∀ e0 : F32,
    let e : ExactReal.Enclosure := ExactReal.pow10 (Binary32.real e0 / 20)
    let x : ℝ := 10 ^ ((Binary32.real e0 : ℝ) / 20)
    Holds e x → Decided e → Nearest (gainFactor e0) x)
  ∧ ∀ (b : Build) (p : SlotRegs) (g : GlobalRegs), p.Legal → b.Legal →
    ∀ x ∈ [(Instr.gain, b.gainMin, b.gainMax), (.dist, 0xC2100000#32, 0x42100000#32),
        (.odrive, 0xC2100000#32, 0x42100000#32), (.sat, 0xC2100000#32, 0x42100000#32)],
      ∃ d, derive x.1 b p g = .ok d ∧ d.k0 = gainFactor d.e0 ∧ d.k3 = 0#32 ∧ d.k4 = 0#32
        ∧ Clamped p.p0 x.2.1 x.2.2 d.e0
        ∧ (x.1 = .odrive → d.k1 = d.e1 ∧ d.k2 = Binary32.mul32 d.e1 (Binary32.sub32 0x3F800000#32 d.e2) ^^^ 0x80000000#32
            ∧ Clamped p.p1 0x00000000#32 0x3F800000#32 d.e1 ∧ Clamped p.p2 0x00000000#32 0x3F800000#32 d.e2)
        ∧ (x.1 ≠ .odrive → d.e1 = 0#32 ∧ d.e2 = 0#32 ∧ d.k1 = 0#32 ∧ d.k2 = 0#32)

/-- R232: 0 dB gives K0 = 1.0 exactly, and with K0 = 1.0 a GAIN slot passes every sample that is not NaN bit for bit. -/
def Obligations.UnityGainPasses : Prop :=
  gainFactor 0x00000000#32 = 0x3F800000#32 ∧ gainFactor 0x80000000#32 = 0x3F800000#32
    ∧ ∀ s : State, s.current.derived.k0 = 0x3F800000#32 →
      ∃ t, exec .gain s = .next t ∧ ∀ f c, c < 2 → Binary32.isNaN (s.sample f c) = false → t.sample f c = s.sample f c

/-- R13, R233: clip against ordered finite ends gives the value itself where it is within them and else the end it is
beyond, an infinity too, and passes NaN unchanged; so any other result is within them. -/
def Obligations.ClipBounds : Prop :=
  ∀ v lo hi : F32, Binary32.isFinite lo = true → Binary32.isFinite hi = true →
    Binary32.real lo ≤ Binary32.real hi →
    (Binary32.isNaN v = true → Binary32.clip v lo hi = v)
      ∧ (Binary32.isNaN v = false → Binary32.isFinite (Binary32.clip v lo hi) = true
        ∧ Binary32.real lo ≤ Binary32.real (Binary32.clip v lo hi)
        ∧ Binary32.real (Binary32.clip v lo hi) ≤ Binary32.real hi)
      ∧ (Binary32.isFinite v = true → Clamped v lo hi (Binary32.clip v lo hi))
      ∧ (Binary32.isInf v = true → Binary32.clip v lo hi = if v.msb then lo else hi)

/-! ### The filters -/

/-- R189, R190-R194: a 12 dB filter runs one biquad stage over each active channel, clips its outputs to [-1.0, 1.0] and
keeps the unclipped history. -/
def Obligations.OneStageFilters : Prop :=
  ∀ s : State, s.slotPc.toNat < s.slots.length →
    ∀ i ∈ [Instr.filterLpS12, .filterHpS12, .filterBpS12, .filterLsS12, .filterHsS12],
      ∃ t, exec i s = .next t ∧ FilterEffect 1 s t

/-- R189, R190-R194: a 24 dB filter runs two cascaded stages with the same coefficients and clips only at the end. -/
def Obligations.TwoStageFilters : Prop :=
  ∀ s : State, s.slotPc.toNat < s.slots.length →
    ∀ i ∈ [Instr.filterLpS24, .filterHpS24, .filterBpS24, .filterLsS24, .filterHsS24],
      ∃ t, exec i s = .next t ∧ FilterEffect 2 s t

/-- R180, R181, R188, R294: a filter's derivation fails with E_CUTOFF exactly outside 0 < E0 < fs/2, else either with
E_COEF_RANGE, which cannot occur for LP, HP and BP (R190-R192), or with no infinite coefficient, and it keeps P0,
max(P1, 1.0) and P2 as E0, E1 and E2. -/
def Obligations.FilterDerivationChecks : Prop :=
  ∀ (b : Build) (p : SlotRegs) (g : GlobalRegs), p.Legal →
    ∀ i ∈ [Instr.filterLpS12, .filterHpS12, .filterBpS12, .filterLsS12, .filterHsS12, .filterLpS24, .filterHpS24,
        .filterBpS24, .filterLsS24, .filterHsS24],
      (derive i b p g = .error .cutoff ↔
          ¬ (0 < Binary32.real p.p0 ∧ Binary32.real p.p0 < (g.sampleRate.toNat : Rat) / 2))
        ∧ (∀ e, derive i b p g = .error e → e = .cutoff ∨
          (e = .coefRange ∧ i ∈ [Instr.filterLsS12, .filterHsS12, .filterLsS24, .filterHsS24]))
        ∧ ∀ d, derive i b p g = .ok d →
          d.e0 = p.p0 ∧ d.e2 = p.p2 ∧ Binary32.real d.e1 = max (Binary32.real p.p1) 1
            ∧ ∀ k ∈ [d.k0, d.k1, d.k2, d.k3, d.k4], Binary32.isInf k = false

/-- R182-R188: the coefficients of the ten filters. Each K is its raw coefficient over a0, rounded once; the raw
coefficients enclose what R183-R187 write, wherever the model's sin, cos and 10^r enclose theirs (log 7). The quotient by a
positive enclosure encloses the quotient of the reals, and an enclosure whose two ends round alike rounds to the binary32
nearest any real it holds (R15, R188). Low-pass and
high-pass have K2 = K0, band-pass has K1 = +0 (R192), and the three share K3 and K4. A shelf of 0 dB has A = 1 and
b_i = a_i (R193, R194): K0 = 1.0, K1 = K3 and K2 = K4. -/
def Obligations.PassFilterSymmetry : Prop :=
  (∀ (b : Build) (p : SlotRegs) (g : GlobalRegs) (lp hp bp : Derived),
    derive .filterLpS12 b p g = .ok lp → derive .filterHpS12 b p g = .ok hp → derive .filterBpS12 b p g = .ok bp →
    lp.k2 = lp.k0 ∧ hp.k2 = hp.k0 ∧ bp.k1 = 0x00000000#32
      ∧ lp.k3 = hp.k3 ∧ lp.k3 = bp.k3 ∧ lp.k4 = hp.k4 ∧ lp.k4 = bp.k4
      ∧ derive .filterLpS24 b p g = .ok lp ∧ derive .filterHpS24 b p g = .ok hp ∧ derive .filterBpS24 b p g = .ok bp)
    ∧ (∀ (b : Build) (p : SlotRegs) (g : GlobalRegs), 0 < Binary32.real p.p0 →
      Binary32.real p.p0 < (g.sampleRate.toNat : Rat) / 2 → p.p2 = 0x00000000#32 ∨ p.p2 = 0x80000000#32 →
      ∀ i ∈ [Instr.filterLsS12, .filterLsS24, .filterHsS12, .filterHsS24],
        ∃ d, derive i b p g = .ok d ∧ d.k0 = 0x3F800000#32 ∧ d.k1 = d.k3 ∧ d.k2 = d.k4)
    ∧ (∀ (b : Build) (p : SlotRegs) (g : GlobalRegs),
      ∀ x ∈ [(Instr.filterLpS12, FilterKind.lp, 1), (.filterHpS12, .hp, 1), (.filterBpS12, .bp, 1),
          (.filterLsS12, .ls, 1), (.filterHsS12, .hs, 1), (.filterLpS24, .lp, 2), (.filterHpS24, .hp, 2),
          (.filterBpS24, .bp, 2), (.filterLsS24, .ls, 2), (.filterHsS24, .hs, 2)],
        let q : F32 := Binary32.max32 p.p1 0x3F800000#32
        let k : RawCoefs := rawCoefs x.2.1 x.2.2 b.bpVariant p.p0 q p.p2 g.sampleRate.toNat
        let turn : Rat := Binary32.real p.p0 / (g.sampleRate.toNat : Rat)
        (∀ d, derive x.1 b p g = .ok d →
          d.k0 = ExactReal.round (ExactReal.divPos k.b0 k.a0) ∧ d.k1 = ExactReal.round (ExactReal.divPos k.b1 k.a0)
            ∧ d.k2 = ExactReal.round (ExactReal.divPos k.b2 k.a0) ∧ d.k3 = ExactReal.round (ExactReal.divPos k.a1 k.a0)
            ∧ d.k4 = ExactReal.round (ExactReal.divPos k.a2 k.a0))
        ∧ ∀ c w A : ℝ, Holds (ExactReal.cosTurn turn) c → Holds (ExactReal.sinTurn turn) w →
          Holds (ExactReal.pow10 (Binary32.real p.p2 / 40)) A → 0 < A →
          Cookbook x.2.1 b.bpVariant c w (w / (2 * (Binary32.real q : ℝ))) A
            (√A * √((A + 1 / A) * (1 / ((x.2.2 : ℝ) / 2) - 1) + 2)) k)
    ∧ (∀ (x y : ExactReal.Enclosure) (a b : ℝ), 0 < y.lo → Holds x a → Holds y b → Holds (ExactReal.divPos x y) (a / b))
    ∧ ∀ (x : ExactReal.Enclosure) (r : ℝ), Holds x r → Decided x → Nearest (ExactReal.round x) r

/-! ### The delay -/

/-- R212, R213: the delay line's recurrence over the retained and the new outputs, per channel, and what it retains. -/
def Obligations.DelayLine : Prop :=
  ∀ s : State, s.slotPc.toNat < s.slots.length → 0 < s.current.derived.k0.toNat →
    (∀ c, c < 2 → (s.current.state.delay.get c).length ≤ s.current.derived.k0.toNat) →
    ∃ t, exec .delay s = .next t ∧ DelayEffect s t

/-- R210, R211: the delay's length is the rounded product, not below the buffer size, and refused beyond the capacity. -/
def Obligations.DelayLength : Prop :=
  ∀ (b : Build) (p : SlotRegs) (g : GlobalRegs), b.Legal → p.Legal → g.Legal b →
    ∃ raw : Nat,
      IsRoundHe ((g.sampleRate.toNat : Rat) * max (Binary32.real p.p0) 1 / 1000) raw
        ∧ (b.maxDelay < max raw g.frames → derive .delay b p g = .error .delayRange)
        ∧ (max raw g.frames ≤ b.maxDelay → ∃ d, derive .delay b p g = .ok d
          ∧ Binary32.real d.e0 = max (Binary32.real p.p0) 1
          ∧ Clamped p.p1 0x00000000#32 0x3F800000#32 d.e1 ∧ d.e2 = 0#32
          ∧ d.k0.toNat = max raw g.frames ∧ d.k1 = 0#32 ∧ d.k2 = 0#32 ∧ d.k3 = 0#32 ∧ d.k4 = 0#32)

/-! ### The pitch shifter -/

/-- R252, R253, R256, R257: the pitch shifter over each active channel, and PS_OVF. RESAMPLE is a free value (log 6). -/
def Obligations.PitchShift : Prop :=
  ∀ s : State, s.slotPc.toNat < s.slots.length →
    ∀ x ∈ [(Instr.pitch, false), (.pitchWarp, true)], ∃ t, exec x.1 s = .next t ∧ PitchEffect x.2 s t

/-- R250, R251: the pitch factor is clamped to [0.5, 2.0], L is the rounded quotient, and 1 ≤ L ≤ 2F. -/
def Obligations.PitchLengths : Prop :=
  ∀ (b : Build) (p : SlotRegs) (g : GlobalRegs), b.Legal → p.Legal →
    ∀ x ∈ [(Instr.pitch, false), (.pitchWarp, true)],
      ∃ d, derive x.1 b p g = .ok d
        ∧ Binary32.real d.e0 = max (1 / 2) (min 2 (Binary32.real p.p0)) ∧ d.e1 = 0#32 ∧ d.e2 = 0#32
        ∧ IsRoundHe ((b.psFrame : Rat) / Binary32.real d.e0) d.k0.toNat
        ∧ 1 ≤ d.k0.toNat ∧ d.k0.toNat ≤ 2 * b.psFrame
        ∧ d.k1.toNat = (if x.2 then b.psFrame else d.k0.toNat) ∧ d.k2 = 0#32 ∧ d.k3 = 0#32 ∧ d.k4 = 0#32

/-- R253, R254: what RESAMPLE and warp_fit give: the length asked for, the input itself at its own length, and F samples
padded or cut at the end. -/
def Obligations.ResampleAndFit : Prop :=
  ∀ (x : List F32) (len f : Nat),
    (resample x len).length = len ∧ resample x x.length = x ∧ (warpFit x f).length = f
      ∧ ∀ n, n < f → (warpFit x f).getD n 0#32 = if n < x.length then x.getD n 0#32 else 0x00000000#32

/-- R255, R257: with warp on, from a lane as a warp-on slot leaves it, no push overflows; and where L = F the outputs are
the samples the lane owes and then the inputs, F - 1 frames late. -/
def Obligations.WarpLatency : Prop :=
  ∀ s : State, s.build.Legal → s.slotPc.toNat < s.slots.length →
    (∀ c, c < 2 → (s.current.state.pitch.get c).Lagging s.build.psFrame) →
    ∃ t, exec .pitchWarp s = .next t ∧ t.status.psOvf = s.status.psOvf
      ∧ ∀ c, c < 2 →
        ((t.slot s.slotPc.toNat).state.pitch.get c).Lagging s.build.psFrame
          ∧ (c < s.reg.channels → s.current.derived.k0.toNat = s.build.psFrame →
            t.wb.get c ++ ((t.slot s.slotPc.toNat).state.pitch.get c).owed s.build.psFrame =
              (s.current.state.pitch.get c).owed s.build.psFrame ++ s.wb.get c)

/-! ### The whole machine -/

/-- R103, R99, R61: no access of the host but a SOFT_RESET changes anything the engine sees of a run in progress. -/
def Obligations.HostCannotDisturbRun : Prop :=
  ∀ (s t : State) (x : HostOp), s.phase ≠ .idle → x.isReset = false → hostAccess x s = .next t →
    t.engineView = s.engineView

/-- R103: what the engine does next depends only on what it sees, so two runs that start from the same view go the same
way whatever the host's other registers hold. -/
def Obligations.EngineDependsOnView : Prop :=
  ∀ s s' t : State, s.phase ≠ .idle → s.engineView = s'.engineView → engineStep s = .next t →
    ∃ t', engineStep s' = .next t' ∧ t'.engineView = t.engineView

/-- R332, R61: no engine step changes a build parameter, a shadow register, INT_EN or a byte below OUT. Nor does one change
a committed register, E, K or a pending flag: the engine writes those at the commit (R57, R58, R62, R153), which in the
model is part of the RUN write and no engine step (log 10, log 14). -/
def Obligations.EngineWritesOnlyItsOwn : Prop :=
  ∀ s t : State, engineStep s = .next t →
    t.build = s.build ∧ t.shadow = s.shadow ∧ t.reg = s.reg ∧ t.intEn = s.intEn ∧ t.pendAll = s.pendAll
      ∧ t.slots.length = s.slots.length
      ∧ (∀ i, (t.slot i).shadow = (s.slot i).shadow ∧ (t.slot i).reg = (s.slot i).reg
          ∧ (t.slot i).derived = (s.slot i).derived ∧ (t.slot i).pend = (s.slot i).pend)
      ∧ ∀ a, a < 0x80000 → Memory.byteAt t.mem a = Memory.byteAt s.mem a

/-- R333, R150, R157, R158: a run ends: left alone, or polled by a `wait`, the engine is idle after at most CHAIN_LEN + 2
steps, with DONE set, REFUSED set exactly where the commit refused the run, and RUN_COUNT counted exactly where it did not.
The count is of the model's steps (log 14), and a `wait` leaves the move to the engine (log 1, log 15): R333 gives no
count. -/
def Obligations.RunEnds : Prop :=
  ∀ s : State, s.Inv → s.hostQueue = [] ∨ s.hostQueue.head? = some .wait → s.phase ≠ .idle →
    ∃ n t, n ≤ s.reg.chainLen.toNat + 2 ∧ Sys2Proof.core.run n s = .next t ∧ t.phase = .idle
      ∧ t.status.done = true ∧ t.status.refused = decide (s.verdict = .refused)
      ∧ t.runCount = if s.verdict = .refused then s.runCount else s.runCount + 1#32

/-- R11: rnd32 gives the nearest binary32, the even one of two equally near, infinity from the overflow threshold on, and
+0 for 0; it never gives NaN. R12: add32, sub32 and mul32 of finite operands are rnd32 of the exact result, a zero result
has its IEEE 754 sign, and NaN and the infinities follow IEEE 754. -/
def Obligations.RoundsToNearestEven : Prop :=
  (∀ (n : Int) (d : Nat), 0 < d →
    let r : Rat := (n : Rat) / d
    let v : F32 := Binary32.rnd32 n d
    Binary32.isNaN v = false ∧ (n = 0 → v = 0x00000000#32)
      ∧ (Binary32.isInf v = true ↔ (2 ^ 128 - 2 ^ 103 : Rat) ≤ |r|)
      ∧ (Binary32.isInf v = true → v.msb = decide (n < 0))
      ∧ (Binary32.isFinite v = true → ∀ u : F32, Binary32.isFinite u = true →
        |Binary32.real v - r| ≤ |Binary32.real u - r|
          ∧ (|Binary32.real v - r| = |Binary32.real u - r| → Binary32.real u ≠ Binary32.real v → v.toNat % 2 = 0)))
    ∧ (∀ a b : F32, Binary32.isFinite a = true → Binary32.isFinite b = true → ∀ (n : Int) (d : Nat), 0 < d →
      ((n : Rat) / d = Binary32.real a + Binary32.real b →
        Binary32.add32 a b =
          if n ≠ 0 then Binary32.rnd32 n d else if a.msb && b.msb then 0x80000000#32 else 0x00000000#32)
      ∧ ((n : Rat) / d = Binary32.real a - Binary32.real b →
        Binary32.sub32 a b =
          if n ≠ 0 then Binary32.rnd32 n d else if a.msb && !b.msb then 0x80000000#32 else 0x00000000#32)
      ∧ ((n : Rat) / d = Binary32.real a * Binary32.real b →
        Binary32.mul32 a b =
          if n ≠ 0 then Binary32.rnd32 n d else if a.msb != b.msb then 0x80000000#32 else 0x00000000#32))
    ∧ ∀ a b : F32,
      (Binary32.isNaN a = true ∨ Binary32.isNaN b = true →
        ∀ v ∈ [Binary32.add32 a b, Binary32.sub32 a b, Binary32.mul32 a b], Binary32.isNaN v = true)
      ∧ (Binary32.isInf a = true → Binary32.isFinite b = true → Binary32.add32 a b = a ∧ Binary32.sub32 a b = a)
      ∧ (Binary32.isFinite a = true → Binary32.isInf b = true →
        Binary32.add32 a b = b ∧ Binary32.sub32 a b = b ^^^ 0x80000000#32)
      ∧ (Binary32.isInf a = true → Binary32.isInf b = true →
        if a.msb = b.msb then Binary32.add32 a b = a ∧ Binary32.isNaN (Binary32.sub32 a b) = true
        else Binary32.isNaN (Binary32.add32 a b) = true ∧ Binary32.sub32 a b = a)
      ∧ (Binary32.isNaN a = false → Binary32.isNaN b = false → Binary32.isInf a = true ∨ Binary32.isInf b = true →
        if Binary32.real a * Binary32.real b = 0 then Binary32.isNaN (Binary32.mul32 a b) = true
        else Binary32.mul32 a b = if a.msb != b.msb then 0xFF800000#32 else 0x7F800000#32)
end

