-- ==== Sys2Proof/Laws/Rounding.lean ====
section
/-! SUPPORT. Laws of the binary32 arithmetic of Machine/Float.lean: round_he, the rounding of an exact fraction, the
order of patterns against the order of their values (spec/00_scope.md R10-R14). -/

open Sys2Proof Sys2Proof.Machine

namespace Sys2Proof.Binary32

/-- roundHalfEven a b is round_he of a/b (R14). -/
theorem roundHalfEven_isRoundHe (a b : Nat) (hb : 0 < b) : IsRoundHe ((a : ℚ) / b) (roundHalfEven a b) := by
  have hbq : (0:ℚ) < b := by exact_mod_cast hb
  have hdm := Nat.div_add_mod a b
  have hlt := Nat.mod_lt a hb
  have key : (a : ℚ) / b = (a / b : ℕ) + ((a % b : ℕ) : ℚ) / b := by
    have : (a : ℚ) = b * (a / b : ℕ) + (a % b : ℕ) := by exact_mod_cast hdm.symm
    field_simp; linarith
  unfold IsRoundHe roundHalfEven
  rw [key]
  generalize a / b = q at *
  generalize hr : a % b = r at *
  have hrq : (r:ℚ) / b = (r:ℚ)/b := rfl
  have h1 : 0 ≤ (r:ℚ)/b := by positivity
  have h2 : (r:ℚ)/b < 1 := by rw [div_lt_one hbq]; exact_mod_cast hlt
  simp only
  split
  · rename_i h
    have h3 : (r:ℚ)/b < 1/2 := by rw [div_lt_iff₀ hbq]; have : (2*r:ℚ) < b := by exact_mod_cast h
                                  linarith
    have e : (q:ℚ) + (r:ℚ)/b - ((q:ℕ):Int) = (r:ℚ)/b := by push_cast; ring
    rw [e, abs_of_nonneg h1]
    exact ⟨h3.le, fun h => absurd h h3.ne⟩
  · split
    · rename_i _ h
      have h3 : 1/2 < (r:ℚ)/b := by rw [lt_div_iff₀ hbq]; have : (b:ℚ) < 2*r := by exact_mod_cast h
                                    linarith
      have e : (q:ℚ) + (r:ℚ)/b - ((q+1:ℕ):Int) = (r:ℚ)/b - 1 := by push_cast; ring
      rw [e, abs_of_neg (by linarith)]
      exact ⟨by linarith, fun h => by linarith⟩
    · rename_i h h'
      have h4 : 2 * r = b := by omega
      have h3 : (r:ℚ)/b = 1/2 := by rw [div_eq_iff hbq.ne']; have : (2*r:ℚ) = b := by exact_mod_cast h4
                                    linarith
      split
      · rename_i hq
        have e : (q:ℚ) + (r:ℚ)/b - ((q:ℕ):Int) = 1/2 := by rw [h3]; push_cast; ring
        rw [e]; refine ⟨by norm_num, fun _ => by omega⟩
      · rename_i hq
        have e : (q:ℚ) + (r:ℚ)/b - ((q+1:ℕ):Int) = -(1/2) := by rw [h3]; push_cast; ring
        rw [e]; refine ⟨by norm_num, fun _ => by omega⟩

/-- No integer is nearer than round_he, and of two equally near it is the even one (R14). -/
theorem IsRoundHe.nearest {q : ℚ} {m : Int} (h : IsRoundHe q m) (k : ℤ) : |q - m| ≤ |q - k| ∧ (|q - m| = |q - k| → k ≠ m → m % 2 = 0) := by
  obtain ⟨h1, h2⟩ := h
  by_cases hk : k = m
  · subst hk; exact ⟨le_rfl, fun _ h => absurd rfl h⟩
  · have hd : (1:ℚ) ≤ |(m:ℚ) - k| := by
      have : 1 ≤ |m - k| := Int.one_le_abs (by omega)
      have : (1:ℚ) ≤ ((|m - k| : ℤ) : ℚ) := by exact_mod_cast this
      simpa using this
    have ht : |(m:ℚ) - k| ≤ |q - m| + |q - k| := by
      have := abs_sub_le (m:ℚ) q k
      rwa [abs_sub_comm (m:ℚ) q] at this
    refine ⟨by linarith, fun he _ => h2 ?_⟩
    linarith

/-- round_he keeps integer bounds. -/
theorem IsRoundHe.bounds {q : ℚ} {m k : Int} (h : IsRoundHe q m) : (q ≤ k → m ≤ k) ∧ ((k:ℚ) ≤ q → k ≤ m) := by
  have h1 := h.1
  rw [abs_le] at h1
  constructor
  · intro hq
    have : (m:ℚ) < k + 1 := by linarith
    have : m < k + 1 := by exact_mod_cast this
    omega
  · intro hq
    have : (k:ℚ) - 1 < m := by linarith
    have : k - 1 < m := by exact_mod_cast this
    omega

/-- exponent n d is the binary exponent of n/d. -/
theorem exponent_spec (n d : Nat) (hn : 0 < n) (hd : 0 < d) : (2:ℚ)^(exponent n d) ≤ (n:ℚ)/d ∧ (n:ℚ)/d < (2:ℚ)^(exponent n d + 1) := by
  have hdq : (0:ℚ) < d := by exact_mod_cast hd
  have n1 : 2 ^ Nat.log2 n ≤ n := Nat.log2_self_le (by omega)
  have n2 : n < 2 ^ (Nat.log2 n + 1) := Nat.lt_log2_self
  have d1 : 2 ^ Nat.log2 d ≤ d := Nat.log2_self_le (by omega)
  have d2 : d < 2 ^ (Nat.log2 d + 1) := Nat.lt_log2_self
  have q1 : (2:ℚ) ^ (Nat.log2 n : ℤ) ≤ n := by rw [zpow_natCast]; exact_mod_cast n1
  have q2 : (n:ℚ) < (2:ℚ) ^ (Nat.log2 n : ℤ) * 2 := by rw [zpow_natCast, ← pow_succ]; exact_mod_cast n2
  have q3 : (2:ℚ) ^ (Nat.log2 d : ℤ) ≤ d := by rw [zpow_natCast]; exact_mod_cast d1
  have q4 : (d:ℚ) < (2:ℚ) ^ (Nat.log2 d : ℤ) * 2 := by rw [zpow_natCast, ← pow_succ]; exact_mod_cast d2
  unfold exponent
  generalize (Nat.log2 n : ℤ) = a at *
  generalize (Nat.log2 d : ℤ) = b at *
  simp only
  have pa : (0:ℚ) < 2^a := by positivity
  have pb : (0:ℚ) < 2^b := by positivity
  have hab : (2:ℚ)^(a-b) * 2^b = 2^a := by rw [← zpow_add₀ (by norm_num)]; congr 1; ring
  have pab : (0:ℚ) < 2^(a-b) := by positivity
  have below : (if 0 ≤ a - b then decide (n < d * 2 ^ (a-b).toNat) else decide (n * 2 ^ (-(a-b)).toNat < d)) = true ↔ (n:ℚ) < d * 2^(a-b) := by
    split
    · rename_i h
      have : (2:ℚ)^(a-b) = ((2 ^ (a-b).toNat : ℕ) : ℚ) := by
        push_cast; rw [← zpow_natCast]; congr 1; omega
      rw [this, decide_eq_true_iff]; norm_cast
    · rename_i h
      have : (2:ℚ)^(a-b) * ((2 ^ (-(a-b)).toNat : ℕ) : ℚ) = 1 := by
        push_cast; rw [← zpow_natCast, ← zpow_add₀ (by norm_num)]; 
        have : (a - b + ((-(a-b)).toNat : ℤ)) = 0 := by omega
        rw [this]; simp
      have hp : (0:ℚ) < ((2 ^ (-(a-b)).toNat : ℕ) : ℚ) := by positivity
      rw [decide_eq_true_iff]
      rw [← mul_lt_mul_iff_left₀ hp, mul_assoc, this, mul_one]
      norm_cast
  generalize (if 0 ≤ a - b then decide (n < d * 2 ^ (a-b).toNat) else decide (n * 2 ^ (-(a-b)).toNat < d)) = B at *
  by_cases h : B = true
  · rw [if_pos h]
    rw [below] at h
    refine ⟨?_, ?_⟩
    · rw [le_div_iff₀ hdq, zpow_sub_one₀ (by norm_num)]; nlinarith
    · rw [div_lt_iff₀ hdq, sub_add_cancel]; linarith
  · rw [if_neg h]
    rw [below, not_lt] at h
    refine ⟨?_, ?_⟩
    · rw [le_div_iff₀ hdq]; linarith
    · rw [div_lt_iff₀ hdq, zpow_add_one₀ (by norm_num)]; nlinarith

/-- A power of two split in two. -/
theorem two_pow_split {a b c : Nat} (h : a = b + c) : (2:ℚ)^a = 2^b*2^c := by rw [h, pow_add]

/-- roundMag n d is the significand m, rounded half to even, at the quantum 2^(t-149), or the pattern of infinity. -/
theorem roundMag_spec (n d : Nat) (hn : 0 < n) (hd : 0 < d) :
    ∃ t m : Nat, roundMag n d = min (t * 2^23 + m) 0x7F800000
      ∧ IsRoundHe ((n:ℚ)/d * 2^149 / 2^t) m
      ∧ (n:ℚ)/d * 2^149 / 2^t < 2^24
      ∧ (t ≠ 0 → 2^23 ≤ (n:ℚ)/d * 2^149 / 2^t) ∧ (t = 0 → (n:ℚ)/d * 2^149 < 2^24) := by
  obtain ⟨e1, e2⟩ := exponent_spec n d hn hd
  refine ⟨(exponent n d + 126).toNat, if 149 ≤ (exponent n d + 126).toNat then roundHalfEven n (d * 2 ^ ((exponent n d + 126).toNat - 149)) else roundHalfEven (n * 2 ^ (149 - (exponent n d + 126).toNat)) d, by unfold roundMag; rw [if_neg (by omega)], ?_, ?_, ?_, ?_⟩
  · have hdq : (d:ℚ) ≠ 0 := by exact_mod_cast hd.ne'
    split
    · rename_i h
      have := roundHalfEven_isRoundHe n (d * 2 ^ ((exponent n d + 126).toNat - 149)) (by positivity)
      convert this using 1
      have e : (2:ℚ)^(exponent n d + 126).toNat = 2^149 * 2^((exponent n d + 126).toNat - 149) := two_pow_split (by omega)
      rw [e]; push_cast; field_simp
    · rename_i h
      have := roundHalfEven_isRoundHe (n * 2 ^ (149 - (exponent n d + 126).toNat)) d hd
      convert this using 1
      have e : (2:ℚ)^149 = 2^(exponent n d + 126).toNat * 2^(149 - (exponent n d + 126).toNat) := two_pow_split (by omega)
      rw [e]; push_cast; field_simp
  all_goals
    generalize exponent n d = e at *
    generalize (n:ℚ)/d = x at *
  · rw [div_lt_iff₀ (by positivity)]
    by_cases h : 0 ≤ e + 126
    · have : (2:ℚ)^24 * 2^(e+126).toNat = 2^(e+1) * 2^149 := by
        rw [← zpow_natCast, ← zpow_natCast, ← zpow_natCast, ← zpow_add₀ (by norm_num), ← zpow_add₀ (by norm_num)]; congr 1; push_cast; omega
      rw [this]; nlinarith
    · have h0 : (e+126).toNat = 0 := by omega
      rw [h0]
      have : (2:ℚ)^(e+1) ≤ 2^(-126:Int) := zpow_le_zpow_right₀ (by norm_num) (by omega)
      have h3 : (2:ℚ)^(-126:Int) * 2^149 = 2^23 := by
        rw [← zpow_natCast, ← zpow_natCast, ← zpow_add₀ (by norm_num)]; rfl
      nlinarith
  · intro h
    rw [le_div_iff₀ (by positivity)]
    have : (2:ℚ)^23 * 2^(e+126).toNat = 2^e * 2^149 := by
        rw [← zpow_natCast, ← zpow_natCast, ← zpow_natCast, ← zpow_add₀ (by norm_num), ← zpow_add₀ (by norm_num)]; congr 1; push_cast; omega
    rw [this]; nlinarith
  · intro h
    have : (2:ℚ)^(e+1) ≤ 2^(-125:Int) := zpow_le_zpow_right₀ (by norm_num) (by omega)
    have h3 : (2:ℚ)^(-125:Int) * 2^149 = 2^24 := by
        rw [← zpow_natCast, ← zpow_natCast, ← zpow_add₀ (by norm_num)]; rfl
    nlinarith

/-- The exact value of the pattern with quantum t and significand m. -/
theorem magUnits_form (t m : Nat) (h : t = 0 ∧ m ≤ 2^24 ∨ 2^23 ≤ m ∧ m ≤ 2^24) : magUnits (t * 2^23 + m) = m * 2^t := by
  unfold magUnits
  simp only
  by_cases h0 : t * 2^23 + m < 2^23
  · have ht : t = 0 := by omega
    subst ht
    rw [Nat.div_eq_of_lt h0, if_pos rfl, Nat.mod_eq_of_lt h0]; simp
  · by_cases hm : m < 2^24
    · by_cases hm2 : m < 2^23
      · omega
      · have e1 : (t * 2^23 + m) / 2^23 = t + 1 := by omega
        have e2 : (t * 2^23 + m) % 2^23 = m - 2^23 := by omega
        have e3 : 2^23 + (m - 2^23) = m := by omega
        rw [e1, e2, if_neg (by omega), e3, Nat.add_sub_cancel]
    · have hm : m = 2^24 := by omega
      subst hm
      have e1 : (t * 2^23 + 2^24) / 2^23 = t + 2 := by omega
      have e2 : (t * 2^23 + 2^24) % 2^23 = 0 := by omega
      rw [e1, e2, if_neg (by omega)]
      rw [show t + 2 - 1 = t + 1 by omega, pow_succ]; ring

/-- A magnitude is a multiple of a quantum or lies below 2^23 of it. -/
theorem magUnits_grid (k t : Nat) : (∃ j, magUnits k = j * 2^t) ∨ (magUnits k < 2^23 * 2^t) := by
  unfold magUnits; simp only
  have hf : k % 2^23 < 2^23 := Nat.mod_lt _ (by positivity)
  split
  · right
    have : 1 ≤ 2^t := Nat.one_le_two_pow
    nlinarith
  · rename_i he
    by_cases h : t ≤ k / 2^23 - 1
    · left
      refine ⟨(2^23 + k % 2^23) * 2^(k/2^23 - 1 - t), ?_⟩
      rw [mul_assoc, ← pow_add]; congr 2; omega
    · right
      have : 2^(k/2^23-1) * 2 ≤ 2^t := by rw [← pow_succ]; exact Nat.pow_le_pow_right (by omega) (by omega)
      have h2 : 0 < 2^(k/2^23-1) := by positivity
      nlinarith

/-- The finite magnitudes lie below 2^277 units. -/
theorem magUnits_lt {k : Nat} (h : k < 0x7F800000) : magUnits k < 2^24 * 2^253 := by
  unfold magUnits; simp only
  have hf : k % 2^23 < 2^23 := Nat.mod_lt _ (by positivity)
  split
  · have : (1:ℕ) ≤ 2^253 := Nat.one_le_two_pow
    nlinarith
  · have : 2^(k/2^23-1) ≤ 2^253 := Nat.pow_le_pow_right (by omega) (by omega)
    exact Nat.mul_lt_mul_of_lt_of_le (by omega) this (by positivity)

/-- The next magnitude pattern is a greater value. -/
theorem magUnits_succ (k : Nat) : magUnits k < magUnits (k+1) := by
  have h : ∃ t m, k = t * 2^23 + m ∧ (t = 0 ∧ m < 2^24 ∨ 2^23 ≤ m ∧ m < 2^24) := by
    by_cases h : k < 2^24
    · exact ⟨0, k, by omega, .inl ⟨rfl, h⟩⟩
    · exact ⟨k / 2^23 - 1, k - (k/2^23-1) * 2^23, by omega, .inr ⟨by omega, by omega⟩⟩
  obtain ⟨t, m, rfl, hm⟩ := h
  rw [magUnits_form t m (by omega), show t * 2^23 + m + 1 = t * 2^23 + (m+1) by omega, magUnits_form t (m+1) (by omega)]
  have : 0 < 2^t := by positivity
  nlinarith

/-- Magnitude patterns are ordered as their values. -/
theorem magUnits_strictMono : StrictMono magUnits := strictMono_nat_of_lt_succ magUnits_succ

/-- Only the zero pattern has magnitude zero. -/
theorem magUnits_eq_zero {k : Nat} : magUnits k = 0 ↔ k = 0 := by
  have h0 : magUnits 0 = 0 := rfl
  constructor
  · intro h; exact magUnits_strictMono.injective (h.trans h0.symm)
  · rintro rfl; exact h0

/-- No magnitude is nearer n/d than the rounded one, and of two equally near it is the even one. -/
theorem roundMag_near (n d : Nat) (hn : 0 < n) (hd : 0 < d) (hfin : roundMag n d < 0x7F800000) (k : Nat) :
    |(n:ℚ)/d * 2^149 - magUnits (roundMag n d)| ≤ |(n:ℚ)/d * 2^149 - magUnits k|
    ∧ (|(n:ℚ)/d * 2^149 - magUnits (roundMag n d)| = |(n:ℚ)/d * 2^149 - magUnits k| → magUnits k ≠ magUnits (roundMag n d) → roundMag n d % 2 = 0) := by
  obtain ⟨t, m, h1, h2, h3, h4, h5⟩ := roundMag_spec n d hn hd
  rw [h1] at hfin
  have hmin : roundMag n d = t * 2^23 + m := by rw [h1]; omega
  have hm24 : m ≤ 2^24 := by
    have := h2.1
    rw [abs_le] at this
    have : (m:ℚ) < 2^24 + 1 := by push_cast at *; linarith
    have : m < 2^24 + 1 := by exact_mod_cast this
    omega
  have hform : t = 0 ∧ m ≤ 2^24 ∨ 2^23 ≤ m ∧ m ≤ 2^24 := by
    by_cases ht : t = 0
    · exact .inl ⟨ht, hm24⟩
    · right
      refine ⟨?_, hm24⟩
      have := (IsRoundHe.nearest h2 (2^23)).1
      have hge := h4 ht
      by_contra hc
      have hlt : (m:ℚ) ≤ 2^23 - 1 := by
        have : m + 1 ≤ 2^23 := by omega
        have : ((m + 1 : ℕ):ℚ) ≤ 2^23 := by exact_mod_cast this
        push_cast at this; linarith
      push_cast at this
      rw [abs_of_nonneg (by linarith), abs_of_nonneg (by linarith)] at this
      linarith
  have hmu : magUnits (roundMag n d) = m * 2^t := by rw [hmin]; exact magUnits_form t m hform
  have hpos : (0:ℚ) < 2^t := by positivity
  have hpar : roundMag n d % 2 = m % 2 := by rw [hmin]; omega
  rw [hmu, hpar]
  generalize hU : (n:ℚ)/d * 2^149 = U at *
  have scale : ∀ j : Int, |U - (j:ℚ) * 2^t| = |U / 2^t - j| * 2^t := by
    intro j
    rw [← abs_of_pos hpos, ← abs_mul, abs_of_pos hpos]
    congr 1; field_simp
  have sm := scale m
  push_cast at *
  rw [sm]
  rcases magUnits_grid k t with ⟨j, hj⟩ | hlt
  · have sj := scale j
    have := IsRoundHe.nearest h2 j
    push_cast at *
    rw [hj]; push_cast; rw [sj]
    refine ⟨by nlinarith [this.1], fun he hne => ?_⟩
    have he' : |U / 2^t - m| = |U / 2^t - j| := mul_right_cancel₀ hpos.ne' he
    have := this.2 he' (by rintro h; apply hne; have : j = m := by exact_mod_cast h
                           rw [this])
    omega
  · by_cases ht : t = 0
    · subst ht
      have sj := scale (magUnits k)
      have := IsRoundHe.nearest h2 (magUnits k)
      push_cast at *
      simp only [pow_zero, mul_one] at *
      rw [sj]
      refine ⟨this.1, fun he hne => ?_⟩
      have := this.2 he (by intro h; apply hne; exact_mod_cast h)
      omega
    · have hge := h4 ht
      have hk : (magUnits k : ℚ) < 2^23 * 2^t := by exact_mod_cast hlt
      have hUge : 2^23 * 2^t ≤ U := by rwa [le_div_iff₀ hpos] at hge
      have := (IsRoundHe.nearest h2 (2^23)).1
      have s23 := scale (2^23)
      push_cast at *
      have e1 : |U - 2^23*2^t| = U - 2^23 * 2^t := abs_of_nonneg (by linarith)
      have e2 : |U - magUnits k| = U - magUnits k := abs_of_nonneg (by linarith)
      have : |U / 2 ^ t - ↑m| * 2^t ≤ |U / 2 ^ t - 8388608| * 2^t := by nlinarith
      rw [← s23] at this
      have hh : (8388608:ℚ) = 2^23 := by norm_num
      rw [hh, e1] at this
      rw [e2]
      refine ⟨by linarith, fun he _ => by linarith⟩

/-- Rounding gives infinity from the overflow threshold on (R11). -/
theorem roundMag_inf (n d : Nat) (hn : 0 < n) (hd : 0 < d) : roundMag n d = 0x7F800000 ↔ (2^128 - 2^103 : ℚ) ≤ (n:ℚ)/d := by
  obtain ⟨t, m, h1, h2, h3, h4, h5⟩ := roundMag_spec n d hn hd
  have hm24 : m ≤ 2^24 := by
    have := h2.1
    rw [abs_le] at this
    have : (m:ℚ) < 2^24 + 1 := by push_cast at *; linarith
    have : m < 2^24 + 1 := by exact_mod_cast this
    omega
  have hUx : (2^128 - 2^103 : ℚ) ≤ (n:ℚ)/d ↔ (2^24 - 1/2 : ℚ) * 2^253 ≤ (n:ℚ)/d * 2^149 := by
    constructor <;> intro h <;> linarith
  rw [hUx, h1]
  generalize (n:ℚ)/d * 2^149 = U at *
  have hpos : (0:ℚ) < 2^t := by positivity
  have hlt : U < 2^24 * 2^t := by rwa [div_lt_iff₀ hpos] at h3
  have hm23 : t ≠ 0 → 2^23 ≤ m := by
    intro ht
    have := (IsRoundHe.nearest h2 (2^23)).1
    have hge := h4 ht
    by_contra hc
    have hlt : (m:ℚ) ≤ 2^23 - 1 := by
        have : m + 1 ≤ 2^23 := by omega
        have : ((m + 1 : ℕ):ℚ) ≤ 2^23 := by exact_mod_cast this
        push_cast at this; linarith
    push_cast at this
    rw [abs_of_nonneg (by linarith), abs_of_nonneg (by linarith)] at this
    linarith
  rcases lt_trichotomy t 253 with ht | ht | ht
  · have h253 : (2:ℚ)^t * 2 ≤ 2^253 := by rw [← pow_succ]; exact pow_le_pow_right₀ (by norm_num) (by omega)
    constructor
    · intro h; omega
    · intro h; exfalso; nlinarith
  · subst ht
    constructor
    · intro h
      have hm : m = 2^24 := by omega
      have := h2.1
      rw [hm, abs_le] at this
      push_cast at this
      have := this.1
      have : (2^24 - 1/2 : ℚ) ≤ U / 2^253 := by linarith
      rwa [le_div_iff₀ hpos] at this
    · intro h
      have hq : (2^24 - 1/2 : ℚ) ≤ U / 2^253 := by rwa [le_div_iff₀ hpos]
      have : m = 2^24 := by
        by_contra hc
        have hle : m ≤ 2^24 - 1 := by omega
        have hle' : (m:ℚ) ≤ 2^24 - 1 := by
          have : m + 1 ≤ 2^24 := by omega
          have : ((m + 1 : ℕ):ℚ) ≤ 2^24 := by exact_mod_cast this
          push_cast at this; linarith
        have hab := h2.1
        push_cast at hab
        rw [abs_of_nonneg (by linarith)] at hab
        have he : U / 2^253 = 2^24 - 1/2 := by linarith
        have hme : (m:ℚ) = 2^24 - 1 := by linarith
        have hmn : m = 2^24 - 1 := by
          have : (m:ℚ) + 1 = 2^24 := by linarith
          have : m + 1 = 2^24 := by exact_mod_cast this
          omega
        have hev := h2.2 (by push_cast; rw [he, hme]; norm_num)
        rw [hmn] at hev
        norm_num at hev
      omega
  · have := hm23 (by omega)
    have h254 : (2:ℚ)^254 ≤ 2^t := pow_le_pow_right₀ (by norm_num) (by omega)
    have hge := h4 (by omega)
    rw [le_div_iff₀ hpos] at hge
    constructor
    · intro _; nlinarith
    · intro _; omega

/-- pack is undone by mag and sign. -/
theorem mag_pack (neg : Bool) (m : Nat) (h : m < 2^31) : mag (pack neg m) = m ∧ sign (pack neg m) = neg := by
  unfold mag sign pack
  have : (BitVec.ofNat 32 ((if neg then 2^31 else 0) + m)).toNat = (if neg then 2^31 else 0) + m := by
    rw [BitVec.toNat_ofNat, Nat.mod_eq_of_lt]; split <;> omega
  rw [BitVec.msb_eq_decide, this]
  cases neg <;> simp <;> omega

/-- A pattern is the pack of its sign and magnitude. -/
theorem pack_sign_mag (v : F32) : pack (sign v) (mag v) = v := by
  apply BitVec.eq_of_toNat_eq
  have hv := v.isLt
  have hd := Nat.div_add_mod v.toNat (2 ^ 31)
  have hm := Nat.mod_lt v.toNat (show 0 < 2 ^ 31 by norm_num)
  unfold pack sign mag
  rw [BitVec.toNat_ofNat, BitVec.msb_eq_decide]
  by_cases h : 2 ^ (32 - 1) ≤ v.toNat
  · rw [if_pos (by simpa using h), Nat.mod_eq_of_lt] <;> omega
  · rw [if_neg (by simpa using h), Nat.mod_eq_of_lt] <;> omega

/-- A rounded magnitude is never a NaN pattern. -/
theorem roundMag_le (n d : Nat) : roundMag n d ≤ 0x7F800000 := by
  unfold roundMag; split <;> simp

/-- A representable magnitude rounds to itself. -/
theorem roundMag_exact (k N D : Nat) (hk : k < 0x7F800000) (hD : 0 < D) (h : N * 2^149 = magUnits k * D) : roundMag N D = k := by
  by_cases h0 : N = 0
  · subst h0
    have : magUnits k * D = 0 := by rw [← h, Nat.zero_mul]
    have : magUnits k = 0 := (Nat.mul_eq_zero.mp this).resolve_right hD.ne'
    rw [magUnits_eq_zero.mp this]; rfl
  · have hDq : (0:ℚ) < D := by exact_mod_cast hD
    have hv : (N:ℚ)/D * 2^149 = magUnits k := by
      have : (N:ℚ) * 2^149 = magUnits k * D := by exact_mod_cast h
      field_simp; linarith
    have hfin : roundMag N D < 0x7F800000 := by
      have hle := roundMag_le N D
      have := roundMag_inf N D (by omega) hD
      by_contra hc
      have := this.mp (by omega)
      have h2 : (magUnits k : ℚ) ≤ (2^24 - 1) * 2^253 := by
        have hm := magUnits_strictMono.monotone (show k ≤ 0x7F7FFFFF by omega)
        have : magUnits 0x7F7FFFFF = (2^24-1) * 2^253 := by
          have := magUnits_form 253 (2^24-1) (by omega)
          rw [← this]; norm_num
        rw [this] at hm
        have : ((magUnits k : ℕ):ℚ) ≤ (((2^24-1) * 2^253 : ℕ) : ℚ) := by exact_mod_cast hm
        push_cast at this
        linarith
      rw [← hv] at h2
      linarith
    have := (roundMag_near N D (by omega) hD hfin k).1
    rw [hv, sub_self, abs_zero] at this
    have := abs_eq_zero.mp (le_antisymm this (abs_nonneg _))
    have : (magUnits k : ℚ) = magUnits (roundMag N D) := by linarith
    have : magUnits k = magUnits (roundMag N D) := by exact_mod_cast this
    exact (magUnits_strictMono.injective this).symm

/-- real v in units of 2^-149. -/
theorem real_eq (v : F32) : real v = (units v : ℚ) / 2^149 := by
  unfold real; rw [Rat.mkRat_eq_div]; norm_cast

/-- The IEEE order key orders patterns as their values. -/
theorem key_lt_iff (a b : F32) : key a < key b ↔ units a < units b := by
  have h1 := (magUnits_strictMono.lt_iff_lt (a := mag a) (b := mag b))
  have h2 := (magUnits_strictMono.lt_iff_lt (a := mag b) (b := mag a))
  have ha := magUnits_eq_zero (k := mag a)
  have hb := magUnits_eq_zero (k := mag b)
  unfold key units
  cases sign a <;> cases sign b <;> simp <;> omega

/-- A finite pattern is not NaN. -/
theorem not_isNaN_of_isFinite {a : F32} (h : isFinite a = true) : isNaN a = false := by
  simp [isFinite, isNaN] at *; omega

/-- lt32 of two patterns that are not NaN compares the exact values (R13). -/
theorem lt32_iff {a b : F32} (ha : isNaN a = false) (hb : isNaN b = false) : lt32 a b = true ↔ real a < real b := by
  rw [real_eq, real_eq, div_lt_div_iff_of_pos_right (by positivity), Int.cast_lt, ← key_lt_iff]
  simp [lt32, ha, hb]

/-- Two patterns of one value are equal or both zeros. -/
theorem eq_of_real_eq {a b : F32} (h : real a = real b) : a = b ∨ (mag a = 0 ∧ mag b = 0) := by
  rw [real_eq, real_eq, div_left_inj' (by positivity), Int.cast_inj] at h
  have hi := magUnits_strictMono.injective
  have ha := magUnits_eq_zero (k := mag a)
  have hb := magUnits_eq_zero (k := mag b)
  have hm : mag a = mag b ∧ (sign a = sign b ∨ mag a = 0) := by
    unfold units at h
    cases hsa : sign a <;> cases hsb : sign b <;> simp [hsa, hsb] at h
    · exact ⟨hi (by exact_mod_cast h), .inl rfl⟩
    · have : magUnits (mag a) = 0 ∧ magUnits (mag b) = 0 := by omega
      exact ⟨by rw [ha.mp this.1, hb.mp this.2], .inr (ha.mp this.1)⟩
    · have : magUnits (mag a) = 0 ∧ magUnits (mag b) = 0 := by omega
      exact ⟨by rw [ha.mp this.1, hb.mp this.2], .inr (ha.mp this.1)⟩
    · exact ⟨hi (by exact_mod_cast h), .inl rfl⟩
  rcases hm.2 with hs | h0
  · left
    apply BitVec.eq_of_toNat_eq
    have hm := hm.1
    unfold mag at hm
    unfold sign at hs
    rw [BitVec.msb_eq_decide, BitVec.msb_eq_decide] at hs
    have := a.isLt; have := b.isLt
    have hs' : (2^31 ≤ a.toNat) ↔ (2^31 ≤ b.toNat) := by simpa using hs
    omega
  · right; exact ⟨h0, hm.1 ▸ h0⟩

/-- max of R13 on finite patterns is the maximum of the values. -/
theorem real_max32 (a b : F32) (ha : isFinite a = true) (hb : isFinite b = true) : real (max32 a b) = max (real a) (real b) := by
  unfold max32
  split
  · rename_i h; rw [lt32_iff (not_isNaN_of_isFinite ha) (not_isNaN_of_isFinite hb)] at h; rw [max_eq_right h.le]
  · rename_i h; rw [lt32_iff (not_isNaN_of_isFinite ha) (not_isNaN_of_isFinite hb), not_lt] at h; rw [max_eq_left h]

/-- Integer division toward zero is trunc of the quotient (R14). -/
theorem tdiv_eq_truncRat (a : ℤ) (b : ℕ) (hb : 0 < b) : a.tdiv b = truncRat ((a:ℚ)/b) := by
  have hbq : (0:ℚ) < b := by exact_mod_cast hb
  unfold truncRat
  split
  · rename_i h
    have ha : 0 ≤ a := by
      have : (0:ℚ) ≤ a := by rwa [le_div_iff₀ hbq, zero_mul] at h
      exact_mod_cast this
    rw [Int.tdiv_eq_ediv_of_nonneg ha, Rat.floor_intCast_div_natCast]
  · rename_i h
    have ha : a < 0 := by
      rw [not_le, div_lt_iff₀ hbq, zero_mul] at h
      exact_mod_cast h
    have : (⌈(a:ℚ)/b⌉ : ℤ) = -⌊((-a : ℤ):ℚ)/b⌋ := by
      rw [← Int.ceil_neg]; congr 1; push_cast; ring
    rw [this, Rat.floor_intCast_div_natCast, ← Int.tdiv_eq_ediv_of_nonneg (by omega), Int.neg_tdiv, neg_neg]

/-- round_he is unique. -/
theorem IsRoundHe.unique {q : ℚ} {m k : Int} (h : IsRoundHe q m) (h' : IsRoundHe q k) : m = k := by
  by_contra hne
  have h1 := IsRoundHe.nearest h k
  have h2 := IsRoundHe.nearest h' m
  have he : |q - m| = |q - k| := le_antisymm h1.1 h2.1
  have e1 := h1.2 he (fun e => hne e.symm)
  have e2 := h2.2 he.symm hne
  have hd : |(m:ℚ) - k| ≤ 1 := by
    have := abs_sub_le (m:ℚ) q k
    rw [abs_sub_comm (m:ℚ) q] at this
    linarith [h.1, h'.1]
  have : |m - k| ≤ 1 := by exact_mod_cast hd
  rw [abs_le] at this
  omega

/-- The binary exponent of n/d depends on the quotient alone. -/
theorem exponent_congr {n d n' d' : Nat} (hn : 0 < n) (hd : 0 < d) (hn' : 0 < n') (hd' : 0 < d')
    (h : (n : ℚ) / d = (n' : ℚ) / d') : exponent n d = exponent n' d' := by
  obtain ⟨a1, a2⟩ := exponent_spec n d hn hd
  obtain ⟨b1, b2⟩ := exponent_spec n' d' hn' hd'
  rw [h] at a1 a2
  have h1 : exponent n d < exponent n' d' + 1 := (zpow_lt_zpow_iff_right₀ (by norm_num : (1:ℚ) < 2)).mp (a1.trans_lt b2)
  have h2 : exponent n' d' < exponent n d + 1 := (zpow_lt_zpow_iff_right₀ (by norm_num : (1:ℚ) < 2)).mp (b1.trans_lt a2)
  omega

/-- Rounding depends on the quotient alone. -/
theorem roundMag_congr {n d n' d' : Nat} (hd : 0 < d) (hd' : 0 < d') (h : (n : ℚ) / d = (n' : ℚ) / d') :
    roundMag n d = roundMag n' d' := by
  have hdq : (0:ℚ) < d := by exact_mod_cast hd
  have hdq' : (0:ℚ) < d' := by exact_mod_cast hd'
  rcases Nat.eq_zero_or_pos n with h0 | hn
  · subst h0
    rw [Nat.cast_zero, zero_div] at h
    have : (n':ℚ) = 0 := (div_eq_zero_iff.mp h.symm).resolve_right hdq'.ne'
    have : n' = 0 := by exact_mod_cast this
    subst this; unfold roundMag; rw [if_pos rfl, if_pos rfl]
  have hn' : 0 < n' := by
    rcases Nat.eq_zero_or_pos n' with h0 | h1
    · subst h0
      rw [Nat.cast_zero, zero_div] at h
      have : (n:ℚ) = 0 := (div_eq_zero_iff.mp h).resolve_right hdq.ne'
      have : n = 0 := by exact_mod_cast this
      omega
    · exact h1
  unfold roundMag
  rw [if_neg (by omega), if_neg (by omega), exponent_congr hn hd hn' hd' h]
  generalize (exponent n' d' + 126).toNat = t
  refine congrArg (fun m => min (t * 2 ^ 23 + m) 0x7F800000) ?_
  have key : ∀ m k : ℕ, ∀ q : ℚ, IsRoundHe q m → IsRoundHe q k → m = k := by
    intro m k q h1 h2; exact_mod_cast IsRoundHe.unique h1 h2
  split
  · have r1 := roundHalfEven_isRoundHe n (d * 2 ^ (t - 149)) (by positivity)
    have r2 := roundHalfEven_isRoundHe n' (d' * 2 ^ (t - 149)) (by positivity)
    refine key _ _ _ r1 ?_
    convert r2 using 1
    push_cast
    rw [← div_div, ← div_div, h]
  · have r1 := roundHalfEven_isRoundHe (n * 2 ^ (149 - t)) d hd
    have r2 := roundHalfEven_isRoundHe (n' * 2 ^ (149 - t)) d' hd'
    refine key _ _ _ r1 ?_
    convert r2 using 1
    push_cast
    rw [mul_div_right_comm, mul_div_right_comm, h]

/-- rnd32 depends on the quotient alone. -/
theorem rnd32_eq_rnd32Rat (n : Int) (d : Nat) (hd : 0 < d) : rnd32 n d = rnd32Rat ((n : ℚ) / d) := by
  have hdq : (0:ℚ) < d := by exact_mod_cast hd
  have hr : (n : ℚ) / d = ((n:ℚ)/d).num / (((n:ℚ)/d).den : ℚ) := (Rat.num_div_den _).symm
  have hden := ((n:ℚ)/d).den_pos
  have hdenq : (0:ℚ) < ((n:ℚ)/d).den := by exact_mod_cast hden
  unfold rnd32Rat rnd32
  congr 1
  · have : (n < 0) ↔ (((n:ℚ)/d).num < 0) := by
      rw [Rat.num_neg, div_lt_iff₀ hdq, zero_mul]; norm_cast
    simp [this]
  · refine roundMag_congr hd hden ?_
    have := congrArg abs hr
    rw [abs_div, abs_div, abs_of_pos hdq, abs_of_pos hdenq] at this
    rw [Nat.cast_natAbs, Nat.cast_natAbs]
    exact_mod_cast this

/-- rnd32 of a rational is infinite from the overflow threshold on (R11). -/
theorem isInf_rnd32Rat (r : ℚ) : isInf (rnd32Rat r) = true ↔ (2 ^ 128 - 2 ^ 103 : ℚ) ≤ |r| := by
  have hd : (0:ℚ) < r.den := by exact_mod_cast r.den_pos
  have hr : |r| = (r.num.natAbs : ℚ) / r.den := by
    conv_lhs => rw [← Rat.num_div_den r]
    rw [abs_div, abs_of_pos hd, Nat.cast_natAbs]; push_cast; rfl
  unfold rnd32Rat rnd32 isInf
  rw [(mag_pack _ _ ((roundMag_le _ _).trans_lt (by norm_num))).1, beq_iff_eq]
  rcases Nat.eq_zero_or_pos r.num.natAbs with h0 | h0
  · have e : roundMag r.num.natAbs r.den = 0 := by unfold roundMag; rw [if_pos h0]
    rw [e, hr, h0]
    norm_num
  · rw [roundMag_inf _ _ h0 r.den_pos, hr]

/-- A rational very near 1 rounds to 1.0. -/
theorem rnd32Rat_near_one (r : ℚ) (h : |r - 1| ≤ 1 / 2 ^ 100) : rnd32Rat r = one := by
  have hd : (0:ℚ) < r.den := by exact_mod_cast r.den_pos
  have hb := abs_le.mp h
  have hpos : 0 < r := by norm_num at hb; linarith [hb.1]
  have hn : 0 < r.num := Rat.num_pos.mpr hpos
  have hr : (r.num.natAbs : ℚ) / r.den = r := by
    rw [Nat.cast_natAbs, abs_of_pos hn]; exact Rat.num_div_den r
  have hfin : roundMag r.num.natAbs r.den < 0x7F800000 := by
    refine lt_of_le_of_ne (roundMag_le _ _) (fun hc => ?_)
    rw [roundMag_inf _ _ (by omega) r.den_pos, hr] at hc
    norm_num at hc hb; linarith [hb.2]
  have near := (roundMag_near _ _ (by omega) r.den_pos hfin 0x3F800000).1
  have m0 : magUnits 0x3F800000 = 2 ^ 149 := by decide +kernel
  have mm : magUnits 0x3F7FFFFF = 16777215 * 2 ^ 125 := by decide +kernel
  have mp : magUnits 0x3F800001 = 2 ^ 149 + 2 ^ 126 := by decide +kernel
  rw [hr, m0] at near
  have e : r * 2 ^ 149 - ((2 ^ 149 : ℕ) : ℚ) = (r - 1) * 2 ^ 149 := by push_cast; ring
  have h49 : |r * 2 ^ 149 - ((2 ^ 149 : ℕ) : ℚ)| ≤ 2 ^ 49 := by
    rw [e, abs_mul]
    have : |(2:ℚ)^149| = 2^149 := abs_of_pos (by positivity)
    rw [this]
    calc |r - 1| * 2 ^ 149 ≤ 1 / 2 ^ 100 * 2 ^ 149 := mul_le_mul_of_nonneg_right h (by positivity)
      _ = 2 ^ 49 := by norm_num
  have hk : roundMag r.num.natAbs r.den = 0x3F800000 := by
    generalize roundMag r.num.natAbs r.den = k at *
    have n2 := abs_le.mp (near.trans h49)
    have n3 := abs_le.mp h49
    push_cast at n2 n3
    by_contra hc
    rcases Nat.lt_or_gt_of_ne hc with hlt | hgt
    · have := magUnits_strictMono.monotone (show k ≤ 0x3F7FFFFF by omega)
      rw [mm] at this
      have : (magUnits k : ℚ) ≤ ((16777215 * 2 ^ 125 : ℕ) : ℚ) := by exact_mod_cast this
      push_cast at this
      linarith [n2.1, n2.2, n3.1, n3.2]
    · have := magUnits_strictMono.monotone (show 0x3F800001 ≤ k by omega)
      rw [mp] at this
      have : ((2 ^ 149 + 2 ^ 126 : ℕ) : ℚ) ≤ (magUnits k : ℚ) := by exact_mod_cast this
      push_cast at this
      linarith [n2.1, n2.2, n3.1, n3.2]
  unfold rnd32Rat rnd32
  rw [hk, decide_eq_false (not_lt.mpr hn.le)]; rfl

end Sys2Proof.Binary32
end

