-- ==== Sys2Proof/Laws/Exact.lean ====
section
/-! SUPPORT. Laws of the enclosures of Machine/Exact.lean: each interval operation holds the result of the reals its
operands hold, and the bounds of the series for sine and cosine (spec/00_scope.md R15, spec/41_filter.md R182). -/

open Sys2Proof Sys2Proof.Machine

namespace Sys2Proof.ExactReal

/-! ### Interval arithmetic -/

theorem holds_point (r : ℚ) : Holds (point r) r := ⟨le_rfl, le_rfl⟩

theorem holds_add {a b : Enclosure} {x y : ℝ} (ha : Holds a x) (hb : Holds b y) : Holds (add a b) (x + y) := by
  obtain ⟨a1, a2⟩ := ha
  obtain ⟨b1, b2⟩ := hb
  constructor <;> simp only [add] <;> push_cast <;> linarith

theorem holds_neg {a : Enclosure} {x : ℝ} (ha : Holds a x) : Holds (neg a) (-x) := by
  obtain ⟨a1, a2⟩ := ha
  constructor <;> simp only [neg] <;> push_cast <;> linarith

theorem holds_sub {a b : Enclosure} {x y : ℝ} (ha : Holds a x) (hb : Holds b y) : Holds (sub a b) (x - y) := by
  rw [sub_eq_add_neg]; exact holds_add ha (holds_neg hb)

/-- A product with one factor between two ends lies between the products with the ends. -/
theorem mul_between {l h x c : ℝ} (h1 : l ≤ x) (h2 : x ≤ h) : min (l * c) (h * c) ≤ x * c ∧ x * c ≤ max (l * c) (h * c) := by
  rcases le_total 0 c with hc | hc
  · exact ⟨(min_le_left _ _).trans (mul_le_mul_of_nonneg_right h1 hc),
      (mul_le_mul_of_nonneg_right h2 hc).trans (le_max_right _ _)⟩
  · exact ⟨(min_le_right _ _).trans (mul_le_mul_of_nonpos_right h2 hc),
      (mul_le_mul_of_nonpos_right h1 hc).trans (le_max_left _ _)⟩

theorem holds_mul {a b : Enclosure} {x y : ℝ} (ha : Holds a x) (hb : Holds b y) : Holds (mul a b) (x * y) := by
  obtain ⟨l1, u1⟩ := mul_between (c := y) ha.1 ha.2
  obtain ⟨l2, u2⟩ := mul_between (c := (a.lo : ℝ)) hb.1 hb.2
  obtain ⟨l3, u3⟩ := mul_between (c := (a.hi : ℝ)) hb.1 hb.2
  rw [mul_comm y, mul_comm (b.lo : ℝ), mul_comm (b.hi : ℝ)] at l2 u2 l3 u3
  constructor <;> simp only [mul] <;> push_cast
  · exact (min_le_min l2 l3).trans l1
  · exact u1.trans (max_le_max u2 u3)

theorem holds_scale {c : ℚ} {a : Enclosure} {x : ℝ} (ha : Holds a x) : Holds (scale c a) (c * x) :=
  holds_mul (holds_point c) ha

theorem holds_onePlus {a : Enclosure} {x : ℝ} (ha : Holds a x) : Holds (onePlus a) (1 + x) := by
  have := holds_add (holds_point 1) ha; rwa [Rat.cast_one] at this

theorem holds_oneMinus {a : Enclosure} {x : ℝ} (ha : Holds a x) : Holds (oneMinus a) (1 - x) := by
  have := holds_sub (holds_point 1) ha; rwa [Rat.cast_one] at this

/-- sqrtDigits finds the digits of the root below bit k. -/
theorem sqrtDigits_spec (n : ℕ) : ∀ k acc : ℕ, acc * acc ≤ n → n < (acc + 2 ^ k) * (acc + 2 ^ k) →
    sqrtDigits n k acc * sqrtDigits n k acc ≤ n ∧ n < (sqrtDigits n k acc + 1) * (sqrtDigits n k acc + 1)
  | 0, _, h1, h2 => ⟨h1, h2⟩
  | k + 1, acc, h1, h2 => by
    rw [sqrtDigits]
    split
    · rename_i h
      exact sqrtDigits_spec n k _ h (by rwa [pow_succ, mul_two, ← add_assoc] at h2)
    · rename_i h
      exact sqrtDigits_spec n k _ h1 (not_le.mp h)

/-- natSqrt is the floor of the square root. -/
theorem natSqrt_spec (n : ℕ) : natSqrt n * natSqrt n ≤ n ∧ n < (natSqrt n + 1) * (natSqrt n + 1) := by
  refine sqrtDigits_spec n _ 0 (by simp) ?_
  rw [Nat.zero_add, ← pow_add]
  exact Nat.lt_log2_self.trans_le (Nat.pow_le_pow_right (by norm_num) (by omega))

theorem holds_sqrt {a : Enclosure} {x : ℝ} (ha : Holds a x) : Holds (sqrt a) √x := by
  have key (p : ℕ) (r : ℚ) :
      ((mkRat (natSqrt (r.num.toNat * 2 ^ (2 * p) / r.den)) (2 ^ p) : ℚ) : ℝ) ≤ √r
        ∧ √r ≤ ((mkRat (natSqrt (r.num.toNat * 2 ^ (2 * p) / r.den) + 1 : ℕ) (2 ^ p) : ℚ) : ℝ) := by
    obtain ⟨h1, h2⟩ := natSqrt_spec (r.num.toNat * 2 ^ (2 * p) / r.den)
    generalize natSqrt (r.num.toNat * 2 ^ (2 * p) / r.den) = m at *
    have hp : (0 : ℝ) < 2 ^ p := by positivity
    have hd : (0 : ℝ) < r.den := by exact_mod_cast r.den_pos
    have hr : (√r : ℝ) = √((r.num.toNat : ℝ) / r.den) := by
      rcases le_total 0 r.num with h | h
      · have e : ((r.num.toNat : ℤ) : ℝ) = (r.num : ℝ) := by rw [Int.toNat_of_nonneg h]
        rw [Int.cast_natCast] at e
        rw [e, ← Rat.cast_def]
      · have e : r.num.toNat = 0 := by omega
        have hneg : (r : ℝ) ≤ 0 := by exact_mod_cast Rat.num_nonpos.mp h
        rw [e, Real.sqrt_eq_zero_of_nonpos hneg]; simp
    have hmk (k : ℕ) : ((mkRat k (2 ^ p) : ℚ) : ℝ) = k / 2 ^ p := by rw [Rat.mkRat_eq_div]; push_cast; rfl
    rw [hr, hmk, hmk]
    generalize r.num.toNat = n at *
    generalize r.den = d at *
    have hd' : 0 < d := by exact_mod_cast hd
    have h1' : m * m * d ≤ n * 2 ^ (2 * p) := (Nat.le_div_iff_mul_le hd').mp h1
    have h2' : n * 2 ^ (2 * p) < (m + 1) * (m + 1) * d := (Nat.div_lt_iff_lt_mul hd').mp h2
    have h1q : (m : ℝ) * m * d ≤ n * 2 ^ (2 * p) := by exact_mod_cast h1'
    have h2q : (n : ℝ) * 2 ^ (2 * p) < (m + 1) * (m + 1) * d := by exact_mod_cast h2'
    have e2 : (2 : ℝ) ^ (2 * p) = 2 ^ p * 2 ^ p := by rw [two_mul, pow_add]
    rw [e2] at h1q h2q
    constructor
    · apply Real.le_sqrt_of_sq_le
      rw [div_pow, div_le_div_iff₀ (by positivity) hd]
      nlinarith
    · rw [Real.sqrt_le_left (by positivity), div_pow, div_le_div_iff₀ hd (by positivity)]
      push_cast
      nlinarith
  obtain ⟨h1, h2⟩ := ha
  unfold sqrt
  generalize fracBits = p
  exact ⟨(key p a.lo).1.trans (Real.sqrt_le_sqrt h1), (Real.sqrt_le_sqrt h2).trans (key p a.hi).2⟩

/-! ### The series of sine and cosine -/

/-- A series whose terms do not grow lies between 0 and its first term. -/
theorem altSeries_bounds (p x2 : ℕ) : ∀ n j term : ℕ, x2 ≤ 2 ^ (2 * p) * ((j + 1) * (j + 2)) →
    0 ≤ altSeries p x2 n j term ∧ altSeries p x2 n j term ≤ term
  | 0, _, _, _ => by simp [altSeries]
  | n + 1, j, term, h => by
    have hnext : x2 ≤ 2 ^ (2 * p) * ((j + 2 + 1) * (j + 2 + 2)) :=
      h.trans (Nat.mul_le_mul_left _ (Nat.mul_le_mul (by omega) (by omega)))
    have hle : term * x2 / (2 ^ (2 * p) * ((j + 1) * (j + 2))) ≤ term :=
      Nat.div_le_of_le_mul (by rw [Nat.mul_comm term]; exact Nat.mul_le_mul_right _ h)
    obtain ⟨l, u⟩ := altSeries_bounds p x2 n (j + 2) (term * x2 / (2 ^ (2 * p) * ((j + 1) * (j + 2)))) hnext
    have hle' : ((term * x2 / (2 ^ (2 * p) * ((j + 1) * (j + 2))) : ℕ) : ℤ) ≤ term := by exact_mod_cast hle
    rw [altSeries]
    exact ⟨by linarith, by linarith⟩

/-- The next term of a series. -/
theorem next_term (D t x2 m : ℕ) (hD : 0 < D) (hm : 0 < m) :
    ((t * x2 / (D * m) : ℕ) : ℚ) ≤ t * (x2 / D) / m ∧ t * ((x2 : ℚ) / D) / m - 1 < ((t * x2 / (D * m) : ℕ) : ℚ) := by
  have hD' : (0:ℚ) < D := by exact_mod_cast hD
  have hm' : (0:ℚ) < m := by exact_mod_cast hm
  have hp : 0 < D * m := by positivity
  have e : (t:ℚ) * (x2 / D) / m = ((t * x2 : ℕ) : ℚ) / ((D * m : ℕ) : ℚ) := by push_cast; field_simp
  rw [e]
  constructor
  · exact Nat.cast_div_le
  · have := Nat.lt_div_mul_add (a := t * x2) hp
    have h2 : ((t * x2 : ℕ) : ℚ) < ((t * x2 / (D * m) : ℕ) : ℚ) * ((D * m : ℕ) : ℚ) + ((D * m : ℕ) : ℚ) := by exact_mod_cast this
    have hpq : (0:ℚ) < ((D * m : ℕ) : ℚ) := by exact_mod_cast hp
    rw [sub_lt_iff_lt_add, div_lt_iff₀ hpq]
    linarith

/-- The cosine series at an angle below π: between -4 and 1. -/
theorem cos_series (p w : ℕ) (n : ℕ) (h : (w : ℚ) / 2 ^ p ≤ 3.1416) :
    -4 * 2 ^ p ≤ altSeries p (w * w) (n + 1) 0 (2 ^ p) ∧ altSeries p (w * w) (n + 1) 0 (2 ^ p) ≤ 2 ^ p := by
  have hp : (0:ℚ) < 2 ^ p := by positivity
  have hy : ((w * w : ℕ) : ℚ) / ((2 ^ (2 * p) : ℕ) : ℚ) ≤ 10 := by
    have : ((w * w : ℕ) : ℚ) / ((2 ^ (2 * p) : ℕ) : ℚ) = (w / 2 ^ p) * (w / 2 ^ p) := by
      push_cast; rw [two_mul, pow_add]; field_simp
    rw [this]; have : (0:ℚ) ≤ (w:ℚ)/2^p := by positivity
    nlinarith
  have hD : 0 < 2 ^ (2 * p) := by positivity
  have hDq : (0:ℚ) < ((2 ^ (2 * p) : ℕ) : ℚ) := by exact_mod_cast hD
  have hx : w * w ≤ 2 ^ (2 * p) * ((0 + 2 + 1) * (0 + 2 + 2)) := by
    rw [div_le_iff₀ hDq] at hy
    have : w * w ≤ 10 * 2 ^ (2 * p) := by exact_mod_cast hy
    omega
  obtain ⟨l, u⟩ := altSeries_bounds p (w * w) n (0 + 2) (2 ^ p * (w * w) / (2 ^ (2 * p) * ((0 + 1) * (0 + 2)))) hx
  have t := (next_term (2 ^ (2 * p)) (2 ^ p) (w * w) ((0 + 1) * (0 + 2)) hD (by norm_num)).1
  rw [altSeries]
  have t5 : ((2 ^ p * (w * w) / (2 ^ (2 * p) * ((0 + 1) * (0 + 2))) : ℕ) : ℚ) ≤ 5 * 2 ^ p := by
    refine t.trans ?_
    push_cast at *
    nlinarith
  have t6 : ((2 ^ p * (w * w) / (2 ^ (2 * p) * ((0 + 1) * (0 + 2))) : ℕ) : ℤ) ≤ 5 * 2 ^ p := by exact_mod_cast t5
  push_cast at *
  constructor <;> linarith

/-- The sine series at an angle below π: hardly below 0, and at most the angle. -/
theorem sin_series (p w n : ℕ) (h : (w : ℚ) / 2 ^ p ≤ 3.1416) :
    -(1/10) * 2 ^ p - 1 ≤ (altSeries p (w * w) (n + 3) 1 w : ℚ) ∧ (altSeries p (w * w) (n + 3) 1 w : ℚ) ≤ w := by
  have hp : (0:ℚ) < 2 ^ p := by positivity
  have hW0 : (0:ℚ) ≤ (w:ℚ)/2^p := by positivity
  have hyW : ((w * w : ℕ) : ℚ) / ((2 ^ (2 * p) : ℕ) : ℚ) = (w / 2 ^ p) * (w / 2 ^ p) := by
      push_cast; rw [two_mul, pow_add]; field_simp
  have hy0 : (0:ℚ) ≤ ((w * w : ℕ) : ℚ) / ((2 ^ (2 * p) : ℕ) : ℚ) := by positivity
  have hy : ((w * w : ℕ) : ℚ) / ((2 ^ (2 * p) : ℕ) : ℚ) ≤ 9.87 := by
    rw [hyW]; nlinarith
  have hD : 0 < 2 ^ (2 * p) := by positivity
  have hDq : (0:ℚ) < ((2 ^ (2 * p) : ℕ) : ℚ) := by exact_mod_cast hD
  have hx : w * w ≤ 2 ^ (2 * p) * 10 := by
    have : ((w * w : ℕ) : ℚ) / ((2 ^ (2 * p) : ℕ) : ℚ) ≤ 10 := by linarith
    rw [div_le_iff₀ hDq] at this
    have : w * w ≤ 10 * 2 ^ (2 * p) := by exact_mod_cast this
    omega
  have e : altSeries p (w * w) (n + 3) 1 w =
      w - ((w * (w * w) / (2 ^ (2 * p) * 6) : ℕ) - ((w * (w * w) / (2 ^ (2 * p) * 6) * (w * w) / (2 ^ (2 * p) * 20) : ℕ)
        - altSeries p (w * w) n 7
          (w * (w * w) / (2 ^ (2 * p) * 6) * (w * w) / (2 ^ (2 * p) * 20) * (w * w) / (2 ^ (2 * p) * 42)))) := by
    rw [altSeries, altSeries, altSeries]
  have e3 : altSeries p (w * w) (n + 3) 1 w = w - altSeries p (w * w) (n + 2) 3 (w * (w * w) / (2 ^ (2 * p) * 6)) := by
    rw [altSeries]
  have m3 := (next_term (2 ^ (2 * p)) w (w * w) 6 hD (by norm_num)).1
  generalize w * (w * w) / (2 ^ (2 * p) * 6) = t3 at *
  have m5 := (next_term (2 ^ (2 * p)) t3 (w * w) 20 hD (by norm_num)).2
  generalize t3 * (w * w) / (2 ^ (2 * p) * 20) = t5 at *
  have m7 := (next_term (2 ^ (2 * p)) t5 (w * w) 42 hD (by norm_num)).1
  generalize t5 * (w * w) / (2 ^ (2 * p) * 42) = t7 at *
  have s3 := (altSeries_bounds p (w * w) (n + 2) 3 t3 (hx.trans (Nat.mul_le_mul_left _ (by norm_num)))).1
  have s7 := (altSeries_bounds p (w * w) n 7 t7 (hx.trans (Nat.mul_le_mul_left _ (by norm_num)))).2
  refine ⟨?_, by rw [e3]; have := Int.cast_nonneg (R := ℚ) s3; push_cast; linarith⟩
  rw [e]
  clear e e3
  generalize altSeries p (w * w) n 7 t7 = S7 at *
  have s7u : (S7 : ℚ) ≤ t7 := by exact_mod_cast s7
  rw [hyW] at m3 m5 m7 hy hy0
  have hw : (w:ℚ) = w / 2^p * 2^p := by field_simp
  have t3n : (0:ℚ) ≤ t3 := by positivity
  have t5n : (0:ℚ) ≤ t5 := by positivity
  push_cast at *
  generalize (2:ℚ)^p = P at *
  generalize (w:ℚ)/P = W at *
  generalize hyd : W * W = y at *
  have b1 : (t5:ℚ) - t7 ≥ t5 * (1 - y / 42) := by linarith
  have hc : (0:ℚ) ≤ 1 - y / 42 := by linarith
  have b2 : (t5:ℚ) * (1 - y/42) ≥ (t3 * y / 20 - 1) * (1 - y / 42) := mul_le_mul_of_nonneg_right m5.le hc
  have b3 : (t3 : ℚ) * (1 - y / 20 * (1 - y / 42)) ≤ w * y / 6 * (1 - y / 20 * (1 - y / 42)) :=
    mul_le_mul_of_nonneg_right m3 (by nlinarith [sq_nonneg y])
  have g : -(3/100) ≤ 1 - y/6 + y^2/120 - y^3/5040 := by nlinarith [mul_nonneg hy0 hy0, mul_nonneg (sub_nonneg.mpr hy) (mul_nonneg hy0 hy0), sq_nonneg (y - 14)]
  have b4 : -(1/10) ≤ W * (1 - y/6 + y^2/120 - y^3/5040) := by
    have := mul_le_mul_of_nonneg_left g hW0
    linarith
  have b5 : -(1/10) * P ≤ W * (1 - y/6 + y^2/120 - y^3/5040) * P := mul_le_mul_of_nonneg_right b4 hp.le
  have b6 : W * (1 - y/6 + y^2/120 - y^3/5040) * P = w - w * y / 6 * (1 - y / 20 * (1 - y / 42)) := by rw [hw]; ring
  linarith [b1, b2, b3, b5, b6, s7u]

/-- Below half a turn, in fixed point, the angle is below 3.1416. -/
theorem angle_le (r : ℚ) (h : r < 1 / 2) : (angle r : ℚ) / 2 ^ fracBits ≤ 3.1416 := by
  have hd : (0:ℚ) < r.den := by exact_mod_cast r.den_pos
  have hle : angle r ≤ piFixed := by
    refine Nat.div_le_of_le_mul ?_
    have h1 : 2 * r.num ≤ r.den := by
      have : (r.num : ℚ) / r.den < 1 / 2 := by rwa [Rat.num_div_den]
      rw [div_lt_iff₀ hd] at this
      have : (2 * r.num : ℚ) ≤ r.den := by linarith
      exact_mod_cast this
    have h2 : 2 * r.num.toNat ≤ r.den := by omega
    calc 2 * piFixed * r.num.toNat = (2 * r.num.toNat) * piFixed := by ring
      _ ≤ r.den * piFixed := Nat.mul_le_mul_right _ h2
  have hpi : piFixed * 10000 ≤ 31416 * 2 ^ fracBits := by decide +kernel
  have hp : (0:ℚ) < 2 ^ fracBits := by positivity
  have h3 : ((angle r * 10000 : ℕ) : ℚ) ≤ ((31416 * 2 ^ fracBits : ℕ) : ℚ) := by
    exact_mod_cast (Nat.mul_le_mul_right _ hle).trans hpi
  rw [div_le_iff₀ hp]
  push_cast at h3
  linarith

/-- The ends of a fixed-point enclosure. -/
theorem around_ends (v : ℤ) :
    (around v).lo = (v - slack : ℚ) / 2 ^ fracBits ∧ (around v).hi = (v + slack : ℚ) / 2 ^ fracBits := by
  unfold around
  generalize fracBits = p
  constructor <;> dsimp only <;> rw [Rat.mkRat_eq_div] <;> push_cast <;> rfl

/-- The bounds of the enclosure of the cosine below half a turn. -/
theorem cosTurn_bounds (r : ℚ) (h : r < 1 / 2) :
    -5 ≤ (cosTurn r).lo ∧ (cosTurn r).lo ≤ (cosTurn r).hi ∧ (cosTurn r).hi ≤ 2 := by
  unfold cosTurn
  split
  · simp [point]
  · obtain ⟨l, u⟩ := cos_series fracBits (angle r) 159 (angle_le r h)
    unfold cosFixed nTerms
    obtain ⟨e1, e2⟩ := around_ends (altSeries fracBits (angle r * angle r) 160 0 (2 ^ fracBits))
    rw [e1, e2]
    have hs : (slack : ℚ) ≤ 2 ^ fracBits := by
      have : slack ≤ 2 ^ fracBits := by decide +kernel
      exact_mod_cast this
    have hs0 : (0:ℚ) ≤ slack := Nat.cast_nonneg _
    have hl : ((-4 * 2 ^ fracBits : ℤ) : ℚ) ≤ (altSeries fracBits (angle r * angle r) 160 0 (2 ^ fracBits) : ℚ) := by exact_mod_cast l
    have hu : (altSeries fracBits (angle r * angle r) 160 0 (2 ^ fracBits) : ℚ) ≤ ((2 ^ fracBits : ℤ) : ℚ) := by exact_mod_cast u
    generalize (altSeries fracBits (angle r * angle r) 160 0 (2 ^ fracBits) : ℚ) = S at *
    push_cast at hl hu
    generalize fracBits = p at *
    have hp : (0:ℚ) < 2 ^ p := by positivity
    refine ⟨?_, ?_, ?_⟩
    · rw [le_div_iff₀ hp]; linarith
    · rw [div_le_div_iff_of_pos_right hp]; linarith
    · rw [div_le_iff₀ hp]; linarith

/-- The bounds and the width of the enclosure of the sine below half a turn. -/
theorem sinTurn_bounds (r : ℚ) (h : r < 1 / 2) :
    -(1 / 5) ≤ (sinTurn r).lo ∧ (sinTurn r).lo ≤ (sinTurn r).hi ∧ (sinTurn r).hi ≤ 4
      ∧ (sinTurn r).hi - (sinTurn r).lo ≤ 1 / 2 ^ 200 := by
  unfold sinTurn
  split
  · simp [point]; norm_num
  · have ha := angle_le r h
    obtain ⟨l, u⟩ := sin_series fracBits (angle r) 157 ha
    unfold sinFixed nTerms
    obtain ⟨e1, e2⟩ := around_ends (altSeries fracBits (angle r * angle r) 160 1 (angle r))
    rw [e1, e2]
    have hs : (slack : ℚ) * 100 ≤ 2 ^ fracBits := by
      have : slack * 100 ≤ 2 ^ fracBits := by decide +kernel
      exact_mod_cast this
    have hs2 : (slack : ℚ) * 2 * 2 ^ 200 ≤ 2 ^ fracBits := by
      have : slack * 2 * 2 ^ 200 ≤ 2 ^ fracBits := by decide +kernel
      exact_mod_cast this
    have hs1 : (1:ℚ) ≤ slack := by
      have : 1 ≤ slack := by decide
      exact_mod_cast this
    generalize (altSeries fracBits (angle r * angle r) 160 1 (angle r) : ℚ) = S at *
    generalize (angle r : ℚ) = w at *
    generalize fracBits = p at *
    generalize (slack : ℚ) = k at *
    have hp : (0:ℚ) < 2 ^ p := by positivity
    rw [div_le_iff₀ hp] at ha
    refine ⟨?_, ?_, ?_, ?_⟩
    · rw [le_div_iff₀ hp]; linarith
    · rw [div_le_div_iff_of_pos_right hp]; linarith
    · rw [div_le_iff₀ hp]; linarith
    · rw [← sub_div, div_le_div_iff₀ hp (by positivity)]; linarith

/-! ### Rounding an enclosure -/

open Binary32

/-- Where the two ends round alike no free value is asked (log 7). -/
theorem round_of_decided {x : Enclosure} (h : Decided x) : round x = rnd32Rat x.lo := if_pos h

/-- The rounding of an enclosure below the overflow threshold is no infinity. -/
theorem isInf_round {x : Enclosure} (h1 : |x.lo| < 2 ^ 127) (h2 : |x.hi| < 2 ^ 127) : isInf (round x) = false := by
  have key (r : ℚ) (h : |r| < 2 ^ 127) : isInf (rnd32Rat r) = false := by
    rw [← Bool.not_eq_true, isInf_rnd32Rat, not_le]
    exact h.trans_le (by norm_num)
  have hb : isInf (if x.hi = 0 ∧ x.lo < 0 then negZero else rnd32Rat x.hi) = false := by
    split
    · decide
    · exact key _ h2
  unfold round
  simp only
  generalize (if x.hi = 0 ∧ x.lo < 0 then negZero else rnd32Rat x.hi) = b at *
  split
  · exact key _ h1
  · split
    · exact hb
    · exact key _ h1

/-- An enclosure very near 1 rounds to 1.0. -/
theorem round_near_one {x : Enclosure} (h1 : |x.lo - 1| ≤ 1 / 2 ^ 100) (h2 : |x.hi - 1| ≤ 1 / 2 ^ 100) : round x = one := by
  have hh : ¬ (x.hi = 0 ∧ x.lo < 0) := by
    rintro ⟨h, _⟩
    rw [h] at h2; norm_num at h2
  unfold round
  simp only
  rw [if_neg hh, rnd32Rat_near_one _ h1, rnd32Rat_near_one _ h2, if_pos rfl]

end Sys2Proof.ExactReal
end

