-- ==== Sys2Proof/Laws/Memory.lean ====
section
/-! SUPPORT. The laws of memory: a read after a write, a write leaves every other address alone, and every write keeps
the canonical form. -/

namespace Sys2Proof.Machine

/-- A byte just written is read back. -/
@[simp] theorem Memory.read?_write_same (m : Memory) (a : Nat) (b : Byte) :
    Memory.read? (Memory.write m a b) a = some b := by
  induction m with
  | nil => simp [Memory.write, Memory.read?]
  | cons cell rest ih =>
    simp only [Memory.write]
    split
    · simp [Memory.read?]
    · split
      · simp [Memory.read?]
      · simp [Memory.read?, *]

/-- A write leaves every other address alone. -/
theorem Memory.read?_write_other (m : Memory) {a c : Nat} (b : Byte) (h : c ≠ a) :
    Memory.read? (Memory.write m a b) c = Memory.read? m c := by
  induction m with
  | nil => simp [Memory.write, Memory.read?, h]
  | cons cell rest ih =>
    simp only [Memory.write]
    split
    · simp [Memory.read?, h]
    · split
      · rename_i heq
        subst heq
        simp [Memory.read?, h]
      · simp only [Memory.read?, ih]

@[simp] theorem Memory.byteAt_write_same (m : Memory) (a : Nat) (b : Byte) :
    Memory.byteAt (Memory.write m a b) a = b := by simp [Memory.byteAt]

theorem Memory.byteAt_write_other (m : Memory) {a c : Nat} (b : Byte) (h : c ≠ a) :
    Memory.byteAt (Memory.write m a b) c = Memory.byteAt m c := by
  simp [Memory.byteAt, Memory.read?_write_other m b h]

/-- The addresses listed after a write are those before and the one written. -/
theorem Memory.mem_write {m : Memory} {a : Nat} {b : Byte} {cell : Host.Cell} (h : cell ∈ Memory.write m a b) :
    cell = (a, b) ∨ cell ∈ m := by
  induction m with
  | nil => simpa [Memory.write] using h
  | cons head rest ih =>
    simp only [Memory.write] at h
    split at h
    · simpa using h
    · split at h
      · simp only [List.mem_cons] at h ⊢
        tauto
      · simp only [List.mem_cons] at h ⊢
        rcases h with h | h
        · exact .inr (.inl h)
        · exact (ih h).imp id .inr

/-- A write keeps the canonical form. -/
theorem Memory.write_wf {m : Memory} (a : Nat) (b : Byte) (h : Memory.wf m) : Memory.wf (Memory.write m a b) := by
  induction m with
  | nil => simp [Memory.write]
  | cons head rest ih =>
    obtain ⟨hhead, hrest⟩ := List.pairwise_cons.mp h
    simp only [Memory.write]
    split
    · rename_i hlt
      refine List.pairwise_cons.mpr ⟨?_, h⟩
      intro c hc
      rcases List.mem_cons.mp hc with rfl | hc
      · exact hlt
      · exact hlt.trans (hhead c hc)
    · split
      · rename_i heq
        subst heq
        exact List.pairwise_cons.mpr ⟨hhead, hrest⟩
      · refine List.pairwise_cons.mpr ⟨?_, ih hrest⟩
        intro c hc
        rcases Memory.mem_write hc with rfl | hc
        · simp only; omega
        · exact hhead c hc

theorem Memory.writeWord_wf {m : Memory} (a : Nat) (w : Word) (h : Memory.wf m) : Memory.wf (Memory.writeWord m a w) :=
  Memory.write_wf _ _ (Memory.write_wf _ _ (Memory.write_wf _ _ (Memory.write_wf _ _ h)))

theorem Memory.writeWords_wf {m : Memory} (a : Nat) (ws : List Word) (h : Memory.wf m) :
    Memory.wf (Memory.writeWords m a ws) := by
  induction ws generalizing m a with
  | nil => exact h
  | cons w ws ih => exact ih (a + 4) (Memory.writeWord_wf a w h)

/-- The bytes outside a written word are as before. -/
theorem Memory.byteAt_writeWord_other (m : Memory) {a c : Nat} (w : Word) (h : c < a ∨ a + 4 ≤ c) :
    Memory.byteAt (Memory.writeWord m a w) c = Memory.byteAt m c := by
  unfold Memory.writeWord
  rw [Memory.byteAt_write_other _ _ (by omega), Memory.byteAt_write_other _ _ (by omega),
    Memory.byteAt_write_other _ _ (by omega), Memory.byteAt_write_other _ _ (by omega)]

/-- Four bytes of a word, put together again in little-endian order (R95). -/
theorem byteOf_append (w : Word) : byteOf w 3 ++ byteOf w 2 ++ byteOf w 1 ++ byteOf w 0 = w := by
  unfold byteOf
  ext i hi
  simp only [BitVec.getElem_append, BitVec.getElem_extractLsb']
  split
  · simp [BitVec.getLsbD_eq_getElem hi]
  · split
    · rw [← BitVec.getLsbD_eq_getElem hi]; congr 1; omega
    · split
      · rw [← BitVec.getLsbD_eq_getElem hi]; congr 1; omega
      · rw [← BitVec.getLsbD_eq_getElem hi]; congr 1; omega

/-- A word just written is read back. -/
@[simp] theorem Memory.wordAt_writeWord_same (m : Memory) (a : Nat) (w : Word) :
    Memory.wordAt (Memory.writeWord m a w) a = w := by
  unfold Memory.wordAt Memory.writeWord
  rw [Memory.byteAt_write_same,
    Memory.byteAt_write_other _ _ (by omega : a + 2 ≠ a + 3), Memory.byteAt_write_same,
    Memory.byteAt_write_other _ _ (by omega : a + 1 ≠ a + 3), Memory.byteAt_write_other _ _ (by omega : a + 1 ≠ a + 2),
    Memory.byteAt_write_same,
    Memory.byteAt_write_other _ _ (by omega : a ≠ a + 3), Memory.byteAt_write_other _ _ (by omega : a ≠ a + 2),
    Memory.byteAt_write_other _ _ (by omega : a ≠ a + 1), Memory.byteAt_write_same]
  exact byteOf_append w

/-- A word apart from a written word is as before. -/
theorem Memory.wordAt_writeWord_other (m : Memory) {a c : Nat} (w : Word) (h : c + 4 ≤ a ∨ a + 4 ≤ c) :
    Memory.wordAt (Memory.writeWord m a w) c = Memory.wordAt m c := by
  unfold Memory.wordAt
  rw [Memory.byteAt_writeWord_other _ _ (by omega), Memory.byteAt_writeWord_other _ _ (by omega),
    Memory.byteAt_writeWord_other _ _ (by omega), Memory.byteAt_writeWord_other _ _ (by omega)]

/-- The bytes outside consecutive written words are as before. -/
theorem Memory.byteAt_writeWords_other (m : Memory) {a c : Nat} (ws : List Word)
    (h : c < a ∨ a + 4 * ws.length ≤ c) : Memory.byteAt (Memory.writeWords m a ws) c = Memory.byteAt m c := by
  induction ws generalizing m a with
  | nil => rfl
  | cons w ws ih =>
    simp only [List.length_cons] at h
    rw [Memory.writeWords, ih _ (by omega), Memory.byteAt_writeWord_other _ _ (by omega)]

/-- A word apart from consecutive written words is as before. -/
theorem Memory.wordAt_writeWords_other (m : Memory) {a c : Nat} (ws : List Word)
    (h : c + 4 ≤ a ∨ a + 4 * ws.length ≤ c) : Memory.wordAt (Memory.writeWords m a ws) c = Memory.wordAt m c := by
  unfold Memory.wordAt
  rw [Memory.byteAt_writeWords_other _ _ (by omega), Memory.byteAt_writeWords_other _ _ (by omega),
    Memory.byteAt_writeWords_other _ _ (by omega), Memory.byteAt_writeWords_other _ _ (by omega)]

/-- Word i of consecutive written words is read back. -/
theorem Memory.wordAt_writeWords_same (m : Memory) (a : Nat) (ws : List Word) (i : Nat) (h : i < ws.length) :
    Memory.wordAt (Memory.writeWords m a ws) (a + 4 * i) = ws[i] := by
  induction ws generalizing m a i with
  | nil => simp at h
  | cons w ws ih =>
    rw [Memory.writeWords]
    cases i with
    | zero =>
      rw [Memory.wordAt_writeWords_other _ _ (by omega)]
      simp
    | succ i =>
      have h' : i < ws.length := by simpa using h
      have := ih (Memory.writeWord m a w) (a + 4) i h'
      simpa [Nat.mul_add, Nat.add_assoc, Nat.add_comm, Nat.add_left_comm] using this

end Sys2Proof.Machine
end

