-- ==== Sys2Proof/Laws/State.lean ====
section
/-! SUPPORT. One lemma per field per named update of State: what each update leaves alone, and the plain new values. -/

namespace Sys2Proof.Machine

variable (s : State)

/-! ### modifySlot -/

@[simp] theorem State.modifySlot_build (i : Nat) (f : Slot → Slot) : (s.modifySlot i f).build = s.build := rfl
@[simp] theorem State.modifySlot_status (i : Nat) (f : Slot → Slot) : (s.modifySlot i f).status = s.status := rfl
@[simp] theorem State.modifySlot_errInfo (i : Nat) (f : Slot → Slot) : (s.modifySlot i f).errInfo = s.errInfo := rfl
@[simp] theorem State.modifySlot_errAddr (i : Nat) (f : Slot → Slot) : (s.modifySlot i f).errAddr = s.errAddr := rfl
@[simp] theorem State.modifySlot_shadow (i : Nat) (f : Slot → Slot) : (s.modifySlot i f).shadow = s.shadow := rfl
@[simp] theorem State.modifySlot_reg (i : Nat) (f : Slot → Slot) : (s.modifySlot i f).reg = s.reg := rfl
@[simp] theorem State.modifySlot_runCount (i : Nat) (f : Slot → Slot) : (s.modifySlot i f).runCount = s.runCount := rfl
@[simp] theorem State.modifySlot_intEn (i : Nat) (f : Slot → Slot) : (s.modifySlot i f).intEn = s.intEn := rfl
@[simp] theorem State.modifySlot_pendAll (i : Nat) (f : Slot → Slot) : (s.modifySlot i f).pendAll = s.pendAll := rfl
@[simp] theorem State.modifySlot_phase (i : Nat) (f : Slot → Slot) : (s.modifySlot i f).phase = s.phase := rfl
@[simp] theorem State.modifySlot_slotPc (i : Nat) (f : Slot → Slot) : (s.modifySlot i f).slotPc = s.slotPc := rfl
@[simp] theorem State.modifySlot_verdict (i : Nat) (f : Slot → Slot) : (s.modifySlot i f).verdict = s.verdict := rfl
@[simp] theorem State.modifySlot_wb (i : Nat) (f : Slot → Slot) : (s.modifySlot i f).wb = s.wb := rfl
@[simp] theorem State.modifySlot_mem (i : Nat) (f : Slot → Slot) : (s.modifySlot i f).mem = s.mem := rfl
@[simp] theorem State.modifySlot_hostQueue (i : Nat) (f : Slot → Slot) : (s.modifySlot i f).hostQueue = s.hostQueue := rfl
@[simp] theorem State.modifySlot_replies (i : Nat) (f : Slot → Slot) : (s.modifySlot i f).replies = s.replies := rfl
@[simp] theorem State.modifySlot_draws (i : Nat) (f : Slot → Slot) : (s.modifySlot i f).draws = s.draws := rfl

/-! ### raiseError -/

@[simp] theorem State.raiseError_build (c : ErrCode) (k : BitVec 8) (a : Addr) : (s.raiseError c k a).build = s.build := rfl
@[simp] theorem State.raiseError_status (c : ErrCode) (k : BitVec 8) (a : Addr) : (s.raiseError c k a).status = { s.status with err := true } := rfl
@[simp] theorem State.raiseError_shadow (c : ErrCode) (k : BitVec 8) (a : Addr) : (s.raiseError c k a).shadow = s.shadow := rfl
@[simp] theorem State.raiseError_reg (c : ErrCode) (k : BitVec 8) (a : Addr) : (s.raiseError c k a).reg = s.reg := rfl
@[simp] theorem State.raiseError_runCount (c : ErrCode) (k : BitVec 8) (a : Addr) : (s.raiseError c k a).runCount = s.runCount := rfl
@[simp] theorem State.raiseError_intEn (c : ErrCode) (k : BitVec 8) (a : Addr) : (s.raiseError c k a).intEn = s.intEn := rfl
@[simp] theorem State.raiseError_pendAll (c : ErrCode) (k : BitVec 8) (a : Addr) : (s.raiseError c k a).pendAll = s.pendAll := rfl
@[simp] theorem State.raiseError_slots (c : ErrCode) (k : BitVec 8) (a : Addr) : (s.raiseError c k a).slots = s.slots := rfl
@[simp] theorem State.raiseError_phase (c : ErrCode) (k : BitVec 8) (a : Addr) : (s.raiseError c k a).phase = s.phase := rfl
@[simp] theorem State.raiseError_slotPc (c : ErrCode) (k : BitVec 8) (a : Addr) : (s.raiseError c k a).slotPc = s.slotPc := rfl
@[simp] theorem State.raiseError_verdict (c : ErrCode) (k : BitVec 8) (a : Addr) : (s.raiseError c k a).verdict = s.verdict := rfl
@[simp] theorem State.raiseError_wb (c : ErrCode) (k : BitVec 8) (a : Addr) : (s.raiseError c k a).wb = s.wb := rfl
@[simp] theorem State.raiseError_mem (c : ErrCode) (k : BitVec 8) (a : Addr) : (s.raiseError c k a).mem = s.mem := rfl
@[simp] theorem State.raiseError_hostQueue (c : ErrCode) (k : BitVec 8) (a : Addr) : (s.raiseError c k a).hostQueue = s.hostQueue := rfl
@[simp] theorem State.raiseError_replies (c : ErrCode) (k : BitVec 8) (a : Addr) : (s.raiseError c k a).replies = s.replies := rfl
@[simp] theorem State.raiseError_draws (c : ErrCode) (k : BitVec 8) (a : Addr) : (s.raiseError c k a).draws = s.draws := rfl

/-! ### advanceSlot -/

@[simp] theorem State.advanceSlot_build : s.advanceSlot.build = s.build := by unfold State.advanceSlot; split <;> rfl
@[simp] theorem State.advanceSlot_status : s.advanceSlot.status = s.status := by unfold State.advanceSlot; split <;> rfl
@[simp] theorem State.advanceSlot_errInfo : s.advanceSlot.errInfo = s.errInfo := by unfold State.advanceSlot; split <;> rfl
@[simp] theorem State.advanceSlot_errAddr : s.advanceSlot.errAddr = s.errAddr := by unfold State.advanceSlot; split <;> rfl
@[simp] theorem State.advanceSlot_shadow : s.advanceSlot.shadow = s.shadow := by unfold State.advanceSlot; split <;> rfl
@[simp] theorem State.advanceSlot_reg : s.advanceSlot.reg = s.reg := by unfold State.advanceSlot; split <;> rfl
@[simp] theorem State.advanceSlot_runCount : s.advanceSlot.runCount = s.runCount := by unfold State.advanceSlot; split <;> rfl
@[simp] theorem State.advanceSlot_intEn : s.advanceSlot.intEn = s.intEn := by unfold State.advanceSlot; split <;> rfl
@[simp] theorem State.advanceSlot_pendAll : s.advanceSlot.pendAll = s.pendAll := by unfold State.advanceSlot; split <;> rfl
@[simp] theorem State.advanceSlot_slots : s.advanceSlot.slots = s.slots := by unfold State.advanceSlot; split <;> rfl
@[simp] theorem State.advanceSlot_wb : s.advanceSlot.wb = s.wb := by unfold State.advanceSlot; split <;> rfl
@[simp] theorem State.advanceSlot_mem : s.advanceSlot.mem = s.mem := by unfold State.advanceSlot; split <;> rfl
@[simp] theorem State.advanceSlot_hostQueue : s.advanceSlot.hostQueue = s.hostQueue := by unfold State.advanceSlot; split <;> rfl
@[simp] theorem State.advanceSlot_verdict : s.advanceSlot.verdict = s.verdict := by unfold State.advanceSlot; split <;> rfl
@[simp] theorem State.advanceSlot_replies : s.advanceSlot.replies = s.replies := by unfold State.advanceSlot; split <;> rfl
@[simp] theorem State.advanceSlot_draws : s.advanceSlot.draws = s.draws := by unfold State.advanceSlot; split <;> rfl

/-! ### finishCompleted -/

@[simp] theorem State.finishCompleted_build : s.finishCompleted.build = s.build := rfl
@[simp] theorem State.finishCompleted_status : s.finishCompleted.status = { s.status with refused := false, done := true } := rfl
@[simp] theorem State.finishCompleted_errInfo : s.finishCompleted.errInfo = s.errInfo := rfl
@[simp] theorem State.finishCompleted_errAddr : s.finishCompleted.errAddr = s.errAddr := rfl
@[simp] theorem State.finishCompleted_shadow : s.finishCompleted.shadow = s.shadow := rfl
@[simp] theorem State.finishCompleted_reg : s.finishCompleted.reg = s.reg := rfl
@[simp] theorem State.finishCompleted_runCount : s.finishCompleted.runCount = s.runCount + 1#32 := rfl
@[simp] theorem State.finishCompleted_intEn : s.finishCompleted.intEn = s.intEn := rfl
@[simp] theorem State.finishCompleted_pendAll : s.finishCompleted.pendAll = s.pendAll := rfl
@[simp] theorem State.finishCompleted_slots : s.finishCompleted.slots = s.slots := rfl
@[simp] theorem State.finishCompleted_phase : s.finishCompleted.phase = .idle := rfl
@[simp] theorem State.finishCompleted_slotPc : s.finishCompleted.slotPc = 0#8 := rfl
@[simp] theorem State.finishCompleted_verdict : s.finishCompleted.verdict = s.verdict := rfl
@[simp] theorem State.finishCompleted_wb : s.finishCompleted.wb = s.wb := rfl
@[simp] theorem State.finishCompleted_mem : s.finishCompleted.mem = s.mem := rfl
@[simp] theorem State.finishCompleted_hostQueue : s.finishCompleted.hostQueue = s.hostQueue := rfl
@[simp] theorem State.finishCompleted_replies : s.finishCompleted.replies = s.replies := rfl
@[simp] theorem State.finishCompleted_draws : s.finishCompleted.draws = s.draws := rfl

/-! ### finishRefused -/

@[simp] theorem State.finishRefused_build : s.finishRefused.build = s.build := rfl
@[simp] theorem State.finishRefused_status : s.finishRefused.status = { s.status with refused := true, done := true } := rfl
@[simp] theorem State.finishRefused_errInfo : s.finishRefused.errInfo = s.errInfo := rfl
@[simp] theorem State.finishRefused_errAddr : s.finishRefused.errAddr = s.errAddr := rfl
@[simp] theorem State.finishRefused_shadow : s.finishRefused.shadow = s.shadow := rfl
@[simp] theorem State.finishRefused_reg : s.finishRefused.reg = s.reg := rfl
@[simp] theorem State.finishRefused_runCount : s.finishRefused.runCount = s.runCount := rfl
@[simp] theorem State.finishRefused_intEn : s.finishRefused.intEn = s.intEn := rfl
@[simp] theorem State.finishRefused_pendAll : s.finishRefused.pendAll = s.pendAll := rfl
@[simp] theorem State.finishRefused_slots : s.finishRefused.slots = s.slots := rfl
@[simp] theorem State.finishRefused_phase : s.finishRefused.phase = .idle := rfl
@[simp] theorem State.finishRefused_slotPc : s.finishRefused.slotPc = 0#8 := rfl
@[simp] theorem State.finishRefused_verdict : s.finishRefused.verdict = .accepted := rfl
@[simp] theorem State.finishRefused_wb : s.finishRefused.wb = s.wb := rfl
@[simp] theorem State.finishRefused_mem : s.finishRefused.mem = s.mem := rfl
@[simp] theorem State.finishRefused_hostQueue : s.finishRefused.hostQueue = s.hostQueue := rfl
@[simp] theorem State.finishRefused_replies : s.finishRefused.replies = s.replies := rfl
@[simp] theorem State.finishRefused_draws : s.finishRefused.draws = s.draws := rfl

/-! ### refuseRun -/

@[simp] theorem State.refuseRun_build (e : CommitError) : (s.refuseRun e).build = s.build := rfl
@[simp] theorem State.refuseRun_status (e : CommitError) : (s.refuseRun e).status = { s.status with err := true } := rfl
@[simp] theorem State.refuseRun_errInfo (e : CommitError) : (s.refuseRun e).errInfo = if s.status.err then s.errInfo else errorInfo e.code (BitVec.ofNat 8 e.slot) := rfl
@[simp] theorem State.refuseRun_errAddr (e : CommitError) : (s.refuseRun e).errAddr = if s.status.err then s.errAddr else errorAddr ctrlAddr := rfl
@[simp] theorem State.refuseRun_shadow (e : CommitError) : (s.refuseRun e).shadow = s.shadow := rfl
@[simp] theorem State.refuseRun_reg (e : CommitError) : (s.refuseRun e).reg = s.reg := rfl
@[simp] theorem State.refuseRun_runCount (e : CommitError) : (s.refuseRun e).runCount = s.runCount := rfl
@[simp] theorem State.refuseRun_intEn (e : CommitError) : (s.refuseRun e).intEn = s.intEn := rfl
@[simp] theorem State.refuseRun_pendAll (e : CommitError) : (s.refuseRun e).pendAll = s.pendAll := rfl
@[simp] theorem State.refuseRun_slots (e : CommitError) : (s.refuseRun e).slots = s.slots := rfl
@[simp] theorem State.refuseRun_phase (e : CommitError) : (s.refuseRun e).phase = .commit := rfl
@[simp] theorem State.refuseRun_slotPc (e : CommitError) : (s.refuseRun e).slotPc = 0xFE#8 := rfl
@[simp] theorem State.refuseRun_verdict (e : CommitError) : (s.refuseRun e).verdict = .refused := rfl
@[simp] theorem State.refuseRun_wb (e : CommitError) : (s.refuseRun e).wb = s.wb := rfl
@[simp] theorem State.refuseRun_mem (e : CommitError) : (s.refuseRun e).mem = s.mem := rfl
@[simp] theorem State.refuseRun_hostQueue (e : CommitError) : (s.refuseRun e).hostQueue = s.hostQueue := rfl
@[simp] theorem State.refuseRun_replies (e : CommitError) : (s.refuseRun e).replies = s.replies := rfl
@[simp] theorem State.refuseRun_draws (e : CommitError) : (s.refuseRun e).draws = s.draws := rfl

/-! ### reply -/

@[simp] theorem State.reply_build (w : Word) : (s.reply w).build = s.build := rfl
@[simp] theorem State.reply_status (w : Word) : (s.reply w).status = s.status := rfl
@[simp] theorem State.reply_errInfo (w : Word) : (s.reply w).errInfo = s.errInfo := rfl
@[simp] theorem State.reply_errAddr (w : Word) : (s.reply w).errAddr = s.errAddr := rfl
@[simp] theorem State.reply_shadow (w : Word) : (s.reply w).shadow = s.shadow := rfl
@[simp] theorem State.reply_reg (w : Word) : (s.reply w).reg = s.reg := rfl
@[simp] theorem State.reply_runCount (w : Word) : (s.reply w).runCount = s.runCount := rfl
@[simp] theorem State.reply_intEn (w : Word) : (s.reply w).intEn = s.intEn := rfl
@[simp] theorem State.reply_pendAll (w : Word) : (s.reply w).pendAll = s.pendAll := rfl
@[simp] theorem State.reply_slots (w : Word) : (s.reply w).slots = s.slots := rfl
@[simp] theorem State.reply_phase (w : Word) : (s.reply w).phase = s.phase := rfl
@[simp] theorem State.reply_slotPc (w : Word) : (s.reply w).slotPc = s.slotPc := rfl
@[simp] theorem State.reply_verdict (w : Word) : (s.reply w).verdict = s.verdict := rfl
@[simp] theorem State.reply_wb (w : Word) : (s.reply w).wb = s.wb := rfl
@[simp] theorem State.reply_mem (w : Word) : (s.reply w).mem = s.mem := rfl
@[simp] theorem State.reply_hostQueue (w : Word) : (s.reply w).hostQueue = s.hostQueue := rfl
@[simp] theorem State.reply_replies (w : Word) : (s.reply w).replies = w :: s.replies := rfl
@[simp] theorem State.reply_draws (w : Word) : (s.reply w).draws = s.draws := rfl

/-! ### ackStatus -/

@[simp] theorem State.ackStatus_build (w : Word) : (s.ackStatus w).build = s.build := rfl
@[simp] theorem State.ackStatus_shadow (w : Word) : (s.ackStatus w).shadow = s.shadow := rfl
@[simp] theorem State.ackStatus_reg (w : Word) : (s.ackStatus w).reg = s.reg := rfl
@[simp] theorem State.ackStatus_runCount (w : Word) : (s.ackStatus w).runCount = s.runCount := rfl
@[simp] theorem State.ackStatus_intEn (w : Word) : (s.ackStatus w).intEn = s.intEn := rfl
@[simp] theorem State.ackStatus_pendAll (w : Word) : (s.ackStatus w).pendAll = s.pendAll := rfl
@[simp] theorem State.ackStatus_slots (w : Word) : (s.ackStatus w).slots = s.slots := rfl
@[simp] theorem State.ackStatus_phase (w : Word) : (s.ackStatus w).phase = s.phase := rfl
@[simp] theorem State.ackStatus_slotPc (w : Word) : (s.ackStatus w).slotPc = s.slotPc := rfl
@[simp] theorem State.ackStatus_verdict (w : Word) : (s.ackStatus w).verdict = s.verdict := rfl
@[simp] theorem State.ackStatus_wb (w : Word) : (s.ackStatus w).wb = s.wb := rfl
@[simp] theorem State.ackStatus_mem (w : Word) : (s.ackStatus w).mem = s.mem := rfl
@[simp] theorem State.ackStatus_hostQueue (w : Word) : (s.ackStatus w).hostQueue = s.hostQueue := rfl
@[simp] theorem State.ackStatus_replies (w : Word) : (s.ackStatus w).replies = s.replies := rfl
@[simp] theorem State.ackStatus_draws (w : Word) : (s.ackStatus w).draws = s.draws := rfl

/-! ### setIntEn -/

@[simp] theorem State.setIntEn_build (w : Word) : (s.setIntEn w).build = s.build := rfl
@[simp] theorem State.setIntEn_status (w : Word) : (s.setIntEn w).status = s.status := rfl
@[simp] theorem State.setIntEn_errInfo (w : Word) : (s.setIntEn w).errInfo = s.errInfo := rfl
@[simp] theorem State.setIntEn_errAddr (w : Word) : (s.setIntEn w).errAddr = s.errAddr := rfl
@[simp] theorem State.setIntEn_shadow (w : Word) : (s.setIntEn w).shadow = s.shadow := rfl
@[simp] theorem State.setIntEn_reg (w : Word) : (s.setIntEn w).reg = s.reg := rfl
@[simp] theorem State.setIntEn_runCount (w : Word) : (s.setIntEn w).runCount = s.runCount := rfl
@[simp] theorem State.setIntEn_intEn (w : Word) : (s.setIntEn w).intEn = ⟨w.getLsbD 0, w.getLsbD 1⟩ := rfl
@[simp] theorem State.setIntEn_pendAll (w : Word) : (s.setIntEn w).pendAll = s.pendAll := rfl
@[simp] theorem State.setIntEn_slots (w : Word) : (s.setIntEn w).slots = s.slots := rfl
@[simp] theorem State.setIntEn_phase (w : Word) : (s.setIntEn w).phase = s.phase := rfl
@[simp] theorem State.setIntEn_slotPc (w : Word) : (s.setIntEn w).slotPc = s.slotPc := rfl
@[simp] theorem State.setIntEn_verdict (w : Word) : (s.setIntEn w).verdict = s.verdict := rfl
@[simp] theorem State.setIntEn_wb (w : Word) : (s.setIntEn w).wb = s.wb := rfl
@[simp] theorem State.setIntEn_mem (w : Word) : (s.setIntEn w).mem = s.mem := rfl
@[simp] theorem State.setIntEn_hostQueue (w : Word) : (s.setIntEn w).hostQueue = s.hostQueue := rfl
@[simp] theorem State.setIntEn_replies (w : Word) : (s.setIntEn w).replies = s.replies := rfl
@[simp] theorem State.setIntEn_draws (w : Word) : (s.setIntEn w).draws = s.draws := rfl

/-! ### mapSamples -/

@[simp] theorem State.mapSamples_build (f : F32 → F32) : (s.mapSamples f).build = s.build := rfl
@[simp] theorem State.mapSamples_status (f : F32 → F32) : (s.mapSamples f).status = s.status := rfl
@[simp] theorem State.mapSamples_errInfo (f : F32 → F32) : (s.mapSamples f).errInfo = s.errInfo := rfl
@[simp] theorem State.mapSamples_errAddr (f : F32 → F32) : (s.mapSamples f).errAddr = s.errAddr := rfl
@[simp] theorem State.mapSamples_shadow (f : F32 → F32) : (s.mapSamples f).shadow = s.shadow := rfl
@[simp] theorem State.mapSamples_reg (f : F32 → F32) : (s.mapSamples f).reg = s.reg := rfl
@[simp] theorem State.mapSamples_runCount (f : F32 → F32) : (s.mapSamples f).runCount = s.runCount := rfl
@[simp] theorem State.mapSamples_intEn (f : F32 → F32) : (s.mapSamples f).intEn = s.intEn := rfl
@[simp] theorem State.mapSamples_pendAll (f : F32 → F32) : (s.mapSamples f).pendAll = s.pendAll := rfl
@[simp] theorem State.mapSamples_slots (f : F32 → F32) : (s.mapSamples f).slots = s.slots := rfl
@[simp] theorem State.mapSamples_phase (f : F32 → F32) : (s.mapSamples f).phase = s.phase := rfl
@[simp] theorem State.mapSamples_slotPc (f : F32 → F32) : (s.mapSamples f).slotPc = s.slotPc := rfl
@[simp] theorem State.mapSamples_verdict (f : F32 → F32) : (s.mapSamples f).verdict = s.verdict := rfl
@[simp] theorem State.mapSamples_wb (f : F32 → F32) : (s.mapSamples f).wb = s.wb.mapActive s.reg.channels fun lane => lane.map f := rfl
@[simp] theorem State.mapSamples_mem (f : F32 → F32) : (s.mapSamples f).mem = s.mem := rfl
@[simp] theorem State.mapSamples_hostQueue (f : F32 → F32) : (s.mapSamples f).hostQueue = s.hostQueue := rfl
@[simp] theorem State.mapSamples_replies (f : F32 → F32) : (s.mapSamples f).replies = s.replies := rfl
@[simp] theorem State.mapSamples_draws (f : F32 → F32) : (s.mapSamples f).draws = s.draws := rfl

/-! ### foldChannels -/

@[simp] theorem State.foldChannels_build {σ : Type} (g : SlotState → Chan σ) (p : SlotState → Chan σ → SlotState) (st : σ → F32 → σ × F32) : (s.foldChannels g p st).build = s.build := rfl
@[simp] theorem State.foldChannels_status {σ : Type} (g : SlotState → Chan σ) (p : SlotState → Chan σ → SlotState) (st : σ → F32 → σ × F32) : (s.foldChannels g p st).status = s.status := rfl
@[simp] theorem State.foldChannels_errInfo {σ : Type} (g : SlotState → Chan σ) (p : SlotState → Chan σ → SlotState) (st : σ → F32 → σ × F32) : (s.foldChannels g p st).errInfo = s.errInfo := rfl
@[simp] theorem State.foldChannels_errAddr {σ : Type} (g : SlotState → Chan σ) (p : SlotState → Chan σ → SlotState) (st : σ → F32 → σ × F32) : (s.foldChannels g p st).errAddr = s.errAddr := rfl
@[simp] theorem State.foldChannels_shadow {σ : Type} (g : SlotState → Chan σ) (p : SlotState → Chan σ → SlotState) (st : σ → F32 → σ × F32) : (s.foldChannels g p st).shadow = s.shadow := rfl
@[simp] theorem State.foldChannels_reg {σ : Type} (g : SlotState → Chan σ) (p : SlotState → Chan σ → SlotState) (st : σ → F32 → σ × F32) : (s.foldChannels g p st).reg = s.reg := rfl
@[simp] theorem State.foldChannels_runCount {σ : Type} (g : SlotState → Chan σ) (p : SlotState → Chan σ → SlotState) (st : σ → F32 → σ × F32) : (s.foldChannels g p st).runCount = s.runCount := rfl
@[simp] theorem State.foldChannels_intEn {σ : Type} (g : SlotState → Chan σ) (p : SlotState → Chan σ → SlotState) (st : σ → F32 → σ × F32) : (s.foldChannels g p st).intEn = s.intEn := rfl
@[simp] theorem State.foldChannels_pendAll {σ : Type} (g : SlotState → Chan σ) (p : SlotState → Chan σ → SlotState) (st : σ → F32 → σ × F32) : (s.foldChannels g p st).pendAll = s.pendAll := rfl
@[simp] theorem State.foldChannels_phase {σ : Type} (g : SlotState → Chan σ) (p : SlotState → Chan σ → SlotState) (st : σ → F32 → σ × F32) : (s.foldChannels g p st).phase = s.phase := rfl
@[simp] theorem State.foldChannels_slotPc {σ : Type} (g : SlotState → Chan σ) (p : SlotState → Chan σ → SlotState) (st : σ → F32 → σ × F32) : (s.foldChannels g p st).slotPc = s.slotPc := rfl
@[simp] theorem State.foldChannels_verdict {σ : Type} (g : SlotState → Chan σ) (p : SlotState → Chan σ → SlotState) (st : σ → F32 → σ × F32) : (s.foldChannels g p st).verdict = s.verdict := rfl
@[simp] theorem State.foldChannels_mem {σ : Type} (g : SlotState → Chan σ) (p : SlotState → Chan σ → SlotState) (st : σ → F32 → σ × F32) : (s.foldChannels g p st).mem = s.mem := rfl
@[simp] theorem State.foldChannels_hostQueue {σ : Type} (g : SlotState → Chan σ) (p : SlotState → Chan σ → SlotState) (st : σ → F32 → σ × F32) : (s.foldChannels g p st).hostQueue = s.hostQueue := rfl
@[simp] theorem State.foldChannels_replies {σ : Type} (g : SlotState → Chan σ) (p : SlotState → Chan σ → SlotState) (st : σ → F32 → σ × F32) : (s.foldChannels g p st).replies = s.replies := rfl
@[simp] theorem State.foldChannels_draws {σ : Type} (g : SlotState → Chan σ) (p : SlotState → Chan σ → SlotState) (st : σ → F32 → σ × F32) : (s.foldChannels g p st).draws = s.draws := rfl

/-! ### applyPitch -/

@[simp] theorem State.applyPitch_build (w : Bool) : (s.applyPitch w).build = s.build := rfl
@[simp] theorem State.applyPitch_errInfo (w : Bool) : (s.applyPitch w).errInfo = s.errInfo := rfl
@[simp] theorem State.applyPitch_errAddr (w : Bool) : (s.applyPitch w).errAddr = s.errAddr := rfl
@[simp] theorem State.applyPitch_shadow (w : Bool) : (s.applyPitch w).shadow = s.shadow := rfl
@[simp] theorem State.applyPitch_reg (w : Bool) : (s.applyPitch w).reg = s.reg := rfl
@[simp] theorem State.applyPitch_runCount (w : Bool) : (s.applyPitch w).runCount = s.runCount := rfl
@[simp] theorem State.applyPitch_intEn (w : Bool) : (s.applyPitch w).intEn = s.intEn := rfl
@[simp] theorem State.applyPitch_pendAll (w : Bool) : (s.applyPitch w).pendAll = s.pendAll := rfl
@[simp] theorem State.applyPitch_phase (w : Bool) : (s.applyPitch w).phase = s.phase := rfl
@[simp] theorem State.applyPitch_slotPc (w : Bool) : (s.applyPitch w).slotPc = s.slotPc := rfl
@[simp] theorem State.applyPitch_verdict (w : Bool) : (s.applyPitch w).verdict = s.verdict := rfl
@[simp] theorem State.applyPitch_mem (w : Bool) : (s.applyPitch w).mem = s.mem := rfl
@[simp] theorem State.applyPitch_hostQueue (w : Bool) : (s.applyPitch w).hostQueue = s.hostQueue := rfl
@[simp] theorem State.applyPitch_replies (w : Bool) : (s.applyPitch w).replies = s.replies := rfl
@[simp] theorem State.applyPitch_draws (w : Bool) : (s.applyPitch w).draws = s.draws := rfl

/-! ### storeOut -/

@[simp] theorem State.storeOut_build (ws : List Word) (u : Bool) : (s.storeOut ws u).build = s.build := rfl
@[simp] theorem State.storeOut_status (ws : List Word) (u : Bool) : (s.storeOut ws u).status = { s.status with fmtUnsup := u } := rfl
@[simp] theorem State.storeOut_errInfo (ws : List Word) (u : Bool) : (s.storeOut ws u).errInfo = s.errInfo := rfl
@[simp] theorem State.storeOut_errAddr (ws : List Word) (u : Bool) : (s.storeOut ws u).errAddr = s.errAddr := rfl
@[simp] theorem State.storeOut_shadow (ws : List Word) (u : Bool) : (s.storeOut ws u).shadow = s.shadow := rfl
@[simp] theorem State.storeOut_reg (ws : List Word) (u : Bool) : (s.storeOut ws u).reg = s.reg := rfl
@[simp] theorem State.storeOut_runCount (ws : List Word) (u : Bool) : (s.storeOut ws u).runCount = s.runCount := rfl
@[simp] theorem State.storeOut_intEn (ws : List Word) (u : Bool) : (s.storeOut ws u).intEn = s.intEn := rfl
@[simp] theorem State.storeOut_pendAll (ws : List Word) (u : Bool) : (s.storeOut ws u).pendAll = s.pendAll := rfl
@[simp] theorem State.storeOut_slots (ws : List Word) (u : Bool) : (s.storeOut ws u).slots = s.slots := rfl
@[simp] theorem State.storeOut_phase (ws : List Word) (u : Bool) : (s.storeOut ws u).phase = s.phase := rfl
@[simp] theorem State.storeOut_slotPc (ws : List Word) (u : Bool) : (s.storeOut ws u).slotPc = s.slotPc := rfl
@[simp] theorem State.storeOut_verdict (ws : List Word) (u : Bool) : (s.storeOut ws u).verdict = s.verdict := rfl
@[simp] theorem State.storeOut_wb (ws : List Word) (u : Bool) : (s.storeOut ws u).wb = s.wb := rfl
@[simp] theorem State.storeOut_mem (ws : List Word) (u : Bool) : (s.storeOut ws u).mem = Memory.writeWords s.mem (outAddr 0) ws := rfl
@[simp] theorem State.storeOut_hostQueue (ws : List Word) (u : Bool) : (s.storeOut ws u).hostQueue = s.hostQueue := rfl
@[simp] theorem State.storeOut_replies (ws : List Word) (u : Bool) : (s.storeOut ws u).replies = s.replies := rfl
@[simp] theorem State.storeOut_draws (ws : List Word) (u : Bool) : (s.storeOut ws u).draws = s.draws := rfl

/-! ### loadInput -/

@[simp] theorem State.loadInput_build : s.loadInput.build = s.build := rfl
@[simp] theorem State.loadInput_status : s.loadInput.status = s.status := rfl
@[simp] theorem State.loadInput_errInfo : s.loadInput.errInfo = s.errInfo := rfl
@[simp] theorem State.loadInput_errAddr : s.loadInput.errAddr = s.errAddr := rfl
@[simp] theorem State.loadInput_shadow : s.loadInput.shadow = s.shadow := rfl
@[simp] theorem State.loadInput_reg : s.loadInput.reg = s.reg := rfl
@[simp] theorem State.loadInput_runCount : s.loadInput.runCount = s.runCount := rfl
@[simp] theorem State.loadInput_intEn : s.loadInput.intEn = s.intEn := rfl
@[simp] theorem State.loadInput_pendAll : s.loadInput.pendAll = s.pendAll := rfl
@[simp] theorem State.loadInput_slots : s.loadInput.slots = s.slots := rfl
@[simp] theorem State.loadInput_phase : s.loadInput.phase = s.phase := rfl
@[simp] theorem State.loadInput_slotPc : s.loadInput.slotPc = s.slotPc := rfl
@[simp] theorem State.loadInput_verdict : s.loadInput.verdict = s.verdict := rfl
@[simp] theorem State.loadInput_mem : s.loadInput.mem = s.mem := rfl
@[simp] theorem State.loadInput_hostQueue : s.loadInput.hostQueue = s.hostQueue := rfl
@[simp] theorem State.loadInput_replies : s.loadInput.replies = s.replies := rfl
@[simp] theorem State.loadInput_draws : s.loadInput.draws = s.draws := rfl

/-! ### startChain -/

@[simp] theorem State.startChain_build : s.startChain.build = s.build := by unfold State.startChain; split <;> rfl
@[simp] theorem State.startChain_status : s.startChain.status = s.status := by unfold State.startChain; split <;> rfl
@[simp] theorem State.startChain_errInfo : s.startChain.errInfo = s.errInfo := by unfold State.startChain; split <;> rfl
@[simp] theorem State.startChain_errAddr : s.startChain.errAddr = s.errAddr := by unfold State.startChain; split <;> rfl
@[simp] theorem State.startChain_shadow : s.startChain.shadow = s.shadow := by unfold State.startChain; split <;> rfl
@[simp] theorem State.startChain_reg : s.startChain.reg = s.reg := by unfold State.startChain; split <;> rfl
@[simp] theorem State.startChain_runCount : s.startChain.runCount = s.runCount := by unfold State.startChain; split <;> rfl
@[simp] theorem State.startChain_intEn : s.startChain.intEn = s.intEn := by unfold State.startChain; split <;> rfl
@[simp] theorem State.startChain_pendAll : s.startChain.pendAll = s.pendAll := by unfold State.startChain; split <;> rfl
@[simp] theorem State.startChain_slots : s.startChain.slots = s.slots := by unfold State.startChain; split <;> rfl
@[simp] theorem State.startChain_wb : s.startChain.wb = s.wb := by unfold State.startChain; split <;> rfl
@[simp] theorem State.startChain_mem : s.startChain.mem = s.mem := by unfold State.startChain; split <;> rfl
@[simp] theorem State.startChain_hostQueue : s.startChain.hostQueue = s.hostQueue := by unfold State.startChain; split <;> rfl
@[simp] theorem State.startChain_verdict : s.startChain.verdict = s.verdict := by unfold State.startChain; split <;> rfl
@[simp] theorem State.startChain_replies : s.startChain.replies = s.replies := by unfold State.startChain; split <;> rfl
@[simp] theorem State.startChain_draws : s.startChain.draws = s.draws := by unfold State.startChain; split <;> rfl

@[simp] theorem State.modifySlot_slots (i : Nat) (f : Slot → Slot) :
    (s.modifySlot i f).slots = s.slots.modify i f := rfl

@[simp] theorem State.setPend_slots (i : Nat) :
    (s.setPend i).slots = s.slots.modify i fun x => { x with pend := true } := rfl

end Sys2Proof.Machine
end

