-- ==== Sys2Proof/Laws/Ops.lean ====
section
/-! SUPPORT. What each shared operation can do, said once: slots, channels, lanes, errors, the advance of slot_pc, the
commit, a host access and a step. -/

namespace Sys2Proof.Machine

/-! ### Slots -/

theorem State.slot_modifySlot_other (s : State) {i j : Nat} (f : Slot → Slot) (h : j ≠ i) :
    (s.modifySlot i f).slot j = s.slot j := by
  simp [State.slot, List.getD_eq_getElem?_getD, Ne.symm h]

theorem State.slot_modifySlot_same (s : State) {i : Nat} (f : Slot → Slot) (h : i < s.slots.length) :
    (s.modifySlot i f).slot i = f (s.slot i) := by
  simp [State.slot, List.getD_eq_getElem?_getD, h]

/-- A change that keeps a reset slot keeps every index's slot in step, even one no slot has. -/
theorem List.getD_modify_of_fixed {α β : Type} (l : List α) (i j : Nat) (d : α) (f : α → α) (g : α → β)
    (h : ∀ x, g (f x) = g x) : g ((l.modify i f).getD j d) = g (l.getD j d) := by
  simp only [List.getD_eq_getElem?_getD, List.getElem?_modify]
  cases l[j]? with
  | none => simp
  | some x => by_cases hij : i = j <;> simp [hij, h]

theorem List.getD_modify_other {α : Type} (l : List α) {i j : Nat} (d : α) (f : α → α) (h : j ≠ i) :
    (l.modify i f).getD j d = l.getD j d := by
  simp [List.getD_eq_getElem?_getD, Ne.symm h]

theorem List.getD_modify_same {α : Type} (l : List α) {i : Nat} (d : α) (f : α → α) (h : i < l.length) :
    (l.modify i f).getD i d = f (l.getD i d) := by
  simp [List.getD_eq_getElem?_getD, h]

/-! ### Channels and lanes -/

@[simp] theorem Chan.get_zero {α : Type} (x : Chan α) : x.get 0 = x.c0 := rfl

@[simp] theorem Chan.get_one {α : Type} (x : Chan α) : x.get 1 = x.c1 := rfl

/-- An active channel is transformed, an inactive one left alone (R159). -/
theorem Chan.get_mapActive {α : Type} (n : Nat) (f : α → α) (x : Chan α) (c : Nat) (h : c < 2) :
    (x.mapActive n f).get c = if c < n then f (x.get c) else x.get c := by
  interval_cases c <;> simp [Chan.mapActive]

@[simp] theorem Chan.get_fst {α β : Type} (x : Chan (α × β)) (c : Nat) : x.fst.get c = (x.get c).1 := by
  unfold Chan.get Chan.fst; split <;> rfl

@[simp] theorem Chan.get_snd {α β : Type} (x : Chan (α × β)) (c : Nat) : x.snd.get c = (x.get c).2 := by
  unfold Chan.get Chan.snd; split <;> rfl

@[simp] theorem Chan.get_zip {α β : Type} (x : Chan α) (y : Chan β) (c : Nat) :
    (Chan.zip x y).get c = (x.get c, y.get c) := by
  unfold Chan.get Chan.zip; split <;> rfl

/-- Folding a lane gives one output sample per input sample. -/
@[simp] theorem foldLane_length {σ : Type} (step : σ → F32 → σ × F32) (st : σ) (vs : List F32) :
    (foldLane step st vs).2.length = vs.length := by
  induction vs generalizing st with
  | nil => rfl
  | cons v vs ih => simp [foldLane, ih]

/-- A lane folded in two parts is the lane folded whole: a signal may be split into runs (R163, R195, R213). -/
theorem foldLane_append {σ : Type} (step : σ → F32 → σ × F32) (st : σ) (us vs : List F32) :
    foldLane step st (us ++ vs) =
      ((foldLane step (foldLane step st us).1 vs).1,
        (foldLane step st us).2 ++ (foldLane step (foldLane step st us).1 vs).2) := by
  induction us generalizing st with
  | nil => rfl
  | cons u us ih => simp [foldLane, ih]

/-- A property of the lane state that every sample's step keeps holds after the lane. -/
theorem foldLane_keeps {σ : Type} (step : σ → F32 → σ × F32) (P : σ → Prop) (h : ∀ st v, P st → P (step st v).1)
    (st : σ) (vs : List F32) (h0 : P st) : P (foldLane step st vs).1 := by
  induction vs generalizing st with
  | nil => exact h0
  | cons v vs ih => exact ih _ (h st v h0)

/-- A module without state gives each sample's image, on every active channel (R231). -/
theorem State.sample_mapSamples (s : State) (g : F32 → F32) (f c : Nat) (hc : c < 2)
    (hf : f < (s.wb.get c).length) :
    (s.mapSamples g).sample f c = if c < s.reg.channels then g (s.sample f c) else s.sample f c := by
  unfold State.sample
  rw [State.mapSamples_wb, Chan.get_mapActive _ _ _ _ hc]
  split
  · simp [List.getD_eq_getElem?_getD, List.getElem?_map, List.getElem?_eq_getElem hf]
  · rfl

/-- A module with state gives the folded lane, on every active channel (R155, R163). -/
theorem State.lane_foldChannels {σ : Type} (s : State) (get : SlotState → Chan σ)
    (put : SlotState → Chan σ → SlotState) (step : σ → F32 → σ × F32) (c : Nat) (hc : c < 2) :
    (s.foldChannels get put step).wb.get c =
      if c < s.reg.channels then (foldLane step ((get s.current.state).get c) (s.wb.get c)).2 else s.wb.get c := by
  simp only [State.foldChannels, Chan.get_snd, Chan.get_mapActive _ _ _ _ hc, Chan.get_zip]
  split <;> rfl

/-! ### Errors and the end of the commit -/

/-- ERR_INFO as a number: CODE in its low byte, SLOT in the next (R46). -/
theorem errorInfo_eq (code : ErrCode) (slot : BitVec 8) :
    errorInfo code slot = BitVec.ofNat 32 (256 * slot.toNat + code.byte.toNat) := by
  apply BitVec.eq_of_toNat_eq
  have h1 := slot.isLt
  have h2 := code.byte.isLt
  unfold errorInfo
  rw [BitVec.toNat_append, BitVec.toNat_append, ← Nat.shiftLeft_add_eq_or_of_lt h2, ← Nat.shiftLeft_add_eq_or_of_lt h1,
    BitVec.toNat_ofNat, BitVec.toNat_ofNat, Nat.shiftLeft_eq, Nat.shiftLeft_eq]
  omega

/-- ERR_ADDR as a number (R47). -/
theorem errorAddr_eq (a : Addr) : errorAddr a = BitVec.ofNat 32 a.toNat := by
  apply BitVec.eq_of_toNat_eq
  have h := a.isLt
  unfold errorAddr
  rw [BitVec.toNat_append, ← Nat.shiftLeft_add_eq_or_of_lt h, BitVec.toNat_ofNat, BitVec.toNat_ofNat, Nat.shiftLeft_eq]
  omega

/-- The end of the commit finishes a refused run, or loads the input and begins the chain (R150). -/
theorem State.endCommit_cases (s : State) :
    s.verdict = .refused ∧ s.endCommit = s.finishRefused
      ∨ s.verdict = .accepted ∧ s.endCommit = s.loadInput.startChain := by
  cases h : s.verdict <;> simp [State.endCommit, h]

/-! ### The advance of slot_pc and the frame of a slot instruction -/

theorem State.advanceSlot_advanced (s : State) : Advanced s s.advanceSlot := by
  unfold Advanced State.advanceSlot
  constructor <;> intro h
  · rw [if_pos h]; exact ⟨rfl, rfl⟩
  · rw [if_neg (by omega)]; exact ⟨rfl, rfl⟩

theorem State.sample_advanceSlot (s : State) (f c : Nat) : s.advanceSlot.sample f c = s.sample f c := by
  simp [State.sample]

/-- What a module without state leaves alone (R155, R236). -/
theorem State.mapSamples_frame (s : State) (g : F32 → F32) : ModuleFrame s (s.mapSamples g).advanceSlot where
  globals := by constructor <;> simp
  memory := by simp
  slotCount := by simp
  slotRegs := by simp [SameSlotRegs, State.slot]
  others := by simp [State.slot]

/-- What a module with state leaves alone (R155): it changes the current slot's own state and nothing else of any
slot. -/
theorem State.foldChannels_frame {σ : Type} (s : State) (get : SlotState → Chan σ)
    (put : SlotState → Chan σ → SlotState) (step : σ → F32 → σ × F32) :
    ModuleFrame s (s.foldChannels get put step).advanceSlot where
  globals := by constructor <;> simp
  memory := by simp
  slotCount := by simp [State.foldChannels]
  slotRegs := fun i => by
    simp only [SameSlotRegs, State.slot, State.advanceSlot_slots, State.foldChannels]
    refine ⟨?_, ?_, ?_, ?_⟩ <;> exact List.getD_modify_of_fixed (g := _) _ _ _ _ _ fun _ => rfl
  others := fun i hi => by
    simp only [State.slot, State.advanceSlot_slots, State.foldChannels]
    rw [List.getD_modify_other _ _ _ hi]

/-- What the pitch shifter leaves alone (R252): as any module with state; PS_OVF is outside the frame. -/
theorem State.applyPitch_frame (s : State) (warp : Bool) : ModuleFrame s (s.applyPitch warp).advanceSlot where
  globals := by constructor <;> first | (simp; done) | (simp only [State.advanceSlot_status]; rfl)
  memory := by simp
  slotCount := by simp [State.applyPitch]
  slotRegs := fun i => by
    simp only [SameSlotRegs, State.slot, State.advanceSlot_slots, State.applyPitch]
    refine ⟨?_, ?_, ?_, ?_⟩ <;> exact List.getD_modify_of_fixed (g := _) _ _ _ _ _ fun _ => rfl
  others := fun i hi => by
    simp only [State.slot, State.advanceSlot_slots, State.applyPitch]
    rw [List.getD_modify_other _ _ _ hi]

/-! ### The commit -/

/-- The derivations of the slots, where none fails, are one per slot, each slot's own. -/
theorem deriveSlots_ok {b : Build} {g : GlobalRegs} {n : Nat} {xs : List Slot} {ds : List Derived}
    (h : deriveSlots b g n xs = .ok ds) :
    ds.length = xs.length ∧ ∀ i (hi : i < xs.length) (hd : i < ds.length), deriveSlot b xs[i].shadow g = .ok ds[i] := by
  induction xs generalizing n ds with
  | nil =>
    simp only [deriveSlots, Except.ok.injEq] at h
    subst h
    simp
  | cons x xs ih =>
    simp only [deriveSlots] at h
    split at h
    · cases h
    · split at h
      · cases h
      · rename_i d hd _ ds' hds
        cases h
        obtain ⟨hl, hi⟩ := ih hds
        refine ⟨by simp [hl], fun i hx hy => ?_⟩
        cases i with
        | zero => simpa using hd
        | succ i => simpa using hi i (by simpa using hx) (by simpa using hy)

/-- A refusal names the first slot whose derivation fails, with its code (R153, R294). -/
theorem deriveSlots_error {b : Build} {g : GlobalRegs} {n : Nat} {xs : List Slot} {e : CommitError}
    (h : deriveSlots b g n xs = .error e) :
    ∃ i, ∃ hi : i < xs.length, e.slot = n + i ∧ deriveSlot b xs[i].shadow g = .error e.code
      ∧ ∀ j (hj : j < xs.length), j < i → ∃ d, deriveSlot b xs[j].shadow g = .ok d := by
  induction xs generalizing n with
  | nil => simp [deriveSlots] at h
  | cons x xs ih =>
    simp only [deriveSlots] at h
    split at h
    · rename_i code hcode
      cases h
      exact ⟨0, by simp, rfl, by simpa using hcode, fun j _ hj => absurd hj (by omega)⟩
    · rename_i d hd
      split at h
      · rename_i e' he
        cases h
        obtain ⟨i, hi, h1, h2, h3⟩ := ih he
        refine ⟨i + 1, by simpa using hi, by omega, by simpa using h2, fun j hj hji => ?_⟩
        cases j with
        | zero => exact ⟨d, by simpa using hd⟩
        | succ j => simpa using h3 j (by simpa using hj) (by omega)
      · cases h

@[simp] theorem commitSlots_length (clearAll : Bool) (ds : List Derived) (xs : List Slot) :
    (commitSlots clearAll ds xs).length = xs.length := by
  induction xs generalizing ds with
  | nil => cases ds <;> rfl
  | cons x xs ih => cases ds <;> simp [commitSlots, ih]

/-- Slot i after a successful commit: active if a derivation stands at its index, else inactive (R69, R153). -/
theorem commitSlots_getElem (clearAll : Bool) (ds : List Derived) (xs : List Slot) (i : Nat) (hi : i < xs.length) :
    (commitSlots clearAll ds xs)[i]'(by simpa using hi) =
      if hd : i < ds.length then xs[i].commitActive clearAll ds[i] else xs[i].commitInactive clearAll := by
  induction xs generalizing ds i with
  | nil => simp at hi
  | cons x xs ih =>
    cases ds with
    | nil =>
      cases i with
      | zero => simp [commitSlots]
      | succ i => simpa [commitSlots] using ih [] i (by simpa using hi)
    | cons d ds =>
      cases i with
      | zero => simp [commitSlots]
      | succ i => simpa [commitSlots] using ih ds i (by simpa using hi)

/-- A commit either is refused, or copies the registers, commits every slot and zeroes pend_all (R153). -/
theorem State.commit_ok {s t : State} (h : s.commit = .ok t) :
    ∃ ds, deriveSlots s.build s.shadow 0 (s.slots.take s.shadow.chainLen.toNat) = .ok ds
      ∧ t = { s with reg := s.shadow, slots := commitSlots s.pendAll ds s.slots, pendAll := false } := by
  unfold State.commit at h
  split at h
  · cases h
  · rename_i ds hds
    cases h
    exact ⟨ds, hds, rfl⟩

/-! ### A host access -/

/-- The check of an access passes exactly where it is an aligned word of a mapped target that is not a RAM word while
BUSY (R96-R100). -/
theorem State.checkAccess_ok {s : State} {a : Addr} {size : Nat} {t : Target} :
    s.checkAccess a size = .ok t ↔
      size = 4 ∧ a.toNat % 4 = 0 ∧ targetAt s.build a.toNat = some t ∧ (t.isRam && s.busy) = false := by
  unfold State.checkAccess
  split
  · rename_i h
    constructor
    · intro h'; cases h'
    · rintro ⟨h1, h2, -⟩
      rcases h with h | h
      · exact absurd h1 h
      · exact absurd h2 h
  · rename_i h
    simp only [not_or, not_not] at h
    split
    · rename_i hn
      simp [hn]
    · rename_i u hu
      split
      · rename_i hb
        constructor
        · intro h'; cases h'
        · rintro ⟨-, -, h3, h4⟩
          rw [hu] at h3
          cases h3
          rw [hb] at h4
          cases h4
      · rename_i hb
        simp only [Bool.not_eq_true] at hb
        constructor
        · intro h'
          cases h'
          exact ⟨h.1, h.2, hu, hb⟩
        · rintro ⟨-, -, h3, -⟩
          rw [hu] at h3
          cases h3
          rfl

/-! ### A step -/

/-- What one step is: the engine's action, or the host's next statement (R6, R152). -/
theorem cycle_cases (s : State) :
    (s.hostQueue = [] ∧ cycle s = engineStep s)
      ∨ (∃ x rest, s.hostQueue = x :: rest ∧ s.phase = .idle ∧ cycle s = hostAccess x { s with hostQueue := rest })
      ∨ (∃ rest, s.hostQueue = .wait :: rest ∧ s.phase ≠ .idle ∧ cycle s = engineStep s)
      ∨ (∃ x rest, s.hostQueue = x :: rest ∧ s.phase ≠ .idle ∧ x ≠ .wait ∧ Config.engineFirst s.draws = true
          ∧ cycle s = engineStep { s with draws := s.draws + 1 })
      ∨ (∃ x rest, s.hostQueue = x :: rest ∧ s.phase ≠ .idle ∧ x ≠ .wait ∧ Config.engineFirst s.draws = false
          ∧ cycle s = hostAccess x { s with hostQueue := rest, draws := s.draws + 1 }) := by
  cases hq : s.hostQueue with
  | nil => exact .inl ⟨rfl, by simp [cycle, hq]⟩
  | cons x rest =>
    by_cases hp : s.phase = .idle
    · exact .inr (.inl ⟨x, rest, rfl, hp, by simp [cycle, hq, hp]⟩)
    · by_cases hw : x = .wait
      · subst hw
        exact .inr (.inr (.inl ⟨rest, rfl, hp, by simp [cycle, hq, hp]⟩))
      · cases he : Config.engineFirst s.draws with
        | true => exact .inr (.inr (.inr (.inl ⟨x, rest, rfl, hp, hw, rfl, by simp [cycle, hq, hp, hw, he]⟩)))
        | false => exact .inr (.inr (.inr (.inr ⟨x, rest, rfl, hp, hw, rfl, by simp [cycle, hq, hp, hw, he]⟩)))

end Sys2Proof.Machine
end

