-- ==== Sys2Proof/Laws/Exec.lean ====
section
/-! SUPPORT. What exec can do for each class of instruction: a descriptor, a converter, the commands of a CTRL word; and
what one engine step can do. -/

namespace Sys2Proof.Machine

/-- A state after a slot instruction, before slot_pc advances: another working buffer, PS_OVF and own state of the
current slot, and nothing else. -/
def State.slotChange (s : State) (wb : Chan (List F32)) (psOvf : Bool) (f : SlotState → SlotState) : State :=
  { s with
    wb := wb
    status := { s.status with psOvf := psOvf }
    slots := s.slots.modify s.slotPc.toNat fun x => { x with state := f x.state } }

theorem State.mapSamples_slotChange (s : State) (g : F32 → F32) :
    ∃ wb, s.mapSamples g = s.slotChange wb s.status.psOvf id
      ∧ ∀ c, c < 2 → (wb.get c).length = (s.wb.get c).length := by
  refine ⟨s.wb.mapActive s.reg.channels fun lane => lane.map g, ?_, fun c hc => ?_⟩
  · simp only [State.mapSamples, State.slotChange, id]
    congr 1
    exact (List.modify_id _ _).symm
  · rw [Chan.get_mapActive _ _ _ _ hc]
    split <;> simp

theorem State.foldChannels_slotChange {σ : Type} (s : State) (get : SlotState → Chan σ)
    (put : SlotState → Chan σ → SlotState) (step : σ → F32 → σ × F32) :
    ∃ wb lanes, s.foldChannels get put step = s.slotChange wb s.status.psOvf (fun st => put st lanes)
      ∧ (∀ c, c < 2 → (wb.get c).length = (s.wb.get c).length)
      ∧ ∀ c, c < 2 → lanes.get c =
          if c < s.reg.channels then (foldLane step ((get s.current.state).get c) (s.wb.get c)).1
          else (get s.current.state).get c := by
  refine ⟨_, _, rfl, fun c hc => ?_, fun c hc => ?_⟩
  · rw [Chan.get_snd, Chan.get_mapActive _ _ _ _ hc]
    split <;> simp
  · rw [Chan.get_fst, Chan.get_mapActive _ _ _ _ hc]
    split <;> simp

theorem State.applyPitch_slotChange (s : State) (warp : Bool) :
    ∃ wb ovf lanes, s.applyPitch warp = s.slotChange wb ovf (fun st => { st with pitch := lanes })
      ∧ (∀ c, c < 2 → (wb.get c).length = (s.wb.get c).length)
      ∧ ∀ c, c < 2 → lanes.get c =
          if c < s.reg.channels then
            (foldLane (pitchStep warp s.build s.current.derived.k0.toNat) (s.current.state.pitch.get c, false)
              (s.wb.get c)).1.1
          else s.current.state.pitch.get c := by
  have hff : ∀ c, (⟨false, false⟩ : Chan Bool).get c = false := fun c => by unfold Chan.get; split <;> rfl
  refine ⟨_, _, _, rfl, fun c hc => ?_, fun c hc => ?_⟩
  · rw [Chan.get_snd, Chan.get_mapActive _ _ _ _ hc]
    split <;> simp
  · rw [Chan.get_fst, Chan.get_fst, Chan.get_mapActive _ _ _ _ hc]
    split <;> simp [hff]

/-- The eighteen instructions that a DESC word decodes to. -/
def Instr.isDesc : Instr → Bool
  | .nop | .gain | .dist | .odrive | .sat => true
  | .filterLpS12 | .filterLpS24 | .filterHpS12 | .filterHpS24 | .filterBpS12 | .filterBpS24 => true
  | .filterLsS12 | .filterLsS24 | .filterHsS12 | .filterHsS24 => true
  | .delay | .pitch | .pitchWarp => true
  | .conv16 | .conv32 | .convsil | .run | .stateclear | .reset | .slotclr _ => false

theorem decodeDesc_isDesc {w : Word} {i : Instr} (h : decodeDesc w = .ok i) : Instr.isDesc i = true := by
  simp only [decodeDesc] at h
  split at h
  · cases h
  · split at h
    · cases h
    · split at h <;> cases h <;> try rfl
      · unfold filterOf
        repeat' split
        all_goals rfl
      · split <;> rfl

theorem decodeFormat_cases {w : Word} {i : Instr} (h : decodeFormat w = .ok i) :
    i = .conv16 ∨ i = .conv32 ∨ i = .convsil := by
  simp only [decodeFormat] at h
  repeat' split at h
  all_goals cases h
  all_goals simp

/-- A descriptor's instruction always answers: one slot change, then the advance of slot_pc (R155). -/
theorem exec_desc {i : Instr} (s : State) (h : Instr.isDesc i = true) :
    ∃ wb ovf f, exec i s = .next (s.slotChange wb ovf f).advanceSlot
      ∧ (∀ c, c < 2 → (wb.get c).length = (s.wb.get c).length)
      ∧ (i ≠ .delay → ∀ st, (f st).delay = st.delay)
      ∧ (i ≠ .pitch → i ≠ .pitchWarp → ∀ st, (f st).pitch = st.pitch) := by
  have drive : ∀ g : F32 → F32, ∃ wb ovf f, Host.Outcome.next (φ := Fault) (ρ := Refusal) (s.mapSamples g).advanceSlot =
      .next (s.slotChange wb ovf f).advanceSlot ∧ (∀ c, c < 2 → (wb.get c).length = (s.wb.get c).length)
      ∧ ∀ st, f st = st := fun g => by
    obtain ⟨wb, h1, h2⟩ := s.mapSamples_slotChange g
    exact ⟨wb, _, id, by rw [h1], h2, fun _ => rfl⟩
  have filter : ∀ n, ∃ wb ovf f, Host.Outcome.next (φ := Fault) (ρ := Refusal) (s.applyFilter n).advanceSlot =
      .next (s.slotChange wb ovf f).advanceSlot ∧ (∀ c, c < 2 → (wb.get c).length = (s.wb.get c).length)
      ∧ ∀ st, (f st).delay = st.delay ∧ (f st).pitch = st.pitch := fun n => by
    obtain ⟨wb, lanes, h1, h2, -⟩ := s.foldChannels_slotChange (fun x => x.filter)
      (fun x lanes => { x with filter := lanes }) (filterStep n s.current.derived)
    exact ⟨wb, _, _, congrArg (fun u => Host.Outcome.next (State.advanceSlot u)) h1, h2, fun _ => ⟨rfl, rfl⟩⟩
  have pitch : ∀ w, ∃ wb ovf f, Host.Outcome.next (φ := Fault) (ρ := Refusal) (s.applyPitch w).advanceSlot =
      .next (s.slotChange wb ovf f).advanceSlot ∧ (∀ c, c < 2 → (wb.get c).length = (s.wb.get c).length)
      ∧ ∀ st, (f st).delay = st.delay := fun w => by
    obtain ⟨wb, ovf, lanes, h1, h2, -⟩ := s.applyPitch_slotChange w
    exact ⟨wb, _, _, congrArg (fun u => Host.Outcome.next (State.advanceSlot u)) h1, h2, fun _ => rfl⟩
  have driveW : ∀ g : F32 → F32, ∃ wb ovf f, Host.Outcome.next (φ := Fault) (ρ := Refusal)
      (s.mapSamples g).advanceSlot = .next (s.slotChange wb ovf f).advanceSlot
      ∧ (∀ c, c < 2 → (wb.get c).length = (s.wb.get c).length)
      ∧ (∀ st, (f st).delay = st.delay) ∧ ∀ st, (f st).pitch = st.pitch := fun g => by
    obtain ⟨wb, ovf, f, h1, h2, h3⟩ := drive g
    exact ⟨wb, ovf, f, h1, h2, fun st => by rw [h3], fun st => by rw [h3]⟩
  cases i
  case nop =>
    refine ⟨s.wb, s.status.psOvf, id, ?_, fun _ _ => rfl, fun _ _ => rfl, fun _ _ _ => rfl⟩
    simp only [exec, execNop, State.slotChange, id]
    congr 2
    cases s
    simp only [State.mk.injEq, true_and, and_true]
    exact (List.modify_id _ _).symm
  case gain | dist | odrive | sat =>
    obtain ⟨wb, ovf, f, h1, h2, h3, h4⟩ := driveW _
    exact ⟨wb, ovf, f, h1, h2, fun _ => h3, fun _ _ => h4⟩
  case delay =>
    obtain ⟨wb, lanes, h1, h2, -⟩ := s.foldChannels_slotChange (fun x => x.delay)
      (fun x lanes => { x with delay := lanes }) (delayStep s.current.derived.k0.toNat s.current.derived.e1)
    exact ⟨wb, _, _, congrArg (fun u => Host.Outcome.next (State.advanceSlot u)) h1, h2, fun hd => absurd rfl hd,
      fun _ _ _ => rfl⟩
  case pitch =>
    obtain ⟨wb, ovf, f, h1, h2, h3⟩ := pitch false
    exact ⟨wb, ovf, f, h1, h2, fun _ => h3, fun hp => absurd rfl hp⟩
  case pitchWarp =>
    obtain ⟨wb, ovf, f, h1, h2, h3⟩ := pitch true
    exact ⟨wb, ovf, f, h1, h2, fun _ => h3, fun _ hp => absurd rfl hp⟩
  case conv16 | conv32 | convsil | run | stateclear | reset | slotclr => cases h
  all_goals
    obtain ⟨wb, ovf, f, h1, h2, h3⟩ := filter _
    exact ⟨wb, ovf, f, h1, h2, fun _ st => (h3 st).1, fun _ _ st => (h3 st).2⟩

/-- A converter always answers: words stored from OUT[0] on, two per sample at most, and the run finished (R270, R274). -/
theorem exec_format {w : Word} {i : Instr} (s : State) (h : decodeFormat w = .ok i) :
    ∃ ws u, exec i s = .next (s.storeOut ws u).finishCompleted ∧ ws.length ≤ 2 * (s.reg.frames * s.reg.channels) := by
  rcases decodeFormat_cases h with rfl | rfl | rfl
  · exact ⟨_, _, rfl, by simp [State.interleaved]; omega⟩
  · exact ⟨_, _, rfl, by simp [State.interleaved]; omega⟩
  · exact ⟨_, _, rfl, by simp⟩

/-- A RUN of an idle block is a commit, refused or not (R150, R153). -/
theorem exec_run_idle (s : State) (h : s.phase = .idle) :
    (∃ t, s.commit = .ok t ∧ exec .run s = .next { t with phase := .commit, slotPc := 0xFE#8, verdict := .accepted })
      ∨ ∃ e, s.commit = .error e ∧ exec .run s = .next (s.refuseRun e) := by
  simp only [exec, execRun, h, if_true]
  cases hc : s.commit with
  | ok t => exact .inl ⟨t, rfl, rfl⟩
  | error e => exact .inr ⟨e, rfl, rfl⟩

/-- A CTRL word's commands: a reset alone, or a STATE_CLEAR or nothing, then a RUN or nothing (R161). -/
theorem execAll_ctrl (s : State) (w : Word) :
    execAll (decodeCtrl w) s = exec .reset s
      ∨ ∃ p : Bool, (p = true ∨ p = s.pendAll)
        ∧ (execAll (decodeCtrl w) s = .next { s with pendAll := p }
          ∨ execAll (decodeCtrl w) s = exec .run { s with pendAll := p }) := by
  have one : ∀ i u, execAll [i] u = exec i u := fun i u => by
    simp only [execAll]
    cases exec i u <;> rfl
  unfold decodeCtrl
  cases w.getLsbD 2
  · right
    cases w.getLsbD 1
    · refine ⟨s.pendAll, .inr rfl, ?_⟩
      cases w.getLsbD 0
      · exact .inl rfl
      · exact .inr (one _ _)
    · refine ⟨true, .inl rfl, ?_⟩
      cases w.getLsbD 0
      · exact .inl rfl
      · exact .inr (one .run _)
  · exact .inl (one _ _)

/-- What one engine step can do: nothing while idle, the end of the commit, a slot change, or a conversion; or a stop on
a committed word that no write accepts (R150). -/
theorem engineStep_cases (s : State) :
    (s.phase = .idle ∧ engineStep s = .next s)
      ∨ (s.phase = .commit ∧ engineStep s = .next s.endCommit)
      ∨ (s.phase = .process ∧ ∃ i, decodeDesc s.current.reg.desc = .ok i ∧ engineStep s = exec i s)
      ∨ (s.phase = .convert ∧ ∃ i, decodeFormat s.reg.format = .ok i ∧ engineStep s = exec i s)
      ∨ (∃ f, engineStep s = .fault f
        ∧ (s.phase = .process ∧ legalDesc s.current.reg.desc = false
          ∨ s.phase = .convert ∧ ∃ e, decodeFormat s.reg.format = .error e)) := by
  cases hp : s.phase with
  | idle => exact .inl ⟨rfl, by simp [engineStep, hp]⟩
  | commit => exact .inr (.inl ⟨rfl, by simp [engineStep, hp]⟩)
  | process =>
    cases hd : decodeDesc s.current.reg.desc with
    | ok i => exact .inr (.inr (.inl ⟨rfl, i, rfl, by simp [engineStep, hp, hd]⟩))
    | error e =>
      exact .inr (.inr (.inr (.inr ⟨_, by simp only [engineStep, hp, hd]; rfl, .inl ⟨rfl, by simp [legalDesc, hd]⟩⟩)))
  | convert =>
    cases hd : decodeFormat s.reg.format with
    | ok i => exact .inr (.inr (.inr (.inl ⟨rfl, i, rfl, by simp [engineStep, hp, hd]⟩)))
    | error e =>
      exact .inr (.inr (.inr (.inr ⟨_, by simp only [engineStep, hp, hd]; rfl, .inr ⟨rfl, e, rfl⟩⟩)))

end Sys2Proof.Machine
end

