-- ==== Sys2Proof/Laws/Host.lean ====
section
/-! SUPPORT. What a host access can do, once: the target of each address, accesses that pass the checks, what any
access leaves of the machine; the derivations of a commit; and how a property passes from accesses and engine steps to
the step (spec/20_memory.md R91-R100, spec/40_sequencer.md R153). -/

namespace Sys2Proof.Machine

/-- A 20-bit address from a number below 2^20. -/
theorem toNat_ofNat_addr {n : Nat} (h : n < 1048576) : (BitVec.ofNat 20 n).toNat = n := by
  rw [BitVec.toNat_ofNat, Nat.mod_eq_of_lt h]

/-- The target of an offset of a slot block. -/
theorem targetAt_slot (b : Build) (i o : Nat) (h64 : b.nSlots ≤ 64) (hi : i < b.nSlots) (ho : o < 0x40) :
    targetAt b (0x1000 + 0x40 * i + o) = (slotRegAt o).map (.slot i) := by
  unfold targetAt
  rw [if_neg (by omega), if_pos (by omega)]
  have h1 : (0x1000 + 0x40 * i + o - 0x1000) / 0x40 = i := by omega
  have h2 : (0x1000 + 0x40 * i + o - 0x1000) % 0x40 = o := by omega
  rw [h1, h2, if_pos hi]

/-- The target of IN[i]. -/
theorem targetAt_in (b : Build) (i : Nat) (hb : b.maxBuffer ≤ 16384) (hi : i < 2 * b.maxBuffer) :
    targetAt b (0x40000 + 4 * i) = some (.inRam i) := by
  unfold targetAt
  rw [if_neg (by omega), if_neg (by omega), if_pos (by omega)]
  have h1 : (0x40000 + 4 * i - 0x40000) / 4 = i := by omega
  rw [h1, if_pos hi]

/-- The target of OUT[i]. -/
theorem targetAt_out (b : Build) (i : Nat) (hb : b.maxBuffer ≤ 16384) (hi : i < 4 * b.maxBuffer) :
    targetAt b (0x80000 + 4 * i) = some (.outRam i) := by
  unfold targetAt
  rw [if_neg (by omega), if_neg (by omega), if_neg (by omega), if_pos (by omega)]
  have h1 : (0x80000 + 4 * i - 0x80000) / 4 = i := by omega
  rw [h1, if_pos hi]

/-- A target is a RAM word exactly from 0x40000 on. -/
theorem isRam_of_targetAt {b : Build} {a : Nat} {t : Target} (h : targetAt b a = some t) : t.isRam = decide (0x40000 ≤ a) := by
  unfold targetAt at h
  split at h
  · obtain ⟨r, -, rfl⟩ := Option.map_eq_some_iff.mp h; simp [Target.isRam]; omega
  · split at h
    · split at h
      · obtain ⟨r, -, rfl⟩ := Option.map_eq_some_iff.mp h; simp [Target.isRam]; omega
      · cases h
    · split at h
      · split at h
        · cases h; simp [Target.isRam]; omega
        · cases h
      · split at h
        · split at h
          · cases h; simp [Target.isRam]; omega
          · cases h
        · cases h

/-- A write that passes the checks acts on its target. -/
theorem hostAccess_wr {s : State} {a : Addr} {w : Word} {t : Target} (ha : a.toNat % 4 = 0) (ht : targetAt s.build a.toNat = some t)
    (hr : t.isRam = false ∨ s.busy = false) : hostAccess (.wr a 4 w) s = s.writeTarget a t w := by
  have : s.checkAccess a 4 = .ok t := State.checkAccess_ok.mpr ⟨rfl, ha, ht, by rcases hr with h | h <;> simp [h]⟩
  simp only [hostAccess, this]

/-- A read that passes the checks returns its target's value. -/
theorem hostAccess_rd {s : State} {a : Addr} {t : Target} (ha : a.toNat % 4 = 0) (ht : targetAt s.build a.toNat = some t)
    (hr : t.isRam = false ∨ s.busy = false) : hostAccess (.rd a 4) s = .next (s.reply (s.readTarget t)) := by
  have : s.checkAccess a 4 = .ok t := State.checkAccess_ok.mpr ⟨rfl, ha, ht, by rcases hr with h | h <;> simp [h]⟩
  simp only [hostAccess, this]

/-- The bits of a flag at its place. -/
theorem getLsbD_bitAt (b : Bool) (k n : Nat) (hk : k < 32) : (bitAt b k).getLsbD n = (b && decide (n = k)) := by
  unfold bitAt; cases b
  · simp
  · rw [if_pos rfl, BitVec.getLsbD_ofNat, Nat.testBit_two_pow]
    by_cases h : k = n
    · simp [h]; omega
    · have : ¬ n = k := fun e => h e.symm
      simp [h, this]

/-- A single command runs as itself. -/
theorem execAll_one (i : Instr) (s : State) : execAll [i] s = exec i s := by
  simp only [execAll]; cases exec i s <;> rfl

/-- What an SCTL word runs. -/
theorem execAll_sctl (s : State) (i w) : execAll (decodeSctl i w) s = .next s ∨ execAll (decodeSctl i w) s = exec (.slotclr i) s := by
  unfold decodeSctl; split
  · right; simp only [execAll]; cases exec (.slotclr i) s <;> rfl
  · left; rfl

/-- The i-th word written from OUT[0] on. -/
theorem wordAt_writeWords_out (s : State) (ws : List Word) (i : Nat) (h : i < ws.length) :
   Memory.wordAt (Memory.writeWords s.mem (outAddr 0) ws) (outAddr i) = ws[i] := by
  have := Memory.wordAt_writeWords_same s.mem (outAddr 0) ws i h
  rw [show outAddr i = outAddr 0 + 4 * i by simp [outAddr], this]

/-- A slot below N_SLOTS. -/
theorem State.slot_eq_getElem {s : State} {i : Nat} (h : i < s.slots.length) : s.slot i = s.slots[i] := by
  simp [State.slot, h]

/-- The elements of a list with one changed. -/
theorem mem_of_mem_modify {α} {l : List α} {i : Nat} {f : α → α} {x : α} (h : x ∈ l.modify i f) : x ∈ l ∨ ∃ y ∈ l, x = f y := by
  obtain ⟨n, hn⟩ := List.mem_iff_getElem?.mp h
  rw [List.getElem?_modify] at hn
  cases hl : l[n]? with
  | none => rw [hl] at hn; cases hn
  | some y =>
    rw [hl] at hn
    have hy := List.mem_of_getElem? hl
    simp at hn
    split at hn
    · right; exact ⟨y, hy, hn.symm⟩
    · left; rw [← hn]; exact hy

/-- The slots after a commit come from those before. -/
theorem mem_of_mem_commitSlots {ca ds} {l : List Slot} {x} (h : x ∈ commitSlots ca ds l) : (∃ y ∈ l, ∃ d, x = y.commitActive ca d) ∨ ∃ y ∈ l, x = y.commitInactive ca := by
  induction l generalizing ds with
  | nil => cases ds <;> simp [commitSlots] at h
  | cons y l ih =>
    cases ds with
    | nil =>
      simp only [commitSlots, List.mem_cons] at h
      rcases h with rfl | h
      · right; exact ⟨y, by simp, rfl⟩
      · rcases ih h with ⟨z, hz, r⟩ | ⟨z, hz, r⟩
        · left; exact ⟨z, by simp [hz], r⟩
        · right; exact ⟨z, by simp [hz], r⟩
    | cons d ds =>
      simp only [commitSlots, List.mem_cons] at h
      rcases h with rfl | h
      · left; exact ⟨y, by simp, d, rfl⟩
      · rcases ih h with ⟨z, hz, r⟩ | ⟨z, hz, r⟩
        · left; exact ⟨z, by simp [hz], r⟩
        · right; exact ⟨z, by simp [hz], r⟩

/-- All active slots derive. -/
theorem deriveSlots_of_forall {b : Build} {g : GlobalRegs} {xs : List Slot} {n : Nat} {d : Nat → Derived}
    (h : ∀ i (hi : i < xs.length), deriveSlot b xs[i].shadow g = .ok (d i)) :
    deriveSlots b g n xs = .ok ((List.range xs.length).map d) := by
  induction xs generalizing n d with
  | nil => rfl
  | cons x xs ih =>
    have h0 := h 0 (by simp)
    simp at h0
    have := ih (n := n+1) (d := fun i => d (i+1)) (fun i hi => by have := h (i+1) (by simp; omega); rwa [List.getElem_cons_succ] at this)
    simp only [deriveSlots, h0, this, List.length_cons, List.range_succ_eq_map, List.map_cons, List.map_map]
    rfl

/-- The first failure refuses. -/
theorem deriveSlots_first_error {b : Build} {g : GlobalRegs} {xs : List Slot} {n i : Nat} {c : ErrCode}
    (hi : i < xs.length) (h : ∀ j (hj : j < xs.length), j < i → ∃ d, deriveSlot b xs[j].shadow g = .ok d)
    (he : deriveSlot b xs[i].shadow g = .error c) :
    deriveSlots b g n xs = .error ⟨c, n + i⟩ := by
  induction xs generalizing n i with
  | nil => simp at hi
  | cons x xs ih =>
    cases i with
    | zero => simp at he; simp [deriveSlots, he]
    | succ i =>
      obtain ⟨d, hd⟩ := h 0 (by simp) (by omega)
      simp at hd
      have := ih (n := n+1) (i := i) (by simpa using hi) (fun j hj hji => by have := h (j+1) (by simp; omega) (by omega); rwa [List.getElem_cons_succ] at this) (by simpa using he)
      simp only [deriveSlots, hd, this]
      congr 2; omega

/-- Slot i after a commit. -/
theorem slot_of_commitSlots {s t : State} {ds : List Derived} {ca : Bool} {i : Nat} (ht : t.slots = commitSlots ca ds s.slots) (hi : i < s.slots.length) :
    t.slot i = if hd : i < ds.length then (s.slot i).commitActive ca ds[i] else (s.slot i).commitInactive ca := by
  have hi' : i < t.slots.length := by rw [ht]; simpa using hi
  rw [State.slot_eq_getElem hi', State.slot_eq_getElem hi]
  simp only [ht]
  exact commitSlots_getElem _ _ _ _ hi

/-- What an access that is neither a RUN that starts a run nor a SOFT_RESET leaves of the machine. -/
structure HostKeeps (s t : State) : Prop where
  build : t.build = s.build
  reg : t.reg = s.reg
  phase : t.phase = s.phase
  wb : t.wb = s.wb
  pc : t.slotPc = s.slotPc
  verdict : t.verdict = s.verdict
  slots : t.slots = s.slots ∨ ∃ i f, t.slots = s.slots.modify i f ∧ ∀ x, (f x).reg = x.reg ∧ (f x).derived = x.derived ∧ (f x).state = x.state

/-- An access that does nothing keeps everything. -/
theorem HostKeeps.refl (s : State) : HostKeeps s s := ⟨rfl, rfl, rfl, rfl, rfl, rfl, .inl rfl⟩

/-- Everything a host access can do: keep the machine but for shadow registers and one IN word, start a run, or reset. -/
theorem hostAccess_cases {s t : State} (x : HostOp) (h : hostAccess x s = .next t) :
    (HostKeeps s t ∧ (t.mem = s.mem ∨ s.phase = .idle ∧ ∃ i w, i < 2 * s.build.maxBuffer ∧ t.mem = Memory.writeWord s.mem (inAddr i) w))
    ∨ (s.phase = .idle ∧ ∃ p, exec .run { s with pendAll := p } = .next t)
    ∨ (exec .reset s = .next t ∧ x.isReset = true) := by
  have hr : ∀ c k a, HostKeeps s (s.raiseError c k a) := fun _ _ _ => ⟨rfl, rfl, rfl, rfl, rfl, rfl, .inl rfl⟩
  cases x with
  | rd a n =>
    left
    simp only [hostAccess] at h
    split at h <;> cases h <;> exact ⟨⟨rfl, rfl, rfl, rfl, rfl, rfl, .inl rfl⟩, .inl rfl⟩
  | wait => left; cases h; exact ⟨⟨rfl, rfl, rfl, rfl, rfl, rfl, .inl rfl⟩, .inl rfl⟩
  | wr a size w =>
    simp only [hostAccess] at h
    split at h
    · left; cases h; exact ⟨hr _ _ _, .inl rfl⟩
    · rename_i tg htg
      rw [State.checkAccess_ok] at htg
      obtain ⟨hs4, hal, htg, hbusy⟩ := htg
      cases tg with
      | inRam i =>
        left; cases h
        have hp : s.phase = .idle := by simpa [Target.isRam, State.busy] using hbusy
        refine ⟨⟨rfl, rfl, rfl, rfl, rfl, rfl, .inl rfl⟩, .inr ⟨hp, i, w, ?_, rfl⟩⟩
        unfold targetAt at htg
        split at htg
        · obtain ⟨r, -, h⟩ := Option.map_eq_some_iff.mp htg; cases h
        · split at htg
          · split at htg
            · obtain ⟨r, -, h⟩ := Option.map_eq_some_iff.mp htg; cases h
            · cases htg
          · split at htg
            · split at htg
              · cases htg; assumption
              · cases htg
            · split at htg
              · split at htg <;> cases htg
              · cases htg
      | outRam i => left; cases h; exact ⟨.refl s, .inl rfl⟩
      | slot i r =>
        left
        cases r <;> simp only [State.writeTarget, State.writeSlot] at h
        case desc =>
          cases h; unfold State.writeDesc; split
          · exact ⟨hr _ _ _, .inl rfl⟩
          · exact ⟨⟨rfl, rfl, rfl, rfl, rfl, rfl, .inr ⟨_, _, rfl, fun _ => ⟨rfl, rfl, rfl⟩⟩⟩, .inl rfl⟩
        case p0 | p1 | p2 =>
          cases h; unfold State.writeParam; split
          · exact ⟨hr _ _ _, .inl rfl⟩
          · exact ⟨⟨rfl, rfl, rfl, rfl, rfl, rfl, .inr ⟨_, _, rfl, fun _ => ⟨rfl, rfl, rfl⟩⟩⟩, .inl rfl⟩
        case sctl =>
          rcases execAll_sctl s i w with h1 | h1 <;> rw [h1] at h
          · cases h; exact ⟨.refl s, .inl rfl⟩
          · simp only [exec, execSlotclr] at h
            split at h <;> cases h
            · exact ⟨⟨rfl, rfl, rfl, rfl, rfl, rfl, .inr ⟨_, _, rfl, fun _ => ⟨rfl, rfl, rfl⟩⟩⟩, .inl rfl⟩
            · exact ⟨hr _ _ _, .inl rfl⟩
        all_goals (cases h; exact ⟨.refl s, .inl rfl⟩)
      | global r =>
        cases r <;> simp only [State.writeTarget, State.writeGlobal] at h
        case ctrl =>
          have hrun : ∀ p, exec .run { s with pendAll := p } = .next t → 
             (HostKeeps s t ∧ (t.mem = s.mem ∨ s.phase = .idle ∧ ∃ i w, i < 2 * s.build.maxBuffer ∧ t.mem = Memory.writeWord s.mem (inAddr i) w)) ∨ (s.phase = .idle ∧ ∃ p, exec .run { s with pendAll := p } = .next t) := by
            intro p h
            by_cases hp : s.phase = .idle
            · exact .inr ⟨hp, p, h⟩
            · left; simp only [exec, execRun, if_neg hp] at h; cases h
              exact ⟨⟨rfl, rfl, rfl, rfl, rfl, rfl, .inl rfl⟩, .inl rfl⟩
          have hctrl : a = ctrlAddr := by
            have : a.toNat = 0x40 := by
              unfold targetAt at htg
              split at htg
              · obtain ⟨r, hr, h⟩ := Option.map_eq_some_iff.mp htg; cases h
                unfold globalRegAt at hr
                split at hr <;> first | (cases hr; done) | assumption
              · split at htg
                · split at htg
                  · obtain ⟨r, -, h⟩ := Option.map_eq_some_iff.mp htg; cases h
                  · cases htg
                · split at htg
                  · split at htg <;> cases htg
                  · split at htg
                    · split at htg <;> cases htg
                    · cases htg
            apply BitVec.eq_of_toNat_eq; rw [this]; rfl
          by_cases h2 : w.getLsbD 2 = true
          · right; right
            have : decodeCtrl w = [.reset] := by unfold decodeCtrl; rw [if_pos h2]
            rw [this] at h
            simp only [execAll, exec, execReset] at h
            exact ⟨h, by simp only [HostOp.isReset, hctrl, hs4, h2]; rfl⟩
          · have : ∃ p, execAll (decodeCtrl w) s = .next { s with pendAll := p } ∨ execAll (decodeCtrl w) s = exec .run { s with pendAll := p } := by
              simp only [Bool.not_eq_true] at h2
              unfold decodeCtrl; rw [h2]
              have one : ∀ i u, execAll [i] u = exec i u := fun i u => by
                simp only [execAll]; cases exec i u <;> rfl
              cases w.getLsbD 1 <;> cases w.getLsbD 0
              · exact ⟨s.pendAll, .inl rfl⟩
              · exact ⟨s.pendAll, .inr (one _ _)⟩
              · exact ⟨true, .inl rfl⟩
              · exact ⟨true, .inr (one .run _)⟩
            obtain ⟨p, h1 | h1⟩ := this <;> rw [h1] at h
            · left; cases h; exact ⟨⟨rfl, rfl, rfl, rfl, rfl, rfl, .inl rfl⟩, .inl rfl⟩
            · rcases hrun p h with h | h
              · exact .inl h
              · exact .inr (.inl h)
        case sampleRate => left; cases h; unfold State.writeSampleRate; split <;> exact ⟨⟨rfl, rfl, rfl, rfl, rfl, rfl, .inl rfl⟩, .inl rfl⟩
        case format => left; cases h; unfold State.writeFormat; split <;> exact ⟨⟨rfl, rfl, rfl, rfl, rfl, rfl, .inl rfl⟩, .inl rfl⟩
        case bufferSize => left; cases h; unfold State.writeBufferSize; split <;> exact ⟨⟨rfl, rfl, rfl, rfl, rfl, rfl, .inl rfl⟩, .inl rfl⟩
        case chainLen => left; cases h; unfold State.writeChainLen; split <;> exact ⟨⟨rfl, rfl, rfl, rfl, rfl, rfl, .inl rfl⟩, .inl rfl⟩
        all_goals (left; cases h; exact ⟨⟨rfl, rfl, rfl, rfl, rfl, rfl, .inl rfl⟩, .inl rfl⟩)

/-- A property that queue, replies and draws do not affect, kept by every access and every engine step, is kept by the step. -/
theorem step_induction {P : State → Prop} (hq : ∀ s : State, ∀ q r d, P s → P { s with hostQueue := q, replies := r, draws := d })
    (hh : ∀ s t x, P s → hostAccess x s = .next t → P t) (he : ∀ s t, P s → engineStep s = .next t → P t)
    (s t : State) (h : P s) (hs : step s = .next t) : P t := by
  have h1 : ∀ q d, P { s with hostQueue := q, draws := d } := fun q d => hq s q s.replies d h
  rcases cycle_cases s with ⟨-, e⟩ | ⟨x, rest, -, -, e⟩ | ⟨rest, -, -, e⟩ | ⟨x, rest, -, -, -, -, e⟩ | ⟨x, rest, -, -, -, -, e⟩
  all_goals (unfold step at hs; rw [e] at hs)
  · exact he _ _ h hs
  · exact hh _ _ _ (h1 rest s.draws) hs
  · exact he _ _ h hs
  · exact he _ _ (h1 s.hostQueue _) hs
  · exact hh _ _ _ (h1 rest _) hs

/-- A legal FORMAT selects a converter. -/
theorem decodeFormat_of_legal {w : Word} (h : legalFormat w = true) : ∃ i, decodeFormat w = .ok i := by
  unfold legalFormat checkFormat at h
  unfold decodeFormat
  split at h
  · simp at h
  · split at h
    · simp at h
    · rename_i h1 h2
      by_cases a : fmtDepth w = 16
      · exact ⟨_, by rw [if_pos a]⟩
      · by_cases b : fmtDepth w = 32
        · exact ⟨_, by rw [if_neg a, if_pos b]⟩
        · by_cases c : fmtDepth w = 64
          · exact ⟨_, by rw [if_neg a, if_neg b, if_pos c]⟩
          · exact absurd ⟨a, b, c⟩ h2

/-- A legal FORMAT has one or two channels. -/
theorem channels_of_legal {w : Word} (h : legalFormat w = true) : 1 ≤ fmtChannels w ∧ fmtChannels w ≤ 2 := by
  unfold legalFormat checkFormat at h
  split at h
  · simp at h
  · split at h
    · simp at h
    · split at h
      · simp at h
      · omega

/-- A property of every listed address is kept by a write inside it. -/
theorem Memory.write_forall {P : Nat → Prop} {m : Memory} (h : ∀ c ∈ m, P c.1) (a : Nat) (b : Byte) (ha : P a) : ∀ c ∈ Memory.write m a b, P c.1 := by
  intro c hc
  rcases Memory.mem_write hc with rfl | hc
  · exact ha
  · exact h c hc

/-- The same for a word. -/
theorem Memory.writeWord_forall {P : Nat → Prop} {m : Memory} (h : ∀ c ∈ m, P c.1) (a : Nat) (w : Word) (ha : ∀ j, j < 4 → P (a + j)) : ∀ c ∈ Memory.writeWord m a w, P c.1 :=
  Memory.write_forall (Memory.write_forall (Memory.write_forall (Memory.write_forall h _ _ (ha 0 (by omega))) _ _ (ha 1 (by omega))) _ _ (ha 2 (by omega))) _ _ (ha 3 (by omega))

/-- The same for consecutive words. -/
theorem Memory.writeWords_forall {P : Nat → Prop} {m : Memory} (ws : List Word) (h : ∀ c ∈ m, P c.1) (a : Nat) (ha : ∀ j, j < 4 * ws.length → P (a + j)) : ∀ c ∈ Memory.writeWords m a ws, P c.1 := by
  induction ws generalizing m a with
  | nil => exact h
  | cons w ws ih =>
    simp only [List.length_cons] at ha
    refine ih (Memory.writeWord_forall h a w fun j hj => ha j (by omega)) (a+4) fun j hj => ?_
    have := ha (4 + j) (by omega)
    rwa [← Nat.add_assoc] at this

end Sys2Proof.Machine
end

