-- ==== Sys2Proof/Laws/Lanes.lean ====
section
/-! SUPPORT. What each module does to one lane, once per shared step: the biquad and its cascade, the delay line, the
pitch shifter; and the bounds each step keeps (spec/41_filter.md R189, spec/42_delay.md R212, spec/44_pitch_shift.md
R252). -/

namespace Sys2Proof.Machine

/-- Folding biquadStep over a lane is a BiquadRun. -/
theorem biquad_fold (k : Derived) (h : Biquad) (xs : List F32) :
    BiquadRun k h xs (foldLane (biquadStep k) h xs).2 (foldLane (biquadStep k) h xs).1 := by
  induction xs generalizing h with
  | nil => exact ⟨rfl, fun n hn => absurd hn (by simp), rfl⟩
  | cons x xs ih =>
    have := ih (biquadStep k h x).1
    refine ⟨by simp, ?_, ?_⟩
    · intro n hn
      cases n with
      | zero => rfl
      | succ n => 
        have := this.recurrence n (by simpa using hn)
        simpa [foldLane, biquadStep] using this
    · have := this.history
      simp only [foldLane, List.length_cons]
      rw [this]
      simp [biquadStep]

/-- A cascade of one stage: the stage, then the clip; stage 1 is untouched. -/
theorem filterStep_one_fold (k : Derived) (h : FilterLane) (xs : List F32) :
    foldLane (filterStep 1 k) h xs = (⟨(foldLane (biquadStep k) h.stage0 xs).1, h.stage1⟩, (foldLane (biquadStep k) h.stage0 xs).2.map fun v => Binary32.clip v Binary32.negOne Binary32.one) := by
  induction xs generalizing h with
  | nil => rfl
  | cons x xs ih => simp [foldLane, ih, filterStep]

/-- A cascade of two stages: stage 1 takes all of stage 0's outputs. -/
theorem filterStep_two_fold (k : Derived) (h : FilterLane) (xs : List F32) :
    foldLane (filterStep 2 k) h xs = (⟨(foldLane (biquadStep k) h.stage0 xs).1, (foldLane (biquadStep k) h.stage1 (foldLane (biquadStep k) h.stage0 xs).2).1⟩,
      (foldLane (biquadStep k) h.stage1 (foldLane (biquadStep k) h.stage0 xs).2).2.map fun v => Binary32.clip v Binary32.negOne Binary32.one) := by
  induction xs generalizing h with
  | nil => rfl
  | cons x xs ih => simp [foldLane, ih, filterStep]

/-- Folding delayStep over a lane is a DelayRun. -/
theorem delay_fold (d : Nat) (fb : F32) (hd : 0 < d) (h xs : List F32) (hl : h.length ≤ d) :
    DelayRun d fb h xs (foldLane (delayStep d fb) h xs).2 (foldLane (delayStep d fb) h xs).1 := by
  induction xs generalizing h with
  | nil => refine ⟨rfl, fun n hn => absurd hn (by simp), ?_⟩
           simp [foldLane]; rw [Nat.sub_eq_zero_of_le hl]; rfl
  | cons x xs ih =>
    by_cases hf : h.length = d
    · obtain ⟨h0, h', rfl⟩ : ∃ a l, h = a :: l := by
        cases h with
        | nil => simp at hf; omega
        | cons a l => exact ⟨a, l, rfl⟩
      have hstep : delayStep d fb (h0 :: h') x = (h' ++ [Binary32.add32 x (Binary32.mul32 h0 fb)], Binary32.add32 x (Binary32.mul32 h0 fb)) := by
        simp [delayStep] at *
        simp [hf]
      have := ih (h' ++ [Binary32.add32 x (Binary32.mul32 h0 fb)]) (by simp at *; omega)
      refine ⟨by simp, ?_, ?_⟩
      · intro n hn
        cases n with
        | zero => 
          simp [foldLane, hstep, hf]
        | succ n =>
          have := this.recurrence n (by simpa using hn)
          simp only [foldLane, hstep, List.getD_cons_succ]
          rw [this]
          simp only [List.length_append, List.length_cons, List.length_nil] at *
          have : h'.length + 1 + (n+1) - d = (h'.length + (0+1) + n - d) + 1 := by omega
          rw [this]
          simp only [List.cons_append, List.getD_cons_succ, List.append_assoc, List.nil_append]
          congr 2
          rw [if_pos (by omega), if_pos (by omega)]
      · rw [foldLane, hstep]
        simp only
        rw [this.history]
        simp only [List.length_append, List.length_cons, List.length_nil] at *
        have : h'.length + 1 + (xs.length+1) - d = (h'.length + (0+1) + xs.length - d) + 1 := by omega
        rw [this]; simp
    · have hstep : delayStep d fb h x = (h ++ [Binary32.add32 x (Binary32.mul32 Binary32.posZero fb)], Binary32.add32 x (Binary32.mul32 Binary32.posZero fb)) := by
        simp [delayStep, hf]
      have := ih (h ++ [Binary32.add32 x (Binary32.mul32 Binary32.posZero fb)]) (by simp at *; omega)
      refine ⟨by simp, ?_, ?_⟩
      · intro n hn
        cases n with
        | zero => 
          simp [foldLane, hstep]; rw [if_neg (by omega)]; rfl
        | succ n =>
          have := this.recurrence n (by simpa using hn)
          simp only [foldLane, hstep, List.getD_cons_succ]
          rw [this]
          simp only [List.length_append, List.length_cons, List.length_nil] at *
          have : h.length + (0 + 1) + n = h.length + (n+1) := by omega
          rw [this]
          simp only [List.append_assoc, List.cons_append, List.nil_append]
      · rw [foldLane, hstep]
        simp only
        rw [this.history]
        simp only [List.length_append, List.length_cons, List.length_nil] at *
        have : h.length + (0 + 1) + xs.length = h.length + (xs.length+1) := by omega
        rw [this]; simp

/-- A delay step keeps the history within its length. -/
theorem delayStep_length_le (d : Nat) (fb : F32) (h : List F32) (x : F32) (hl : h.length ≤ d) : (delayStep d fb h x).1.length ≤ d := by
  unfold delayStep
  simp only
  split
  · rename_i e; simp at e; simp; omega
  · rename_i e; simp at e; simp; omega

/-- A resized history is within the new length and not longer than before. -/
theorem resizeHistory_length_le (d : Nat) (h : List F32) : (resizeHistory d h).length ≤ d ∧ (resizeHistory d h).length ≤ h.length := by
  unfold resizeHistory; simp; omega

/-- One pitchStep is one PitchFrame. -/
theorem pitchStep_frame (warp : Bool) (b : Build) (len : Nat) (l : PitchLane) (x : F32) (f : Bool) :
    ∃ p, PitchFrame warp b len l x (pitchStep warp b len (l, f) x).2 (pitchStep warp b len (l, f) x).1.1 p ∧
      ((pitchStep warp b len (l, f) x).1.2 = true ↔ f = true ∨ p) := by
  by_cases h : l.acc.length + 1 = b.psFrame
  · have h' : (l.acc ++ [x]).length = b.psFrame := by simpa using h
    have hs : pitchStep warp b len (l, f) x = ((⟨[], (queuePush b.psQueue l.queue (if warp then warpFit (resample (l.acc ++ [x]) len) b.psFrame else resample (l.acc ++ [x]) len)).1.drop 1⟩, f || (queuePush b.psQueue l.queue (if warp then warpFit (resample (l.acc ++ [x]) len) b.psFrame else resample (l.acc ++ [x]) len)).2), (queuePush b.psQueue l.queue (if warp then warpFit (resample (l.acc ++ [x]) len) b.psFrame else resample (l.acc ++ [x]) len)).1.headD Binary32.posZero) := by
      unfold pitchStep; rw [if_pos h']
    rw [hs]
    simp only [PitchFrame, if_pos h]
    refine ⟨_, ⟨_, rfl, Iff.rfl, rfl, ?_⟩, ?_⟩
    · simp [queuePush]
    · simp only [queuePush, Bool.or_eq_true, decide_eq_true_eq]
  · have h' : ¬ (l.acc ++ [x]).length = b.psFrame := by simpa using h
    have hs : pitchStep warp b len (l, f) x = ((⟨l.acc ++ [x], l.queue.drop 1⟩, f), l.queue.headD Binary32.posZero) := by
      unfold pitchStep; rw [if_neg h']
    rw [hs]
    simp only [PitchFrame, if_neg h]
    exact ⟨False, ⟨Iff.rfl, rfl, by simp⟩, by simp⟩

/-- Folding pitchStep over a lane is a PitchRun, and its flag says whether a push dropped samples. -/
theorem pitch_fold (warp : Bool) (b : Build) (len : Nat) (l : PitchLane) (xs : List F32) (f : Bool) :
    ∃ p, PitchRun warp b len l xs (foldLane (pitchStep warp b len) (l, f) xs).2 (foldLane (pitchStep warp b len) (l, f) xs).1.1 p ∧
      ((foldLane (pitchStep warp b len) (l, f) xs).1.2 = true ↔ f = true ∨ p) := by
  induction xs generalizing l f with
  | nil => exact ⟨False, .nil l, by simp [foldLane]⟩
  | cons x xs ih =>
    obtain ⟨p, h1, h2⟩ := pitchStep_frame warp b len l x f
    obtain ⟨q, h3, h4⟩ := ih (pitchStep warp b len (l, f) x).1.1 (pitchStep warp b len (l, f) x).1.2
    refine ⟨p ∨ q, .cons h1 h3, ?_⟩
    simp only [foldLane]
    rw [h4, h2, or_assoc]

/-- A pitch step keeps the accumulator and the queue within their bounds. -/
theorem pitchStep_bounded (w : Bool) (b : Build) (hb : 1 ≤ b.psFrame) (len : Nat) (l : PitchLane × Bool) (x : F32) (h : l.1.Bounded b) :
   (pitchStep w b len l x).1.1.Bounded b := by
  unfold pitchStep
  simp only
  split
  · refine ⟨by simp; omega, ?_⟩
    have := h.2
    simp [queuePush]; omega
  · rename_i hh
    refine ⟨?_, ?_⟩
    · have := h.1; simp at *; omega
    · have := h.2; simp; omega

/-- warp_fit gives F samples. -/
theorem warpFit_length (x : List F32) (f : Nat) : (warpFit x f).length = f := by
  unfold warpFit; split <;> simp <;> omega

/-- RESAMPLE at its input's length is the identity. -/
theorem resample_of_length {x : List F32} {len : Nat} (h : len = x.length) : resample x len = x := by simp [resample, h]

/-- The current slot's state after a fold over its channels. -/
theorem State.foldChannels_current_state {σ : Type} (s : State) (get : SlotState → Chan σ)
    (put : SlotState → Chan σ → SlotState) (step : σ → F32 → σ × F32) (h : s.slotPc.toNat < s.slots.length) :
    ((s.foldChannels get put step).advanceSlot.slot s.slotPc.toNat).state = put s.current.state
      (((Chan.zip (get s.current.state) s.wb).mapActive s.reg.channels fun p => foldLane step p.1 p.2).fst) := by
  simp only [State.slot, State.advanceSlot_slots, State.foldChannels]
  rw [List.getD_modify_same _ _ _ h]; rfl

/-- Every slot after a slot instruction's change. -/
theorem State.slot_slotChange (s : State) (wb o f i) : (s.slotChange wb o f).slot i = if i = s.slotPc.toNat ∧ i < s.slots.length then { s.slot i with state := f (s.slot i).state } else s.slot i := by
  simp only [State.slot, State.slotChange]
  split
  · rename_i h
    obtain ⟨rfl, h⟩ := h
    rw [List.getD_modify_same _ _ _ h]
  · rename_i h
    by_cases hi : i = s.slotPc.toNat
    · subst hi
      have : s.slots.length ≤ s.slotPc.toNat := by simpa using h
      rw [List.getD_eq_getElem?_getD, List.getD_eq_getElem?_getD, List.getElem?_eq_none (by simpa using this), List.getElem?_eq_none this]
    · rw [List.getD_modify_other _ _ _ hi]

end Sys2Proof.Machine
end

