-- ==== Sys2Proof/Laws/PerInstr.lean ====
section
/-! SUPPORT. The statements made per instruction: every instruction's encoded word has the bits its row of
spec/opcode_table.json fixes (spec/30_encoding.md R127-R129). -/

namespace Sys2Proof.Laws.TableRow

/-- The fixed bits of an instruction's row: its mask and its match. -/
def row : Instr → Word × Word
  | .nop => (0xFFFFFFFF#32, 0x00000000#32)
  | .gain => (0xFFFFFFFF#32, 0x00000001#32)
  | .dist => (0xFFFFFFFF#32, 0x00000002#32)
  | .odrive => (0xFFFFFFFF#32, 0x00000003#32)
  | .sat => (0xFFFFFFFF#32, 0x00000004#32)
  | .filterLpS12 => (0xFFFFFFFF#32, 0x00000005#32)
  | .filterLpS24 => (0xFFFFFFFF#32, 0x00000085#32)
  | .filterHpS12 => (0xFFFFFFFF#32, 0x00000015#32)
  | .filterHpS24 => (0xFFFFFFFF#32, 0x00000095#32)
  | .filterBpS12 => (0xFFFFFFFF#32, 0x00000025#32)
  | .filterBpS24 => (0xFFFFFFFF#32, 0x000000A5#32)
  | .filterLsS12 => (0xFFFFFFFF#32, 0x00000035#32)
  | .filterLsS24 => (0xFFFFFFFF#32, 0x000000B5#32)
  | .filterHsS12 => (0xFFFFFFFF#32, 0x00000045#32)
  | .filterHsS24 => (0xFFFFFFFF#32, 0x000000C5#32)
  | .delay => (0xFFFFFFFF#32, 0x00000006#32)
  | .pitch => (0xFFFFFFFF#32, 0x00000007#32)
  | .pitchWarp => (0xFFFFFFFF#32, 0x00000107#32)
  | .conv16 => (0x000000FF#32, 0x00000010#32)
  | .conv32 => (0x000000FF#32, 0x00000020#32)
  | .convsil => (0x000000FF#32, 0x00000040#32)
  | .run => (0x00000001#32, 0x00000001#32)
  | .stateclear => (0x00000002#32, 0x00000002#32)
  | .reset => (0x00000004#32, 0x00000004#32)
  | .slotclr _ => (0x00000001#32, 0x00000001#32)

/-- The encoded word has the bits of the row (R127-R129). -/
def Statement (i : Instr) : Prop := (encode i).2 &&& (row i).1 = (row i).2

theorem nop : Statement .nop := rfl

theorem gain : Statement .gain := rfl

theorem dist : Statement .dist := rfl

theorem odrive : Statement .odrive := rfl

theorem sat : Statement .sat := rfl

theorem filterLpS12 : Statement .filterLpS12 := rfl

theorem filterLpS24 : Statement .filterLpS24 := rfl

theorem filterHpS12 : Statement .filterHpS12 := rfl

theorem filterHpS24 : Statement .filterHpS24 := rfl

theorem filterBpS12 : Statement .filterBpS12 := rfl

theorem filterBpS24 : Statement .filterBpS24 := rfl

theorem filterLsS12 : Statement .filterLsS12 := rfl

theorem filterLsS24 : Statement .filterLsS24 := rfl

theorem filterHsS12 : Statement .filterHsS12 := rfl

theorem filterHsS24 : Statement .filterHsS24 := rfl

theorem delay : Statement .delay := rfl

theorem pitch : Statement .pitch := rfl

theorem pitchWarp : Statement .pitchWarp := rfl

theorem conv16 : Statement .conv16 := rfl

theorem conv32 : Statement .conv32 := rfl

theorem convsil : Statement .convsil := rfl

theorem run : Statement .run := rfl

theorem stateclear : Statement .stateclear := rfl

theorem reset : Statement .reset := rfl

theorem slotclr (slot : Nat) : Statement (.slotclr slot) := by simp [Statement, encode, row]

end Sys2Proof.Laws.TableRow
end

