-- ==== Sys2Proof/Machine/Program.lean ====
section
/-! DEFINITION. The host program's pseudo-instructions (spec/30_encoding.md R132-R135) as the statements they stand
for. The expected value that `rd a == w` and `out` state is the host's own comparison and no access of the block. -/

namespace Sys2Proof.Machine

/-- wr <addr>, <word>. -/
def wrWord (a : Nat) (w : Word) : HostOp := .wr (BitVec.ofNat 20 a) 4 w

/-- rd <addr>. -/
def rdWord (a : Nat) : HostOp := .rd (BitVec.ofNat 20 a) 4

/-- A decimal literal in a float position: bits32(rnd32(r)) (R135). -/
def literal (r : Rat) : Word := Binary32.rnd32Rat r

/-- format <rate>, <depth>, <ch>, <buf>. -/
def hostFormat (rate depth ch buf : Nat) : List HostOp :=
  [wrWord 0x00050 (BitVec.ofNat 32 rate), wrWord 0x00054 (BitVec.ofNat 32 (ch * 2 ^ 8 + depth)),
    wrWord 0x00058 (BitVec.ofNat 32 buf)]

/-- chain <n>. -/
def hostChain (n : Nat) : List HostOp := [wrWord 0x0005C (BitVec.ofNat 32 n)]

/-- Consecutive words written from an address on. -/
def wrWords (a : Nat) : List Word → List HostOp
  | [] => []
  | w :: ws => wrWord a w :: wrWords (a + 4) ws

/-- slot <s>, <mnem> [, <a> [, <b> [, <c>]]]: DESC, then P0, P1 and P2 for each operand given. -/
def hostSlot (i : Nat) (mnem : Instr) (params : List Word) : List HostOp :=
  wrWord (slotBase i) (encode mnem).2 :: wrWords (slotBase i + 4) (params.take 3)

/-- in <i>, <v0> [, <v1> ...]. -/
def hostIn (i : Nat) (vs : List Word) : List HostOp := wrWords (inAddr i) vs

/-- run. -/
def hostRun : List HostOp := [wrWord 0x00040 0x00000001#32]

/-- stateclear. -/
def hostStateclear : List HostOp := [wrWord 0x00040 0x00000002#32]

/-- reset. -/
def hostReset : List HostOp := [wrWord 0x00040 0x00000004#32]

/-- slotclr <s>. -/
def hostSlotclr (i : Nat) : List HostOp := [wrWord (slotBase i + 0x30) 0x00000001#32]

/-- ack: clears DONE, ERR and PS_OVF. -/
def hostAck : List HostOp := [wrWord 0x00044 0x00000026#32]

/-- out <i> == ...: n reads from OUT[i] on. -/
def hostOut (i n : Nat) : List HostOp := (List.range n).map fun j => rdWord (outAddr (i + j))

end Sys2Proof.Machine
end

