-- ==== Sys2Proof/Tests/Slice0.lean ====
section
/-! SUPPORT. The package's own tests: well-formedness, words written out from spec/30_encoding.md, vectors of
spec/95_test_vectors.md, single steps, and for each obligation with hypotheses a witness that meets them together. -/

open Sys2Proof Sys2Proof.Machine

namespace Sys2Proof.Tests

/-! One theorem after another: each kernel evaluation that waits for the ones before it would hold a thread and its
stack. -/
set_option Elab.async false

/-! ### Small states -/

/-- A legal build with two slots and the smallest buffer. -/
def tiny : Build := { Build.standard with nSlots := 2, maxBuffer := 64, maxDelay := 64 }

/-- fs = 1000, 32 bits, mono, 4 frames, a chain of n slots. -/
def globals (n : Nat) : GlobalRegs := ⟨0x000003E8#32, 0x00000120#32, 0x00000004#32, BitVec.ofNat 32 n⟩

/-- A block about to apply slot 0, which holds desc, K and E as given, to the samples xs. -/
def applying (desc : Word) (d : Derived) (xs : List F32) : State :=
  { State.init tiny with
    shadow := globals 1
    reg := globals 1
    phase := .process
    wb := ⟨xs, []⟩
    slots := [{ Slot.reset with shadow := ⟨desc, 0#32, 0#32, 0#32⟩, reg := ⟨desc, 0#32, 0#32, 0#32⟩, derived := d },
      Slot.reset] }

/-- An impulse of four frames. -/
def impulse : List F32 := [0x3F800000#32, 0#32, 0#32, 0#32]

/-- The NOP slot of the reset block applied to an impulse: a legal state with a run in progress. -/
def running : State := applying 0#32 Derived.zero impulse

/-- An idle block whose shadow registers hold one slot. -/
def configured (p : SlotRegs) (fs : Word) : State :=
  { State.init tiny with
    shadow := ⟨fs, 0x00000120#32, 0x00000004#32, 1#32⟩
    slots := [{ Slot.reset with shadow := p }, Slot.reset] }

/-- What a step answers, where it answers a next state. -/
def after (o : Host.Outcome State Fault Refusal) : State :=
  match o with
  | .next t => t
  | .fault _ => State.reset
  | .refused _ => State.reset

/-! ### Well-formedness -/

theorem test_slotclr_63_well_formed : (Instr.slotclr 63).wellFormed = true := by decide

theorem test_slotclr_64_ill_formed : (Instr.slotclr 64).wellFormed = false := by decide

/-! ### Decoding: every constructor's word written out from R127, R128, R129 -/

theorem test_decode_simple_slots :
    [0x00000000#32, 0x00000001#32, 0x00000002#32, 0x00000003#32, 0x00000004#32, 0x00000006#32, 0x00000007#32,
        0x00000107#32].map (decode .desc) =
      [.ok [.nop], .ok [.gain], .ok [.dist], .ok [.odrive], .ok [.sat], .ok [.delay], .ok [.pitch],
        .ok [.pitchWarp]] := by decide

theorem test_decode_filters :
    [0x00000005#32, 0x00000085#32, 0x00000015#32, 0x00000095#32, 0x00000025#32, 0x000000A5#32, 0x00000035#32,
        0x000000B5#32, 0x00000045#32, 0x000000C5#32].map (decode .desc) =
      [.ok [.filterLpS12], .ok [.filterLpS24], .ok [.filterHpS12], .ok [.filterHpS24], .ok [.filterBpS12],
        .ok [.filterBpS24], .ok [.filterLsS12], .ok [.filterLsS24], .ok [.filterHsS12], .ok [.filterHsS24]] := by
  decide

theorem test_decode_converters :
    [0x00000110#32, 0x00000220#32, 0x00000140#32].map (decode .format) =
      [.ok [.conv16], .ok [.conv32], .ok [.convsil]] := by decide

theorem test_decode_commands :
    [1#32, 2#32, 4#32, 3#32, 7#32, 8#32].map (decode .ctrl) =
        [.ok [.run], .ok [.stateclear], .ok [.reset], .ok [.stateclear, .run], .ok [.reset], .ok []]
      ∧ decode (.sctl 5) 1#32 = .ok [.slotclr 5] := by decide

/-- The rejected words of V-S1. -/
theorem test_decode_rejects :
    [0x00000008#32, 0x00000055#32, 0x00000105#32, 0x00000087#32, 0x00000200#32].map decodeDesc =
        [.error .descOpc, .error .descField, .error .descField, .error .descField, .error .descField]
      ∧ [0x00001210#32, 0x00000218#32, 0x00000010#32, 0x00000120#32].map checkFormat =
        [some .fmtRsvd, some .fmtDepth, some .fmtChannels, none]
      ∧ [0x7F800000#32, 0x7FC00000#32, 0x80000000#32].map checkParam =
        [some .paramNonfinite, some .paramNonfinite, none] := by decide

/-- The table's words without their places (log 11). -/
theorem test_table_words :
    decodeTableWord 32 0xC5 = some .filterHsS24 ∧ decodeTableWord 8 0x40 = some .convsil
      ∧ decodeTableWord 8 1 = some .run ∧ decodeTableWord 8 4 = some .reset := by decide

/-- withFetchWord places a word where the next step runs it: GAIN with K0 = +0.0 on no frame, then RUN. -/
theorem test_fetch_word :
    step (State.reset.withFetchWord 32 1) = exec .gain (State.reset.withFetchWord 32 1)
      ∧ (after (step (State.reset.withFetchWord 8 1))).phase = .commit := ⟨rfl, by decide⟩

/-! ### Arithmetic and derived values (V-L1, V-G1 to V-G4, V-F1 to V-F6, V-D2, V-P2) -/

theorem test_gain_factors :
    [0x00000000#32, 0x40C00000#32, 0x41400000#32, 0x41A00000#32, 0xC0C00000#32, 0x42100000#32,
        0xC2100000#32].map gainFactor =
      [0x3F800000#32, 0x3FFF64C1#32, 0x407EC9E1#32, 0x41200000#32, 0x3F004DCE#32, 0x427C6208#32,
        0x3C81D59F#32] := by decide +kernel

theorem test_products :
    Binary32.mul32 0x3F000000#32 0x3FFF64C1#32 = 0x3F7F64C1#32
      ∧ Binary32.mul32 0x3DCCCCCD#32 0x407EC9E1#32 = 0x3ECBD4B4#32
      ∧ Binary32.mul32 0x3E99999A#32 0x407EC9E1#32 = 0x3F98DF87#32
      ∧ Binary32.mul32 0x00000001#32 0x3F000000#32 = 0x00000000#32
      ∧ Binary32.mul32 0x3F333333#32 0x3F333333#32 = 0x3EFAE147#32 := by decide +kernel

/-- IEEE signed zeros, infinities and NaN (R12, V-D5). -/
theorem test_special_values :
    Binary32.add32 0x80000000#32 0x00000000#32 = 0x00000000#32
      ∧ Binary32.add32 0x80000000#32 0x80000000#32 = 0x80000000#32
      ∧ Binary32.mul32 0x7F800000#32 0x80000000#32 = 0x7FC00000#32
      ∧ Binary32.sub32 0x7F800000#32 0x7F800000#32 = 0x7FC00000#32
      ∧ Binary32.mul32 0x7F7FFFFF#32 0xC0000000#32 = 0xFF800000#32 := by decide +kernel

theorem test_tanh :
    [0x3F000000#32, 0x41100000#32, 0x411051EC#32, 0x41200000#32, 0x7F800000#32, 0x80000000#32, 0x40FEC9E1#32].map
        ExactReal.tanh32 =
      [0x3EEC9A9F#32, 0x3F7FFFFF#32, 0x3F800000#32, 0x3F800000#32, 0x3F800000#32, 0x80000000#32,
        0x3F7FFFFC#32] := by decide +kernel

/-- V-G3 and V-L7: OVERDRIVE's thresholds, and the clamp of the drive. -/
theorem test_drive_derivations :
    (deriveOverdrive ⟨3#32, 0x40C00000#32, 0x3E99999A#32, 0x3F333333#32⟩).k2 = 0xBDB851EC#32
      ∧ (deriveOverdrive ⟨3#32, 0x40C00000#32, 0x3F000000#32, 0x3F800000#32⟩).k2 = 0x80000000#32
      ∧ (deriveDrive ⟨2#32, 0x42400000#32, 0#32, 0#32⟩).e0 = 0x42100000#32 := by decide +kernel

/-- A filter's parameters: cutoff, Q, gain. -/
def filterRegs (cutoff q gain : F32) : SlotRegs := ⟨5#32, cutoff, q, gain⟩

/-- The registers of a sample rate alone. -/
def rate (fs : Nat) : GlobalRegs := { GlobalRegs.reset with sampleRate := BitVec.ofNat 32 fs }

/-- V-F1, V-F3, V-F4 at 3000 Hz and Q = 1; these three also meet the hypotheses of PassFilterSymmetry's
first clause. -/
theorem witness_PassFilterSymmetry :
    derive .filterLpS12 Build.standard (filterRegs 0x453B8000#32 0x3F800000#32 0#32) (rate 44100) =
        .ok ⟨0x453B8000#32, 0x3F800000#32, 0#32, 0x3D189DB5#32, 0x3D989DB5#32, 0x3D189DB5#32, 0xBFC0F8F2#32,
          0x3F281951#32⟩
      ∧ derive .filterHpS12 Build.standard (filterRegs 0x453B8000#32 0x3F800000#32 0#32) (rate 44100) =
        .ok ⟨0x453B8000#32, 0x3F800000#32, 0#32, 0x3F4A82CD#32, 0xBFCA82CD#32, 0x3F4A82CD#32, 0xBFC0F8F2#32,
          0x3F281951#32⟩
      ∧ derive .filterBpS12 Build.standard (filterRegs 0x453B8000#32 0x3F800000#32 0#32) (rate 44100) =
        .ok ⟨0x453B8000#32, 0x3F800000#32, 0#32, 0x3E2FCD5E#32, 0x00000000#32, 0xBE2FCD5E#32, 0xBFC0F8F2#32,
          0x3F281951#32⟩ := by decide +kernel

/-- V-F4 at Q = 2, the SKIRT build. -/
theorem test_band_pass_skirt :
    derive .filterBpS12 { Build.standard with bpVariant := .skirt } (filterRegs 0x453B8000#32 0x40000000#32 0#32)
        (rate 44100) =
      .ok ⟨0x453B8000#32, 0x40000000#32, 0#32, 0x3E404F70#32, 0x00000000#32, 0xBE404F70#32, 0xBFD317C5#32,
        0x3F4FEC24#32⟩ := by decide +kernel

/-- V-F5: the shelves at +6 dB, fs = 48000, 1000 Hz. -/
theorem test_low_shelves :
    derive .filterLsS12 Build.standard (filterRegs 0x447A0000#32 0x3F800000#32 0x40C00000#32) (rate 48000) =
        .ok ⟨0x447A0000#32, 0x3F800000#32, 0x40C00000#32, 0x3F85A62B#32, 0xBFE434C0#32, 0x3F42AFDA#32, 0xBFE4E6A9#32,
          0x3F4C985C#32⟩
      ∧ derive .filterLsS24 Build.standard (filterRegs 0x447A0000#32 0x3F800000#32 0x40C00000#32) (rate 48000) =
        .ok ⟨0x447A0000#32, 0x3F800000#32, 0x40C00000#32, 0x3F842B02#32, 0xBFEB5FA9#32, 0x3F5428CF#32, 0xBFEC172A#32,
          0x3F5B0FD2#32⟩ := by decide +kernel

theorem test_high_shelves :
    derive .filterHsS12 Build.standard (filterRegs 0x447A0000#32 0x3F800000#32 0x40C00000#32) (rate 48000) =
        .ok ⟨0x447A0000#32, 0x3F800000#32, 0x40C00000#32, 0x3FF4993C#32, 0xC05AB4DD#32, 0x3FC37BAF#32, 0xBFDA8F6A#32,
          0x3F3A7537#32⟩
      ∧ derive .filterHsS24 Build.standard (filterRegs 0x447A0000#32 0x3F800000#32 0x40C00000#32) (rate 48000) =
        .ok ⟨0x447A0000#32, 0x3F800000#32, 0x40C00000#32, 0x3FF756EF#32, 0xC0641A85#32, 0x3FD3A6A8#32, 0xBFE3F377#32,
          0x3F4D7805#32⟩ := by decide +kernel

/-- V-F6: the cutoff check at its boundaries, and the coefficient range. -/
theorem test_commit_checks :
    [0x457A0000#32, 0x80000000#32, 0xBF800000#32].map (fun c =>
        derive .filterLpS12 Build.standard (filterRegs c 0x3F800000#32 0#32) (rate 8000)) =
        [.error .cutoff, .error .cutoff, .error .cutoff]
      ∧ derive .filterLpS12 Build.standard (filterRegs 0x4579FFFF#32 0x3F800000#32 0#32) (rate 8000) =
        .ok ⟨0x4579FFFF#32, 0x3F800000#32, 0#32, 0x3F7FFFFE#32, 0x3FFFFFFE#32, 0x3F7FFFFE#32, 0x3FFFFFFE#32,
          0x3F7FFFFD#32⟩
      ∧ derive .filterLsS12 Build.standard (filterRegs 0x447A0000#32 0x3F800000#32 0x44C80000#32) (rate 48000) =
        .error .coefRange := by decide +kernel

/-- V-D2: the delay length, its ties and its floor. -/
theorem test_delay_lengths :
    delayRaw 44100 0x41200000#32 = 441 ∧ delayRaw 1000 0x40200000#32 = 2 ∧ delayRaw 1000 0x40600000#32 = 4
      ∧ delayRaw 8000 0x3F880000#32 = 8 ∧ delayRaw 48000 0x44FA0000#32 = 96000
      ∧ deriveDelay Build.standard ⟨6#32, 0x44FA0000#32, 0#32, 0#32⟩ 48000 64 = .error .delayRange := by decide +kernel

/-- V-P2: the resampled lengths. -/
theorem test_pitch_lengths :
    [pitchLength 4 0x3F800000#32, pitchLength 4 0x3F000000#32, pitchLength 5 0x40000000#32, pitchLength 7 0x40000000#32,
        pitchLength 4 0x3FCCCCCD#32, pitchLength 4 0x3F4CCCCD#32, pitchLength 1024 0x3FC00000#32] =
      [4, 8, 2, 4, 2, 5, 683] := by decide +kernel

/-- V-C1. -/
theorem test_conversions :
    [0x3F000000#32, 0xBF000000#32, 0xC0000000#32, 0x3F7FFFFF#32, 0x38000100#32, 0xBF800101#32, 0x7FC00000#32,
        0xFF800000#32].map conv16Word =
        [0x00003FFF#32, 0xFFFFC001#32, 0xFFFF8000#32, 0x00007FFE#32, 0#32, 0xFFFF8000#32, 0#32, 0xFFFF8000#32]
      ∧ [0x3F800000#32, 0xBF800000#32, 0x3DCCCCCD#32, 0x38000100#32, 0xBF7FFF58#32, 0x7F800000#32].map conv32Word =
        [0x7FFFFFFF#32, 0x80000001#32, 0x0CCCCCCF#32, 0x00010001#32, 0x80005401#32, 0x7FFFFFFF#32] := by
  decide +kernel

/-! ### Single steps -/

/-- V-G2: 0.2, 0.3, -0.5 and an infinity through DIST at 12 dB; the converter is next. -/
theorem test_dist_step :
    let t := after (step (applying 2#32 { Derived.zero with k0 := 0x407EC9E1#32 }
      [0x3E4CCCCD#32, 0x3E99999A#32, 0xBF000000#32, 0x7F800000#32]))
    t.wb.c0 = [0x3F4BD4B4#32, 0x3F800000#32, 0xBF800000#32, 0x3F800000#32] ∧ t.phase = .convert
      ∧ t.slotPc = 0xFF#8 := by decide +kernel

/-- V-G3: the five inputs through OVERDRIVE at 6 dB, t = 0.5, asymmetry 0.5. -/
theorem test_overdrive_step :
    (after (step (applying 3#32 { Derived.zero with k0 := 0x3FFF64C1#32, k1 := 0x3F000000#32, k2 := 0xBE800000#32 }
      [0x3DCCCCCD#32, 0x3F000000#32, 0xBE800000#32, 0xBDCCCCCD#32]))).wb.c0 =
      [0x3E4C509B#32, 0x3F000000#32, 0xBE800000#32, 0xBE4C509B#32] := by decide +kernel

/-- V-G4: SAT at 6 dB. -/
theorem test_sat_step :
    (after (step (applying 4#32 { Derived.zero with k0 := 0x3FFF64C1#32 }
      [0x3DCCCCCD#32, 0x3F000000#32, 0xBE800000#32, 0x3F800000#32]))).wb.c0 =
      [0x3E49A563#32, 0x3F42B684#32, 0xBEEC2076#32, 0x3F76B479#32] := by decide +kernel

/-- The coefficients of V-F1. -/
def lowPass : Derived :=
  { Derived.zero with
    k0 := 0x3D189DB5#32, k1 := 0x3D989DB5#32, k2 := 0x3D189DB5#32, k3 := 0xBFC0F8F2#32, k4 := 0x3F281951#32 }

/-- V-F1 and P3: four frames of the low-pass impulse response, and the history they leave. -/
theorem test_low_pass_step :
    let t := after (step (applying 5#32 lowPass impulse))
    t.wb.c0 = [0x3D189DB5#32, 0x3E05D433#32, 0x3E56DC5C#32, 0x3E6C0BEE#32]
      ∧ (t.slot 0).state.filter.c0.stage0 = ⟨0#32, 0#32, 0x3E6C0BEE#32, 0x3E56DC5C#32⟩
      ∧ (t.slot 0).state.filter.c0.stage1 = Biquad.zero := by decide +kernel

/-- V-F1 at 24 dB/octave. -/
theorem test_low_pass_24_step :
    (after (step (applying 0x85#32 lowPass impulse))).wb.c0 =
      [0x3AB5F750#32, 0x3C1F90E0#32, 0x3D0601C7#32, 0x3D9380B5#32] := by decide +kernel

/-- V-F3: the high-pass clips its output and keeps the unclipped history. -/
theorem test_high_pass_step :
    let t := after (step (applying 0x15#32 { lowPass with k0 := 0x3F4A82CD#32, k1 := 0xBFCA82CD#32, k2 := 0x3F4A82CD#32 }
      [0x3F800000#32, 0xBF800000#32, 0x3F800000#32, 0xBF800000#32]))
    t.wb.c0 = [0x3F4A82CD#32, 0xBF800000#32, 0x3F5D6E07#32, 0xBF800000#32]
      ∧ (t.slot 0).state.filter.c0.stage0 = ⟨0xBF800000#32, 0x3F800000#32, 0xBF8AE1AA#32, 0x3F5D6E07#32⟩ := by
  decide +kernel

/-- V-D1, run 2: a delay of D = 4, f = 0.5, whose history is run 1's outputs. -/
def echo : State :=
  { applying 6#32 { Derived.zero with k0 := 4#32, e1 := 0x3F000000#32 } [0#32, 0#32, 0#32, 0#32] with
    slots := [{ Slot.reset with
      shadow := ⟨6#32, 0x40800000#32, 0x3F000000#32, 0#32⟩
      reg := ⟨6#32, 0x40800000#32, 0x3F000000#32, 0#32⟩
      derived := { Derived.zero with e0 := 0x40800000#32, e1 := 0x3F000000#32, k0 := 4#32 }
      state := { SlotState.clear with delay := ⟨impulse, []⟩ } }, Slot.reset] }

theorem test_delay_step :
    (after (step echo)).wb.c0 = [0x3F000000#32, 0#32, 0#32, 0#32]
      ∧ ((after (step echo)).slot 0).state.delay.c0 = [0x3F000000#32, 0#32, 0#32, 0#32] := by decide +kernel

/-- V-P1, run 1: the identity with a latency of F - 1 = 3 frames. -/
def shifting : State :=
  applying 0x107#32 { Derived.zero with e0 := 0x3F800000#32, k0 := 4#32, k1 := 4#32 }
    [0x3F000000#32, 0x3E800000#32, 0xBE800000#32, 0xBF000000#32]

theorem test_pitch_warp_step :
    let t := after (step shifting)
    t.wb.c0 = [0#32, 0#32, 0#32, 0x3F000000#32]
      ∧ (t.slot 0).state.pitch.c0 = ⟨[], [0x3E800000#32, 0xBE800000#32, 0xBF000000#32]⟩ := by decide

/-- V-P4: with L = 8 and room for 4 of 8 samples the queue fills, PS_OVF is set and 7 samples stay. -/
theorem test_pitch_overflow :
    let s := applying 7#32 { Derived.zero with k0 := 8#32, k1 := 8#32 } (impulse ++ impulse)
    (after (step s)).status.psOvf = true ∧ ((after (step s)).slot 0).nq = 7 := ⟨rfl, rfl⟩

/-- A block about to convert four frames of 0.5 at a depth. -/
def converting (format : Word) : State :=
  { running with
    reg := { globals 1 with format := format }
    phase := .convert
    slotPc := 0xFF#8
    wb := ⟨List.replicate 4 0x3F000000#32, []⟩ }

theorem test_conv16_step :
    let t := after (step (converting 0x110#32))
    t.outWord 0 = 0x00003FFF#32 ∧ t.outWord 3 = 0x00003FFF#32 ∧ t.statusWord = 2#32 ∧ t.runCount = 1#32 := by
  decide +kernel

theorem test_conv32_step : (after (step (converting 0x120#32))).outWord 3 = 0x3FFFFFFF#32 := by decide +kernel

theorem test_convsil_step :
    let t := after (step (converting 0x140#32))
    t.outWord 7 = 0#32 ∧ t.statusWord = 0x12#32 := by decide +kernel

/-- P5's refused run in progress: a cutoff at fs/2 is to be committed. -/
def refusing : State :=
  after (hostAccess (.wr 0x00040#20 4 1#32) (configured (filterRegs 0x457A0000#32 0x3F800000#32 0#32) 0x1F40#32))

/-- P5: ERR is set with the commit's record, and BUSY reads 1 and CUR_SLOT 0xFE, from the RUN write on (R153, R292, R152);
then STATUS reads DONE, ERR and REFUSED, and RUN_COUNT stays. -/
theorem test_refused_run :
    let t := after (engineStep refusing)
    refusing.statusWord = 0xFE05#32 ∧ refusing.errInfo = 0x20#32 ∧ refusing.errAddr = 0x40#32
      ∧ t.statusWord = 0xE#32 ∧ t.errInfo = 0x20#32 ∧ t.errAddr = 0x40#32
      ∧ t.runCount = 0#32 ∧ (t.slot 0).derived = Derived.zero := by decide +kernel

/-- R292, R99: an access refused while BUSY = 1 leaves the commit's record; a 1 written to ERR there clears it, and the next
error is then the first. -/
theorem test_refused_run_while_busy :
    let t := after (hostAccess (rdWord 0x40000) refusing)
    let u := after (hostAccess (wrWord 0x44 4#32) refusing)
    t.statusWord = 0xFE05#32 ∧ t.errInfo = 0x20#32 ∧ t.errAddr = 0x40#32
      ∧ u.statusWord = 0xFE01#32 ∧ u.errInfo = 0#32 ∧ (after (engineStep u)).statusWord = 0xA#32
      ∧ (after (hostAccess (rdWord 0x40000) u)).errInfo = 0xFF03#32 := by decide +kernel

/-- P2: a RUN with a delay of 4 ms at 1000 Hz commits D = 4 and zeroes the pending clear of the active slot. -/
theorem test_run_commits :
    let s := configured ⟨6#32, 0x40800000#32, 0x3F000000#32, 0#32⟩ 0x3E8#32
    let t := after (hostAccess (.wr 0x00040#20 4 1#32) { s with slots := s.slots.map fun x => { x with pend := true } })
    (t.slot 0).derived.k0 = 4#32 ∧ (t.slot 0).pend = false ∧ (t.slot 1).pend = true ∧ t.statusWord = 0xFE01#32 := by
  decide +kernel

/-- stateclear and slotclr set their flags (R160, R162). -/
theorem test_pending_clears :
    (after (hostAccess (.wr 0x00040#20 4 2#32) State.reset)).pendAll = true
      ∧ ((after (hostAccess (.wr 0x01070#20 4 1#32) State.reset)).slot 1).pend = true := by decide

/-- R321's example: a reset clears STATUS and CHAIN_LEN. -/
theorem test_soft_reset :
    let t := after (hostAccess (.wr 0x00040#20 4 7#32) { State.reset with shadow := globals 3, status := ⟨true, true, true, true, true⟩ })
    t.statusWord = 0#32 ∧ t.shadow.chainLen = 0#32 ∧ t.phase = .idle := by decide

/-! ### The checks of an access (V-S1, V-S2, P6) -/

/-- ERR_INFO and ERR_ADDR after one access from reset. -/
def record (x : HostOp) : Word × Word := ((after (hostAccess x State.reset)).errInfo, (after (hostAccess x State.reset)).errAddr)

theorem test_slot_write_checks :
    [wrWord 0x1000 0x85#32, wrWord 0x1000 8#32, wrWord 0x1000 0x55#32, wrWord 0x1040 0x105#32, wrWord 0x1000 0x87#32,
        wrWord 0x1008 0x7F800000#32, wrWord 0x1008 0x80000000#32].map record =
      [(0#32, 0#32), (0x10#32, 0x1000#32), (0x11#32, 0x1000#32), (0x111#32, 0x1040#32), (0x11#32, 0x1000#32),
        (0x12#32, 0x1008#32), (0#32, 0#32)] := by decide

theorem test_global_write_checks :
    [wrWord 0x54 0x1210#32, wrWord 0x54 0x218#32, wrWord 0x54 0x10#32, wrWord 0x54 0x120#32, wrWord 0x50 0#32,
        wrWord 0x58 0x401#32, wrWord 0x58 0x400#32, wrWord 0x5C 9#32, wrWord 0x5C 8#32].map record =
      [(0xFF13#32, 0x54#32), (0xFF14#32, 0x54#32), (0xFF15#32, 0x54#32), (0#32, 0#32), (0xFF16#32, 0x50#32),
        (0xFF17#32, 0x58#32), (0#32, 0#32), (0xFF18#32, 0x5C#32), (0#32, 0#32)] := by decide

/-- Misaligned, unmapped and mapped reads at the edges of the map of the standard build. -/
theorem test_address_checks :
    [rdWord 0x2, .rd 0x00044#20 2, rdWord 0x100, rdWord 0x24, rdWord 0x3C, rdWord 0x68, rdWord 0x1034, rdWord 0x1200,
        rdWord 0x42000, rdWord 0x84000, rdWord 0xFFFFC].map record =
        [(0xFF01#32, 0x2#32), (0xFF01#32, 0x44#32), (0xFF02#32, 0x100#32), (0xFF02#32, 0x24#32), (0xFF02#32, 0x3C#32),
          (0xFF02#32, 0x68#32), (0xFF02#32, 0x1034#32), (0xFF02#32, 0x1200#32), (0xFF02#32, 0x42000#32),
          (0xFF02#32, 0x84000#32), (0xFF02#32, 0xFFFFC#32)]
      ∧ [rdWord 0x20, rdWord 0x40, rdWord 0x64, rdWord 0x11F0, rdWord 0x41FFC, rdWord 0x83FFC, wrWord 0 0#32].map record =
        List.replicate 7 (0#32, 0#32) := by decide

/-- V-S2: the first error stays until ERR is cleared. -/
theorem test_first_error_wins :
    let t := after (hostAccess (rdWord 2) (after (hostAccess (wrWord 0x1000 8#32) State.reset)))
    t.errInfo = 0x10#32 ∧ t.errAddr = 0x1000#32
      ∧ (after (hostAccess (wrWord 0x44 4#32) t)).errInfo = 0#32 := by decide

/-! ### Witnesses: a state and operands that meet the hypotheses of each obligation -/

theorem tiny_legal : tiny.Legal :=
  ⟨by decide, by decide, by decide, by decide, by decide, by decide, by decide⟩

/-- R7 bounds GAIN_MIN_DB from above alone: -36.0 and minus infinity are legal, the next value above -36.0 and NaN not. -/
theorem test_gainMin_bounds :
    ({ tiny with gainMin := 0xFF800000#32 } : Build).Legal ∧ ({ tiny with gainMin := 0xC2100000#32 } : Build).Legal
      ∧ ¬ ({ tiny with gainMin := 0xC20FFFFF#32 } : Build).Legal ∧ ¬ ({ tiny with gainMin := 0x7FC00000#32 } : Build).Legal :=
  ⟨⟨by decide, by decide, by decide, by decide, by decide, by decide, by decide⟩,
    ⟨by decide, by decide, by decide, by decide, by decide, by decide, by decide⟩,
    fun h => absurd h.gainMin (by decide), fun h => absurd h.gainMin (by decide)⟩

theorem standard_legal : Build.standard.Legal :=
  ⟨by decide, by decide, by decide, by decide, by decide, by decide, by decide⟩

theorem globals_legal : (globals 1).Legal tiny := ⟨by decide, by decide, by decide, by decide⟩

/-- A run in progress at slot 0 whose registers are `p` and whose derived registers and state are as given. -/
def inSlot (p : SlotRegs) (d : Derived) (st : SlotState) : State :=
  { running with slots := [⟨p, p, d, false, st⟩, Slot.reset] }

theorem inSlot_inv (p : SlotRegs) (d : Derived) (st : SlotState) (h : p.Legal) : (inSlot p d st).Inv where
  build := tiny_legal
  slotCount := rfl
  shadow := globals_legal
  reg := globals_legal
  slotShadow := by
    intro x hx
    simp only [inSlot, List.mem_cons, List.not_mem_nil, or_false] at hx
    rcases hx with rfl | rfl
    · exact h
    · exact ⟨by decide, by decide, by decide, by decide⟩
  slotReg := by
    intro x hx
    simp only [inSlot, List.mem_cons, List.not_mem_nil, or_false] at hx
    rcases hx with rfl | rfl
    · exact h
    · exact ⟨by decide, by decide, by decide, by decide⟩
  phase := show (0#8).toNat < (1#32).toNat by decide
  verdict := fun _ => rfl
  errRecord := fun _ => ⟨rfl, rfl⟩

/-- A delay slot with D = 4 and a full history. -/
def delaying : State :=
  inSlot ⟨6#32, 0x40800000#32, 0x3F000000#32, 0#32⟩ { Derived.zero with e1 := 0x3F000000#32, k0 := 4#32 }
    { SlotState.clear with delay := ⟨impulse, impulse⟩ }

theorem delaying_inv : delaying.Inv := inSlot_inv _ _ _ ⟨by decide, by decide, by decide, by decide⟩

/-- A warp-on pitch slot with L = F, three samples queued and none accumulated. -/
def lagging : State :=
  inSlot ⟨0x107#32, 0x3F800000#32, 0#32, 0#32⟩ { Derived.zero with e0 := 0x3F800000#32, k0 := 4#32, k1 := 4#32 }
    { SlotState.clear with pitch := ⟨⟨[], [1#32, 2#32, 3#32]⟩, ⟨[7#32], []⟩⟩ }

theorem lagging_inv : lagging.Inv := inSlot_inv _ _ _ ⟨by decide, by decide, by decide, by decide⟩

theorem witness_StepKeepsLegality : ∃ t, delaying.Inv ∧ step delaying = .next t := ⟨_, delaying_inv, rfl⟩

theorem delaying_delayInv : delaying.DelayInv where
  capacity := by decide
  active := by
    intro i hi _
    have h : i < 1 := hi
    have h0 : i = 0 := by omega
    subst h0
    decide

theorem witness_StepKeepsDelayBounds : ∃ t, delaying.Inv ∧ delaying.DelayInv ∧ step delaying = .next t :=
  ⟨_, delaying_inv, delaying_delayInv, rfl⟩

theorem witness_StepKeepsPitchBounds : ∃ t, lagging.build.Legal ∧ lagging.PitchInv ∧ step lagging = .next t := by
  refine ⟨_, tiny_legal, ?_, rfl⟩
  unfold State.PitchInv PitchLane.Bounded
  decide

/-- The delaying state with the ends of both RAMs written. -/
def written : State :=
  { delaying with mem := [(0x40000, 1#8), (0x401FF, 2#8), (0x80000, 3#8), (0x803FF, 4#8)] }

theorem witness_StepKeepsMemoryForm : ∃ t, written.Inv ∧ written.MemInv ∧ step written = .next t := by
  refine ⟨_, ?_, ⟨by decide, by decide⟩, rfl⟩
  have h := delaying_inv
  exact ⟨h.build, h.slotCount, h.shadow, h.reg, h.slotShadow, h.slotReg, h.phase, h.verdict,
    h.errRecord⟩

theorem delaying_wbInv : delaying.WbInv := by
  intro _ c hc
  have h : c < 1 := hc
  have h0 : c = 0 := by omega
  subst h0
  decide

theorem witness_StepKeepsBufferShape : ∃ t, delaying.WbInv ∧ step delaying = .next t := ⟨_, delaying_wbInv, rfl⟩

/-- StepKeepsDelayBounds and StepKeepsPitchBounds, second clauses: a mono run, one with a change to stereo not yet taken up,
and a stereo run whose slots' lanes agree. -/
theorem witness_LanesAgree :
    (∃ t, delaying.WbInv ∧ delaying.LanesAgree SlotState.delaySizes ∧ delaying.LanesAgree SlotState.pitchSizes
        ∧ step delaying = .next t)
      ∧ (let s : State := { delaying with shadow := { globals 1 with format := 0x220#32 }, pendAll := true }
        s.shadow.channels ≠ s.reg.channels ∧ s.LanesAgree SlotState.delaySizes ∧ s.LanesAgree SlotState.pitchSizes)
      ∧ let s : State := { delaying with
          shadow := { globals 1 with format := 0x220#32 }
          reg := { globals 1 with format := 0x220#32 }
          wb := ⟨impulse, impulse⟩ }
        s.reg.channels = 2 ∧ s.WbInv ∧ s.LanesAgree SlotState.delaySizes ∧ s.LanesAgree SlotState.pitchSizes := by
  refine ⟨⟨_, delaying_wbInv, ⟨by decide, by decide⟩, ⟨by decide, by decide⟩, rfl⟩,
    ⟨by decide, ⟨by decide, by decide⟩, ⟨by decide, by decide⟩⟩, by decide, fun _ c hc => ?_, ⟨by decide, by decide⟩,
    ⟨by decide, by decide⟩⟩
  have h : c < 2 := hc
  interval_cases c <;> decide

theorem witness_LegalStepAnswers : lagging.Inv := lagging_inv

theorem witness_BuildNeverChanges : ∃ t, delaying.slots.length = delaying.build.nSlots ∧ step delaying = .next t :=
  ⟨_, rfl, rfl⟩

theorem witness_DecodeOfEncode : (Instr.slotclr 63).wellFormed = true ∧ (Instr.convsil).wellFormed = true := by decide

/-- The bounds of the address map that DescWrite, ParamWrite, UnmappedAccess, ReadOnlyWritesIgnored, StepRunsDecoded
and InputWordStored assume, with the last slot and the last IN and OUT words. -/
theorem witness_address_bounds :
    Build.standard.nSlots ≤ 64 ∧ 7 < Build.standard.nSlots ∧ Build.standard.maxBuffer ≤ 16384
      ∧ State.reset.phase = .idle ∧ 2047 < 2 * Build.standard.maxBuffer ∧ 4095 < 4 * Build.standard.maxBuffer := by
  decide

/-- DescWrite's three clauses at the boundaries of OPC and FTYPE. -/
theorem witness_DescWrite_clauses :
    (8 ≤ (0x8#32).toNat % 16 ∧ ¬ 8 ≤ (0x7#32).toNat % 16)
      ∧ ((0x55#32).toNat % 16 = 5 ∧ 5 ≤ (0x55#32).toNat / 16 % 8) ∧ ¬ 5 ≤ (0xC5#32).toNat / 16 % 8
      ∧ (0x200#32 &&& ~~~0x0000000F#32) ≠ 0#32 ∧ (0x10F#32 &&& ~~~0x0000010F#32) = 0#32 := by decide

/-- ParamWrite's two clauses: the largest finite pattern and the infinities. -/
theorem witness_ParamWrite_clauses :
    (0x7F7FFFFF#32).toNat / 2 ^ 23 % 256 ≠ 255 ∧ (0xFF800000#32).toNat / 2 ^ 23 % 256 = 255 := by decide

theorem witness_MisalignedAccess :
    ((2 : Nat) ≠ 4 ∨ (0x00044#20).toNat % 4 ≠ 0) ∧ ((4 : Nat) ≠ 4 ∨ (0x00041#20).toNat % 4 ≠ 0) := by decide

/-- UnmappedAccess's clauses at the edges of the map, and ERR_INFO before a mapped access. -/
theorem witness_UnmappedAccess : State.reset.errInfo ≠ 0x0000FF02#32 ∧ ¬ Build.standard.mapped (0x00024#20).toNat ∧ Build.standard.mapped (0x00064#20).toNat
    ∧ Build.standard.mapped (0x011F0#20).toNat ∧ ¬ Build.standard.mapped (0x011F4#20).toNat
    ∧ Build.standard.mapped (0x41FFC#20).toNat ∧ ¬ Build.standard.mapped (0x42000#20).toNat := by
  unfold Build.mapped
  refine ⟨by decide, ?_, .inl (by decide), .inr (.inl ⟨7, by decide⟩), ?_, .inr (.inr (.inl (by decide))), ?_⟩
  all_goals
    rintro (h | ⟨i, hi, h⟩ | h | h) <;> (simp [Build.standard] at *; try omega)

/-- RamWhileBusy's two clauses: a RAM word and a register while a run is in progress. -/
theorem witness_RamWhileBusy :
    delaying.phase ≠ .idle ∧ delaying.build.nSlots ≤ 64 ∧ delaying.build.maxBuffer ≤ 16384
      ∧ tiny.mapped (0x40000#20).toNat ∧ tiny.mapped (0x00040#20).toNat
      ∧ 0x40000 ≤ (0x40000#20).toNat ∧ (0x00040#20).toNat < 0x40000 :=
  ⟨by decide, by decide, by decide, .inr (.inr (.inl (by decide))), .inl (by decide), by decide, by decide⟩

/-- ReadsHaveNoSideEffect's first clause: a read that is answered and one that is refused. What its other clauses assume
stands in witness_address_bounds, with the last slot and RAM words, and in witness_UnmappedAccess. -/
theorem witness_ReadsHaveNoSideEffect :
    hostAccess (.rd 0x00000#20 4) State.reset = .next (State.reset.reply 0x50444C42#32)
      ∧ hostAccess (.rd 0x00002#20 4) State.reset =
        .next ((State.reset.raiseError .busAlign noSlot 0x00002#20).reply 0#32) := ⟨rfl, rfl⟩

/-- CTRL words for RunWhileBusy and for each clause of CommandBitOrder. -/
theorem witness_command_bits :
    delaying.phase ≠ .idle ∧ ((1#32).getLsbD 0 = true ∧ (1#32).getLsbD 1 = false ∧ (1#32).getLsbD 2 = false)
      ∧ ((3#32).getLsbD 0 = true ∧ (3#32).getLsbD 1 = true ∧ (3#32).getLsbD 2 = false)
      ∧ ((2#32).getLsbD 0 = false ∧ (2#32).getLsbD 1 = true ∧ (2#32).getLsbD 2 = false)
      ∧ (7#32).getLsbD 2 = true ∧ ((8#32).getLsbD 0 = false ∧ (8#32).getLsbD 1 = false ∧ (8#32).getLsbD 2 = false) := by
  decide

/-- A descriptor that decodes, and a run whose one slot is a delay of 4 frames derives. -/
theorem witness_CommitTakesEffect :
    decodeDesc (filterRegs 0x453B8000#32 0x3F800000#32 0#32).desc = .ok .filterLpS12 ∧
    let s := configured ⟨6#32, 0x40800000#32, 0x3F000000#32, 0#32⟩ 0x3E8#32
    s.phase = .idle ∧ s.shadow.chainLen.toNat ≤ s.slots.length
      ∧ ∀ i, i < s.shadow.chainLen.toNat → deriveSlot s.build (s.slot i).shadow s.shadow =
        .ok ⟨0x40800000#32, 0x3F000000#32, 0#32, 4#32, 0#32, 0#32, 0#32, 0#32⟩ := by
  refine ⟨rfl, rfl, by decide, fun i hi => ?_⟩
  have h : i < 1 := hi
  have h0 : i = 0 := by omega
  subst h0
  decide +kernel

/-- The second of two slots fails: a NOP derives, a filter with cutoff 0 does not. -/
theorem witness_FirstFailureRefuses :
    let s : State := { State.init tiny with
      shadow := globals 2
      slots := [Slot.reset, { Slot.reset with shadow := filterRegs 0#32 0x3F800000#32 0#32 }] }
    s.phase = .idle ∧ 1 < s.shadow.chainLen.toNat ∧ 1 < s.slots.length
      ∧ (∀ j, j < 1 → ∃ d, deriveSlot s.build (s.slot j).shadow s.shadow = .ok d)
      ∧ deriveSlot s.build (s.slot 1).shadow s.shadow = .error .cutoff := by
  refine ⟨rfl, by decide, by decide, fun j hj => ?_, by decide +kernel⟩
  have h0 : j = 0 := by omega
  subst h0
  exact ⟨Derived.zero, by decide⟩

/-- A run in its COMMIT phase, accepted and refused, and an idle block for RefusedRunEnds with its last OUT word. -/
theorem witness_commit_phase :
    (({ running with phase := .commit, slotPc := 0xFE#8 } : State).phase = .commit ∧ running.verdict = .accepted)
      ∧ (refusing.phase = .commit ∧ refusing.verdict = .refused) ∧ State.reset.phase = .idle
      ∧ refusing.build.maxBuffer ≤ 16384 ∧ 255 < 4 * refusing.build.maxBuffer := by decide +kernel

/-- StepRunsDecoded's clauses: a descriptor, a converter, a pending access to an idle and to a busy block, a single
command and an idle block. -/
theorem witness_StepRunsDecoded :
    (delaying.hostQueue = [] ∧ delaying.phase = .process ∧ decodeDesc delaying.current.reg.desc = .ok .delay)
      ∧ (converting 0x120#32).phase = .convert ∧ decodeFormat (converting 0x120#32).reg.format = .ok .conv32
      ∧ ({ State.reset with hostQueue := [.wait] } : State).hostQueue = .wait :: []
      ∧ ({ delaying with hostQueue := [.rd 0x00044#20 4] } : State).hostQueue = .rd 0x00044#20 4 :: []
      ∧ delaying.phase ≠ .idle ∧ HostOp.rd 0x00044#20 4 ≠ .wait
      ∧ decodeCtrl 2#32 = [.stateclear] ∧ State.reset.hostQueue = [] ∧ State.reset.phase = .idle := by decide

theorem witness_NopPasses_and_ErrorRecord : SlotRegs.zero.desc = 0#32 ∧ (4#32).getLsbD 2 = true := by decide

theorem witness_PendingClearsSet : 7 < State.reset.build.nSlots ∧ 7 < State.reset.slots.length := by decide

/-- Where slot_pc names a slot: the hypothesis of the filter and pitch statements, with DelayLine's and WarpLatency's. -/
theorem witness_slot_statements :
    (delaying.slotPc.toNat < delaying.slots.length ∧ 0 < delaying.current.derived.k0.toNat
        ∧ ∀ c, c < 2 → (delaying.current.state.delay.get c).length ≤ delaying.current.derived.k0.toNat)
      ∧ lagging.slotPc.toNat < lagging.slots.length ∧ lagging.current.derived.k0.toNat = lagging.build.psFrame := by
  decide

theorem witness_WarpLatency :
    lagging.build.Legal ∧ ∀ c, c < 2 → (lagging.current.state.pitch.get c).Lagging lagging.build.psFrame := by
  refine ⟨tiny_legal, ?_⟩
  unfold PitchLane.Lagging
  decide

/-- Legal registers for the derivation statements. -/
theorem witness_derivations :
    (filterRegs 0x453B8000#32 0x3F800000#32 0#32).Legal ∧ tiny.Legal ∧ (globals 1).Legal tiny :=
  ⟨⟨by decide, by decide, by decide, by decide⟩, tiny_legal, globals_legal⟩

/-- DelayLength's two clauses at the capacity: 64 ms at 1000 Hz is the last length of the tiny build, 65 ms too long. -/
theorem witness_DelayLength_clauses :
    max (delayRaw 1000 0x42800000#32) (globals 1).frames = tiny.maxDelay
      ∧ tiny.maxDelay < max (delayRaw 1000 0x42820000#32) (globals 1).frames := by decide +kernel

/-- R210 and V-L7: a feedback of -0.2 is clamped to +0.0, and -0.0, which equals +0.0 (R13), stays. -/
theorem test_delay_feedback_clamp :
    derive .delay tiny ⟨6#32, 0x40800000#32, 0xBE4CCCCD#32, 0#32⟩ (globals 1) =
        .ok ⟨0x40800000#32, 0x00000000#32, 0#32, 4#32, 0#32, 0#32, 0#32, 0#32⟩
      ∧ derive .delay tiny ⟨6#32, 0x40800000#32, 0x80000000#32, 0#32⟩ (globals 1) =
        .ok ⟨0x40800000#32, 0x80000000#32, 0#32, 4#32, 0#32, 0#32, 0#32, 0#32⟩ := by decide +kernel

/-- Clamped's three clauses at the ends, which exclude each other: each end is within, its neighbour beyond. -/
theorem witness_Clamped :
    (Binary32.real 0xBF800000#32 ≤ Binary32.real 0x3F800000#32 ∧ Binary32.real 0x3F800000#32 ≤ Binary32.real 0x3F800000#32)
      ∧ Binary32.real 0x3F800000#32 < Binary32.real 0x3F800001#32
      ∧ Binary32.real 0xBF800001#32 < Binary32.real 0xBF800000#32 := by decide +kernel

/-- ClipBounds and ConversionTruncates: ordered finite ends, and a finite value, a NaN and an infinity. -/
theorem witness_values :
    Binary32.isFinite 0xBF800000#32 = true ∧ Binary32.isFinite 0x3F800000#32 = true
      ∧ Binary32.real 0xBF800000#32 ≤ Binary32.real 0x3F800000#32 ∧ Binary32.isFinite 0x00000001#32 = true
      ∧ Binary32.isNaN 0x7FC00000#32 = true ∧ Binary32.isInf 0xFF800000#32 = true := by decide +kernel

/-- UnityGainPasses: K0 = 1.0 and a sample that is not NaN. -/
theorem witness_UnityGainPasses :
    let s := applying 1#32 { Derived.zero with k0 := 0x3F800000#32 } impulse
    s.current.derived.k0 = 0x3F800000#32 ∧ Binary32.isNaN (s.sample 0 0) = false := by decide

theorem witness_HostCannotDisturbRun :
    ∃ t, delaying.phase ≠ .idle ∧ (HostOp.wr 0x0005C#20 4 2#32).isReset = false
      ∧ hostAccess (.wr 0x0005C#20 4 2#32) delaying = .next t ∧ t ≠ delaying :=
  ⟨_, by decide, by decide, rfl, by decide⟩

/-- Two states of one view whose host sides differ. -/
theorem witness_EngineDependsOnView :
    let s' : State := { delaying with shadow := globals 2, intEn := ⟨true, true⟩, pendAll := true }
    ∃ t, delaying.phase ≠ .idle ∧ delaying.engineView = s'.engineView ∧ delaying ≠ s' ∧ engineStep delaying = .next t :=
  ⟨_, by decide, by decide, by decide, rfl⟩

theorem witness_EngineWritesOnlyItsOwn : ∃ t, engineStep delaying = .next t ∧ t ≠ delaying := ⟨_, rfl, by decide +kernel⟩

theorem witness_RunEnds :
    delaying.Inv ∧ (delaying.hostQueue = [] ∨ delaying.hostQueue.head? = some .wait) ∧ delaying.phase ≠ .idle :=
  ⟨delaying_inv, .inl rfl, by decide⟩

/-- A legal refused run in progress, for RunEnds and StepKeepsLegality. -/
theorem witness_refused_run_legal :
    let s : State := { delaying with phase := .commit, slotPc := 0xFE#8, verdict := .refused }
    s.Inv ∧ s.hostQueue = [] ∧ s.phase ≠ .idle ∧ s.verdict = .refused := by
  have h := delaying_inv
  exact ⟨⟨h.build, h.slotCount, h.shadow, h.reg, h.slotShadow, h.slotReg, rfl, fun h => absurd rfl h, h.errRecord⟩, rfl,
    by decide, rfl⟩

/-- RoundsToNearestEven: a finite result that ties to even, the overflow threshold and the real just below it. -/
theorem witness_RoundsToNearestEven :
    Binary32.rnd32 (2 ^ 24 + 1) (2 ^ 24) = 0x3F800000#32 ∧ Binary32.rnd32 (2 ^ 128 - 2 ^ 103) 1 = 0x7F800000#32
      ∧ Binary32.rnd32 (-(2 ^ 128 - 2 ^ 103 - 1)) 1 = 0xFF7FFFFF#32 := by decide +kernel

/-- RoundsToNearestEven's clauses of R12: the fractions of a sum, a difference and a product, zero ones too, and NaN and
infinite operands with a zero and a nonzero partner. -/
theorem witness_arithmetic :
    (Binary32.isFinite 0x3F800000#32 = true ∧ Binary32.isFinite 0x40000000#32 = true)
      ∧ ((3 : Int) : Rat) / (1 : Nat) = Binary32.real 0x3F800000#32 + Binary32.real 0x40000000#32
      ∧ ((-1 : Int) : Rat) / (1 : Nat) = Binary32.real 0x3F800000#32 - Binary32.real 0x40000000#32
      ∧ ((2 : Int) : Rat) / (1 : Nat) = Binary32.real 0x3F800000#32 * Binary32.real 0x40000000#32
      ∧ ((0 : Int) : Rat) / (1 : Nat) = Binary32.real 0x80000000#32 + Binary32.real 0x80000000#32
      ∧ (Binary32.isNaN 0x7FC00000#32 = true ∧ Binary32.isInf 0x7F800000#32 = true ∧ Binary32.isInf 0xFF800000#32 = true)
      ∧ Binary32.isNaN 0x7F800000#32 = false ∧ Binary32.isNaN 0x80000000#32 = false
      ∧ Binary32.real 0x7F800000#32 * Binary32.real 0x80000000#32 = 0
      ∧ Binary32.real 0x7F800000#32 * Binary32.real 0xFF800000#32 ≠ 0 := by decide +kernel

/-- IEEE 754's special results, written out: the zero signs, opposite infinities, and zero times infinity (R12). -/
theorem test_special_results :
    Binary32.add32 0x80000000#32 0x80000000#32 = 0x80000000#32 ∧ Binary32.add32 0x3F800000#32 0xBF800000#32 = 0#32
      ∧ Binary32.sub32 0x80000000#32 0#32 = 0x80000000#32 ∧ Binary32.mul32 0xBF800000#32 0#32 = 0x80000000#32
      ∧ Binary32.isNaN (Binary32.add32 0x7F800000#32 0xFF800000#32) = true
      ∧ Binary32.isNaN (Binary32.mul32 0#32 0xFF800000#32) = true
      ∧ Binary32.mul32 0xBF800000#32 0xFF800000#32 = 0x7F800000#32 := by decide +kernel

/-- PassFilterSymmetry's other clauses: a shelf of 0 dB within its cutoff range, where the enclosures hold cos, sin and
10^0 of a quarter turn. -/
theorem witness_shelf_of_0_dB :
    let p := filterRegs 0x437A0000#32 0x3F800000#32 0x80000000#32
    (0 < Binary32.real p.p0 ∧ Binary32.real p.p0 < ((globals 1).sampleRate.toNat : Rat) / 2 ∧ p.p2 = 0x80000000#32)
      ∧ Holds (ExactReal.cosTurn (Binary32.real p.p0 / ((globals 1).sampleRate.toNat : Rat))) 0
      ∧ Holds (ExactReal.sinTurn (Binary32.real p.p0 / ((globals 1).sampleRate.toNat : Rat))) 1
      ∧ Holds (ExactReal.pow10 (Binary32.real p.p2 / 40)) 1 ∧ (0 : ℝ) < 1 := by
  intro p
  have hq : Binary32.real p.p0 / ((globals 1).sampleRate.toNat : Rat) = 1 / 4 := by decide +kernel
  have hc : ExactReal.cosTurn (1 / 4) = ExactReal.point 0 := by decide +kernel
  have hs : ExactReal.sinTurn (1 / 4) = ExactReal.point 1 := by decide +kernel
  have ha : ExactReal.pow10 (Binary32.real p.p2 / 40) = ExactReal.point 1 := by decide +kernel
  have hold (r : ℚ) (x : ℝ) (h : (r : ℝ) = x) : Holds (ExactReal.point r) x := ⟨h.le, h.ge⟩
  rw [hq, hc, hs, ha]
  exact ⟨by decide +kernel, hold 0 0 (by norm_num), hold 1 1 (by norm_num), hold 1 1 (by norm_num), one_pos⟩

/-! ### Rounding an enclosed real -/

/-- 2^27 < e^20, from e > 2.7. -/
theorem exp_twenty_gt : (2 : ℝ) ^ 27 < Real.exp 20 := by
  have h : (2.7 : ℝ) ≤ Real.exp 1 := by linarith [Real.exp_one_gt_d9]
  calc (2 : ℝ) ^ 27 < 2.7 ^ 20 := by norm_num
    _ ≤ Real.exp 1 ^ 20 := by gcongr
    _ = Real.exp 20 := by rw [← Real.exp_nat_mul]; norm_num

/-- SatTakesTanh's last clause at 10.0 and at -10.0: the enclosure holds tanh, and its ends round alike. -/
theorem witness_SatTakesTanh :
    (Binary32.isFinite 0x41200000#32 = true ∧ Binary32.isFinite 0xC1200000#32 = true
        ∧ (0x41200000#32 ≠ 0#32 ∧ 0x41200000#32 ≠ 0x80000000#32) ∧ 0xC1200000#32 ≠ 0#32 ∧ 0xC1200000#32 ≠ 0x80000000#32)
      ∧ Holds (ExactReal.tanhPos (Binary32.real 0x41200000#32)) (Real.tanh (Binary32.real 0x41200000#32 : ℝ))
      ∧ Decided (ExactReal.tanhPos (Binary32.real 0x41200000#32))
      ∧ Holds (ExactReal.neg (ExactReal.tanhPos (-Binary32.real 0xC1200000#32))) (Real.tanh (Binary32.real 0xC1200000#32 : ℝ))
      ∧ Decided (ExactReal.neg (ExactReal.tanhPos (-Binary32.real 0xC1200000#32))) := by
  have hp : Binary32.real 0x41200000#32 = 10 := by decide +kernel
  have hn : Binary32.real 0xC1200000#32 = -10 := by decide +kernel
  have he : ExactReal.tanhPos 10 = ⟨67108863 / 67108864, 1⟩ := by decide +kernel
  have ht : (67108863 / 67108864 : ℝ) ≤ Real.tanh 10 ∧ Real.tanh 10 ≤ 1 := by
    have h20 := exp_twenty_gt
    have h10 : Real.exp 20 = Real.exp 10 * Real.exp 10 := by rw [← Real.exp_add]; norm_num
    have hpos := Real.exp_pos 10
    have hinv : Real.exp (-10) = 1 / Real.exp 10 := by rw [Real.exp_neg, one_div]
    rw [h10] at h20
    rw [Real.tanh_eq_sinh_div_cosh, Real.sinh_eq, Real.cosh_eq, hinv]
    have hsum : 0 < (Real.exp 10 + 1 / Real.exp 10) / 2 := by positivity
    rw [le_div_iff₀ hsum, div_le_one hsum]
    have hone : 1 / Real.exp 10 * Real.exp 10 = 1 := by field_simp
    have hi : 0 < 1 / Real.exp 10 := by positivity
    constructor
    · have : 1 / Real.exp 10 * 2 ^ 27 ≤ Real.exp 10 := by
        rw [div_mul_eq_mul_div, one_mul, div_le_iff₀ hpos]
        exact h20.le
      linarith
    · linarith
  rw [hp, hn, neg_neg, he]
  refine ⟨by decide, ⟨by push_cast; exact ht.1, by push_cast; exact ht.2⟩, by decide +kernel, ⟨?_, ?_⟩, by decide +kernel⟩
  · simp only [ExactReal.neg]; push_cast; rw [Real.tanh_neg]; linarith [ht.2]
  · simp only [ExactReal.neg]; push_cast; rw [Real.tanh_neg]; linarith [ht.1]

/-- DriveDerivation's first clause at 20 dB, where 10^1 is exact; and PassFilterSymmetry's last two at 1/2. -/
theorem witness_gain_and_rounding :
    (Holds (ExactReal.pow10 (Binary32.real 0x41A00000#32 / 20)) ((10 : ℝ) ^ ((Binary32.real 0x41A00000#32 : ℝ) / 20))
        ∧ Decided (ExactReal.pow10 (Binary32.real 0x41A00000#32 / 20)))
      ∧ 0 < (ExactReal.point (1 / 2)).lo ∧ Holds (ExactReal.point (1 / 2)) (1 / 2)
      ∧ Decided (ExactReal.point (1 / 2)) ∧ Decided ⟨-1 / 2 ^ 200, 0⟩ := by
  have h20 : Binary32.real 0x41A00000#32 = 20 := by decide +kernel
  have he : ExactReal.pow10 (20 / 20) = ExactReal.point 10 := by decide +kernel
  have hr : (10 : ℝ) ^ (((20 : ℚ) : ℝ) / 20) = 10 := by
    rw [show (((20 : ℚ) : ℝ) / 20) = 1 by norm_num, Real.rpow_one]
  rw [h20, he, hr]
  refine ⟨⟨⟨by norm_num [ExactReal.point], by norm_num [ExactReal.point]⟩, by decide +kernel⟩, by decide +kernel,
    ⟨by norm_num [ExactReal.point], by norm_num [ExactReal.point]⟩, by decide +kernel, by decide +kernel⟩

end Sys2Proof.Tests
end

/-! PROOFS. What no step changes: the build parameters, the number of slots and so the capability registers
(spec/00_scope.md R7, spec/10_state.md R34). -/

namespace Sys2Proof.Machine

/-- The block was built with `b`: it holds the parameters of `b` and as many slots as `b` has. -/
structure State.BuiltWith (b : Build) (s : State) : Prop where
  build : s.build = b
  slotCount : s.slots.length = b.nSlots

section
variable {b : Build} {s t : State}

theorem State.BuiltWith.congr (h : s.BuiltWith b) (hb : t.build = s.build) (hl : t.slots.length = s.slots.length) :
    t.BuiltWith b :=
  ⟨hb.trans h.build, hl.trans h.slotCount⟩

theorem State.init_builtWith (b : Build) : (State.init b).BuiltWith b := ⟨rfl, List.length_replicate⟩

/-- A host access that keeps the machine keeps the number of slots. -/
theorem HostKeeps.slotCount (h : HostKeeps s t) : t.slots.length = s.slots.length := by
  rcases h.slots with h | ⟨i, f, h, -⟩ <;> simp [h]

/-- A RUN of an idle block, refused or not, commits registers and slots in place (R153). -/
theorem exec_run_builtWith (h : s.BuiltWith b) (hp : s.phase = .idle) (hs : exec .run s = .next t) :
    t.BuiltWith b := by
  rcases exec_run_idle s hp with ⟨u, hu, e⟩ | ⟨c, -, e⟩
  · obtain ⟨ds, -, rfl⟩ := State.commit_ok hu
    cases e.symm.trans hs
    exact h.congr rfl (commitSlots_length _ _ _)
  · cases e.symm.trans hs
    exact h.congr rfl rfl

/-- A SOFT_RESET rebuilds the block with the parameters it has (R321). -/
theorem exec_reset_builtWith (h : s.BuiltWith b) (hs : exec .reset s = .next t) : t.BuiltWith b := by
  cases hs
  exact h.build ▸ (State.init_builtWith s.build).congr rfl rfl

theorem hostAccess_builtWith (x : HostOp) (h : s.BuiltWith b) (hs : hostAccess x s = .next t) : t.BuiltWith b := by
  rcases hostAccess_cases x hs with ⟨hk, -⟩ | ⟨hp, p, hr⟩ | ⟨hr, -⟩
  · exact h.congr hk.build hk.slotCount
  · exact exec_run_builtWith (s := { s with pendAll := p }) (h.congr rfl rfl) hp hr
  · exact exec_reset_builtWith h hr

theorem engineStep_builtWith (h : s.BuiltWith b) (hs : engineStep s = .next t) : t.BuiltWith b := by
  rcases engineStep_cases s with ⟨-, e⟩ | ⟨-, e⟩ | ⟨-, i, hi, e⟩ | ⟨-, i, hi, e⟩ | ⟨f, e, -⟩
  · cases e.symm.trans hs
    exact h
  · cases e.symm.trans hs
    rcases s.endCommit_cases with ⟨-, hc⟩ | ⟨-, hc⟩ <;> exact h.congr (by simp [hc]) (by simp [hc])
  · obtain ⟨wb, ovf, f, hx, -⟩ := exec_desc s (decodeDesc_isDesc hi)
    cases (e.trans hx).symm.trans hs
    exact h.congr (by simp [State.slotChange]) (by simp [State.slotChange])
  · obtain ⟨ws, u, hx, -⟩ := exec_format s hi
    cases (e.trans hx).symm.trans hs
    exact h.congr rfl rfl
  · cases e.symm.trans hs

theorem step_builtWith (h : s.BuiltWith b) (hs : step s = .next t) : t.BuiltWith b :=
  step_induction (P := State.BuiltWith b) (fun _ _ _ _ hb => hb.congr rfl rfl) (fun _ _ x => hostAccess_builtWith x)
    (fun _ _ => engineStep_builtWith) s t h hs

/-- ID, VERSION and the capability registers read the build parameters alone (R35-R43). -/
theorem readGlobal_capability_of_build_eq (h : t.build = s.build) :
    ∀ r ∈ [GlobalReg.id, .version, .cap0, .capBuf, .capDelay, .capPsf, .capPsq, .capGmin, .capGmax],
      t.readGlobal r = s.readGlobal r := by
  simp [State.readGlobal, h]

end

/-- Settles O9: a step keeps the build and the number of slots, and the capability registers read the build. -/
theorem buildNeverChanges : Obligations.BuildNeverChanges := by
  intro s t hl hs
  have hb : t.BuiltWith s.build := step_builtWith ⟨rfl, hl⟩ hs
  exact ⟨hb.build, hb.slotCount.trans hl.symm, readGlobal_capability_of_build_eq hb.build⟩

end Sys2Proof.Machine

/-! PROOFS. clip against ordered finite ends (spec/00_scope.md R13): the comparisons of patterns read as comparisons of
their values, infinities beyond every finite value. -/

namespace Sys2Proof.Binary32

/-- Patterns are ordered by value as their keys are, infinities too. -/
theorem real_lt_iff_key_lt (a b : F32) : real a < real b ↔ key a < key b := by
  rw [real_eq, real_eq, div_lt_div_iff_of_pos_right (by positivity), Int.cast_lt, key_lt_iff]

theorem isInf_iff (v : F32) : isInf v = true ↔ mag v = 0x7F800000 := by simp [isInf]

theorem isFinite_iff (v : F32) : isFinite v = true ↔ mag v < 0x7F800000 := by simp [isFinite]

/-- A pattern that is not NaN is infinite or finite (R10). -/
theorem isInf_or_isFinite {v : F32} (h : isNaN v = false) : isInf v = true ∨ isFinite v = true := by
  simp only [isNaN, decide_eq_false_iff_not] at h
  rw [isInf_iff, isFinite_iff]
  omega

theorem not_isNaN_of_isInf {v : F32} (h : isInf v = true) : isNaN v = false := by
  simp [isNaN, (isInf_iff v).mp h]

/-- An infinity is beyond every finite value, on the side of its sign. -/
theorem isInf_beyond {v u : F32} (hv : isInf v = true) (hu : isFinite u = true) :
    if v.msb then real v < real u else real u < real v := by
  rw [isInf_iff] at hv
  rw [isFinite_iff] at hu
  have hku : -0x7F800000 < key u ∧ key u < 0x7F800000 := by unfold key; split <;> omega
  have hkv : key v = if v.msb then -0x7F800000 else 0x7F800000 := by rw [key, hv]; rfl
  rw [real_lt_iff_key_lt, real_lt_iff_key_lt, hkv]
  split
  · exact hku.1
  · exact hku.2

/-- What lies between finite values is finite. -/
theorem isFinite_of_between {v lo hi : F32} (hlo : isFinite lo = true) (hhi : isFinite hi = true)
    (hv : isNaN v = false) (h1 : real lo ≤ real v) (h2 : real v ≤ real hi) : isFinite v = true := by
  refine (isInf_or_isFinite hv).resolve_left fun hi' => ?_
  have hl := isInf_beyond hi' hlo
  have hh := isInf_beyond hi' hhi
  cases hs : v.msb <;> simp only [hs, if_true, if_false, Bool.false_eq_true] at hl hh
  · exact h2.not_gt hh
  · exact h1.not_gt hl

/-- NaN compares false with everything, so clip passes it (R13). -/
theorem clip_of_isNaN {v : F32} (h : isNaN v = true) (lo hi : F32) : clip v lo hi = v := by
  simp [clip, lt32, h]

section
variable {v lo hi : F32} (hlo : isFinite lo = true) (hhi : isFinite hi = true) (hv : isNaN v = false)
include hhi hv

theorem clip_of_above (h : real hi < real v) : clip v lo hi = hi := by
  rw [clip, if_pos ((lt32_iff (not_isNaN_of_isFinite hhi) hv).mpr h)]

include hlo

theorem clip_of_not_above (h : real v ≤ real hi) : clip v lo hi = if real v < real lo then lo else v := by
  have h1 := (lt32_iff (not_isNaN_of_isFinite hhi) hv).not.mpr h.not_gt
  simp only [clip, if_neg h1, lt32_iff hv (not_isNaN_of_isFinite hlo)]

theorem clip_of_below (hle : real lo ≤ real hi) (h : real v < real lo) : clip v lo hi = lo := by
  rw [clip_of_not_above hlo hhi hv (h.le.trans hle), if_pos h]

theorem clip_of_within (h1 : real lo ≤ real v) (h2 : real v ≤ real hi) : clip v lo hi = v := by
  rw [clip_of_not_above hlo hhi hv h2, if_neg h1.not_gt]

/-- Against ordered finite ends, what is not NaN clips to a finite value within them. -/
theorem clip_bounded (hle : real lo ≤ real hi) :
    isFinite (clip v lo hi) = true ∧ real lo ≤ real (clip v lo hi) ∧ real (clip v lo hi) ≤ real hi := by
  rcases lt_or_ge (real hi) (real v) with ha | ha
  · rw [clip_of_above hhi hv ha]
    exact ⟨hhi, hle, le_rfl⟩
  rcases lt_or_ge (real v) (real lo) with hb | hb
  · rw [clip_of_below hlo hhi hv hle hb]
    exact ⟨hlo, le_rfl, hle⟩
  · rw [clip_of_within hlo hhi hv hb ha]
    exact ⟨isFinite_of_between hlo hhi hv hb ha, hb, ha⟩

theorem clip_clamped (hle : real lo ≤ real hi) : Machine.Clamped v lo hi (clip v lo hi) where
  within := clip_of_within hlo hhi hv
  above := clip_of_above hhi hv
  below := clip_of_below hlo hhi hv hle

end

/-- An infinity clips to the end on its side. -/
theorem clip_of_isInf {v lo hi : F32} (hlo : isFinite lo = true) (hhi : isFinite hi = true)
    (hle : real lo ≤ real hi) (h : isInf v = true) : clip v lo hi = if v.msb then lo else hi := by
  have hv := not_isNaN_of_isInf h
  have h1 := isInf_beyond h hlo
  have h2 := isInf_beyond h hhi
  cases hs : v.msb
  · exact clip_of_above hhi hv (by simpa [hs] using h2)
  · exact clip_of_below hlo hhi hv hle (by simpa [hs] using h1)

/-- Settles O45: NaN passes, an infinity goes to the end on its side, and any other value is clamped. -/
theorem clipBounds : Obligations.ClipBounds := fun _ lo hi hlo hhi hle =>
  ⟨fun hn => clip_of_isNaN hn lo hi, fun hn => clip_bounded hlo hhi hn hle,
    fun hf => clip_clamped hlo hhi (not_isNaN_of_isFinite hf) hle, clip_of_isInf hlo hhi hle⟩

end Sys2Proof.Binary32

/-! PROOFS. rnd32 is the nearest binary32, ties to even (spec/00_scope.md R11), and add32, sub32 and mul32 round the exact
result with IEEE 754's special values (R12). -/

namespace Sys2Proof.Binary32

/-! ### The rounding -/

@[simp] theorem mag_rnd32 (n : Int) (d : Nat) : mag (rnd32 n d) = roundMag n.natAbs d :=
  (mag_pack _ _ ((roundMag_le _ _).trans_lt (by norm_num))).1

@[simp] theorem sign_rnd32 (n : Int) (d : Nat) : sign (rnd32 n d) = decide (n < 0) :=
  (mag_pack _ _ ((roundMag_le _ _).trans_lt (by norm_num))).2

@[simp] theorem roundMag_zero (d : Nat) : roundMag 0 d = 0 := if_pos rfl

@[simp] theorem magUnits_zero : magUnits 0 = 0 := rfl

theorem isNaN_rnd32 (n : Int) (d : Nat) : isNaN (rnd32 n d) = false := by
  simp [isNaN, roundMag_le]

/-- A pattern is even exactly where its magnitude is. -/
theorem toNat_mod_two (v : F32) : v.toNat % 2 = mag v % 2 := by
  unfold mag
  omega

/-- roundMag_near for any numerator: 0 rounds to 0, which no other magnitude comes as near to. -/
theorem roundMag_nearest (n d : Nat) (hd : 0 < d) (hfin : roundMag n d < 0x7F800000) (k : Nat) :
    |(n : ℚ) / d * 2 ^ 149 - magUnits (roundMag n d)| ≤ |(n : ℚ) / d * 2 ^ 149 - magUnits k|
      ∧ (|(n : ℚ) / d * 2 ^ 149 - magUnits (roundMag n d)| = |(n : ℚ) / d * 2 ^ 149 - magUnits k| →
        magUnits k ≠ magUnits (roundMag n d) → roundMag n d % 2 = 0) := by
  rcases Nat.eq_zero_or_pos n with rfl | hn
  · simp
  · exact roundMag_near n d hn hd hfin k

/-- The value of a pattern: its magnitude in units of 2^-149, with its sign. -/
theorem real_eq_ite (v : F32) :
    real v = if sign v then -((magUnits (mag v) : ℚ) / 2 ^ 149) else (magUnits (mag v) : ℚ) / 2 ^ 149 := by
  rw [real_eq, units]
  split <;> push_cast <;> ring

/-- The distance of two signed magnitudes. -/
theorem abs_signed_sub (p q : Bool) {x y : ℚ} (hx : 0 ≤ x) (hy : 0 ≤ y) :
    |(if p then -x else x) - (if q then -y else y)| = if p = q then |y - x| else y + x := by
  have hadd : |x + y| = y + x := by rw [abs_of_nonneg (add_nonneg hx hy), add_comm]
  cases p <;> cases q <;> simp only [Bool.false_eq_true, Bool.true_eq_false, if_true, if_false]
  · exact abs_sub_comm x y
  · rw [sub_neg_eq_add, hadd]
  · rw [← neg_add', abs_neg, hadd]
  · rw [neg_sub_neg]

/-- A fraction as a signed magnitude. -/
theorem intCast_div_eq_ite (n : Int) (d : Nat) :
    (n : ℚ) / d = if decide (n < 0) then -((n.natAbs : ℚ) / d) else (n.natAbs : ℚ) / d := by
  rw [Nat.cast_natAbs]
  by_cases h : n < 0
  · simp [h, abs_of_neg h, neg_div]
  · simp [h, abs_of_nonneg (not_lt.mp h)]

/-- The distance from a pattern to n/d in units of 2^-149: of the magnitudes where the signs agree, else their sum. -/
theorem abs_real_sub (u : F32) (n : Int) (d : Nat) :
    |real u - (n : ℚ) / d| * 2 ^ 149 =
      if sign u = decide (n < 0) then |(n.natAbs : ℚ) / d * 2 ^ 149 - magUnits (mag u)|
      else (n.natAbs : ℚ) / d * 2 ^ 149 + magUnits (mag u) := by
  have hpos : (0 : ℚ) < 2 ^ 149 := by positivity
  have hm : (magUnits (mag u) : ℚ) / 2 ^ 149 * 2 ^ 149 = magUnits (mag u) := div_mul_cancel₀ _ hpos.ne'
  have hscale (x : ℚ) : |x| * 2 ^ 149 = |x * 2 ^ 149| := by rw [abs_mul, abs_of_pos hpos]
  rw [real_eq_ite, intCast_div_eq_ite, abs_signed_sub _ _ (by positivity) (by positivity), ite_mul, add_mul, hscale,
    sub_mul, hm]

/-- No finite pattern is nearer n/d than its rounding, and of two values equally near it is the even one (R11). -/
theorem rnd32_nearest (n : Int) (d : Nat) (hd : 0 < d) (hfin : isFinite (rnd32 n d) = true) (u : F32) :
    |real (rnd32 n d) - (n : ℚ) / d| ≤ |real u - (n : ℚ) / d|
      ∧ (|real (rnd32 n d) - (n : ℚ) / d| = |real u - (n : ℚ) / d| → real u ≠ real (rnd32 n d) →
        (rnd32 n d).toNat % 2 = 0) := by
  have hpos : (0 : ℚ) < 2 ^ 149 := by positivity
  have near := roundMag_nearest n.natAbs d hd (by simpa [isFinite_iff] using hfin)
  have hv := abs_real_sub (rnd32 n d) n d
  rw [sign_rnd32, if_pos rfl, mag_rnd32] at hv
  rw [toNat_mod_two, mag_rnd32, ← mul_le_mul_iff_left₀ hpos, ← mul_left_inj' hpos.ne', hv, abs_real_sub]
  split
  case isTrue hs =>
    refine ⟨(near (mag u)).1, fun he hne => (near (mag u)).2 he fun hm => hne ?_⟩
    rw [real_eq_ite, real_eq_ite, hs, sign_rnd32, mag_rnd32, hm]
  case isFalse hs =>
    obtain ⟨near0, even0⟩ := near 0
    have hn : (0 : ℚ) ≤ (n.natAbs : ℚ) / d * 2 ^ 149 := by positivity
    have hu : (0 : ℚ) ≤ magUnits (mag u) := by positivity
    rw [magUnits_zero, Nat.cast_zero, sub_zero, abs_of_nonneg hn] at near0 even0
    refine ⟨near0.trans (le_add_of_nonneg_right hu), fun he hne => ?_⟩
    have hu0 : (magUnits (mag u) : ℚ) = 0 := by linarith
    refine even0 (by rw [he, hu0, add_zero]) fun hm => hne ?_
    rw [real_eq_ite, real_eq_ite, hu0, mag_rnd32, ← hm]
    simp

/-! ### The operations -/

/-- rnd32 depends on the quotient alone. -/
theorem rnd32_congr {n n' : Int} {d d' : Nat} (hd : 0 < d) (hd' : 0 < d') (h : (n : ℚ) / d = (n' : ℚ) / d') :
    rnd32 n d = rnd32 n' d' := by
  rw [rnd32_eq_rnd32Rat n d hd, rnd32_eq_rnd32Rat n' d' hd', h]

/-- A fraction is zero exactly where its numerator is. -/
theorem intCast_div_eq_zero_iff {n : Int} {d : Nat} (hd : 0 < d) : (n : ℚ) / d = 0 ↔ n = 0 := by
  rw [div_eq_zero_iff, or_iff_left (by exact_mod_cast hd.ne'), Int.cast_eq_zero]

theorem not_isInf_of_isFinite {v : F32} (h : isFinite v = true) : isInf v = false := by
  rw [isFinite_iff] at h
  simpa [isInf] using h.ne

@[simp] theorem mag_neg32 (v : F32) : mag (neg32 v) = mag v := by
  simp only [mag, neg32, BitVec.toNat_xor, Nat.xor_mod_two_pow]
  simp

@[simp] theorem sign_neg32 (v : F32) : sign (neg32 v) = !sign v := by
  simp [sign, neg32, BitVec.msb_xor, show (0x80000000#32 : F32).msb = true from rfl]

@[simp] theorem isNaN_neg32 (v : F32) : isNaN (neg32 v) = isNaN v := by simp [isNaN]

@[simp] theorem isInf_neg32 (v : F32) : isInf (neg32 v) = isInf v := by simp [isInf]

@[simp] theorem isFinite_neg32 (v : F32) : isFinite (neg32 v) = isFinite v := by simp [isFinite]

@[simp] theorem real_neg32 (v : F32) : real (neg32 v) = -real v := by
  rw [real_eq_ite, real_eq_ite]
  cases h : sign v <;> simp [h]

/-- Equal signed magnitudes have equal magnitudes and, but for zero, equal signs. -/
theorem eq_of_signed_eq {p q : Bool} {x y : ℚ} (hx : 0 ≤ x) (hy : 0 ≤ y)
    (h : (if p then -x else x) = if q then -y else y) : x = y ∧ (x ≠ 0 → p = q) := by
  cases p <;> cases q <;> simp only [Bool.false_eq_true, if_true, if_false] at h
  · exact ⟨h, fun _ => rfl⟩
  · exact ⟨by linarith, fun hne => absurd (by linarith) hne⟩
  · exact ⟨by linarith, fun hne => absurd (by linarith) hne⟩
  · exact ⟨neg_inj.mp h, fun _ => rfl⟩

/-- A product as a signed magnitude. -/
theorem real_mul_eq_ite (a b : F32) :
    real a * real b =
      if sign a != sign b then -(((magUnits (mag a) * magUnits (mag b) : ℕ) : ℚ) / (2 ^ 149 * 2 ^ 149 : ℕ))
      else ((magUnits (mag a) * magUnits (mag b) : ℕ) : ℚ) / (2 ^ 149 * 2 ^ 149 : ℕ) := by
  have hm : ((magUnits (mag a) * magUnits (mag b) : ℕ) : ℚ) / (2 ^ 149 * 2 ^ 149 : ℕ) =
      (magUnits (mag a) : ℚ) / 2 ^ 149 * ((magUnits (mag b) : ℚ) / 2 ^ 149) := by
    simp only [div_mul_div_comm, Nat.cast_mul, Nat.cast_pow, Nat.cast_ofNat]
  rw [hm, real_eq_ite, real_eq_ite]
  cases sign a <;> cases sign b <;> simp

section
variable {a b : F32} (ha : isFinite a = true) (hb : isFinite b = true) {n : Int} {d : Nat} (hd : 0 < d)
include ha hb hd

/-- add32 of finite operands is the rounded sum; a zero sum is -0 for two negative zeros alone (R12). -/
theorem add32_of_isFinite (h : (n : ℚ) / d = real a + real b) :
    add32 a b = if n ≠ 0 then rnd32 n d else if a.msb && b.msb then 0x80000000#32 else 0x00000000#32 := by
  have hq : (n : ℚ) / d = ((units a + units b : ℤ) : ℚ) / (2 ^ 149 : ℕ) := by
    rw [h, real_eq, real_eq]
    push_cast
    ring
  have hz : n = 0 ↔ units a + units b = 0 := by
    rw [← intCast_div_eq_zero_iff hd, hq, intCast_div_eq_zero_iff (by positivity)]
  simp only [add32, not_isNaN_of_isFinite ha, not_isNaN_of_isFinite hb, not_isInf_of_isFinite ha,
    not_isInf_of_isFinite hb, rnd32_congr hd (by positivity) hq, hz, ite_not]
  rfl

theorem sub32_of_isFinite (h : (n : ℚ) / d = real a - real b) :
    sub32 a b = if n ≠ 0 then rnd32 n d else if a.msb && !b.msb then 0x80000000#32 else 0x00000000#32 := by
  rw [sub32, add32_of_isFinite ha (by rwa [isFinite_neg32]) hd (by rw [h, real_neg32, sub_eq_add_neg])]
  have := sign_neg32 b
  simp only [sign] at this
  rw [this]

/-- mul32 of finite operands is the rounded product, its sign that of the product even where it is zero (R12). -/
theorem mul32_of_isFinite (h : (n : ℚ) / d = real a * real b) :
    mul32 a b = if n ≠ 0 then rnd32 n d else if a.msb != b.msb then 0x80000000#32 else 0x00000000#32 := by
  have hd2 : 0 < 2 ^ 149 * 2 ^ 149 := by positivity
  obtain ⟨hm, hs⟩ := eq_of_signed_eq (by positivity) (by positivity)
    ((intCast_div_eq_ite n d).symm.trans (h.trans (real_mul_eq_ite a b)))
  have hpack : mul32 a b = pack (sign a != sign b) (roundMag n.natAbs d) := by
    simp only [mul32, not_isNaN_of_isFinite ha, not_isNaN_of_isFinite hb, not_isInf_of_isFinite ha,
      not_isInf_of_isFinite hb, roundMag_congr hd hd2 hm, Bool.or_self, Bool.false_eq_true, if_false]
  rw [hpack]
  by_cases hn : n = 0
  · subst hn
    cases hsg : a.msb != b.msb <;> simp [sign, hsg, pack]
  · have hne : (n.natAbs : ℚ) / d ≠ 0 := (intCast_div_eq_zero_iff (n := n.natAbs) hd).not.mpr (by simpa using hn)
    rw [if_pos hn, rnd32, hs hne]

end

/-! ### NaN and the infinities -/

theorem isNaN_qNaN : isNaN qNaN = true := rfl

theorem real_eq_zero_iff (v : F32) : real v = 0 ↔ mag v = 0 := by
  rw [real_eq_ite, ← magUnits_eq_zero]
  split <;> simp

theorem add32_of_isNaN {a b : F32} (h : isNaN a = true ∨ isNaN b = true) : add32 a b = qNaN := by
  rw [add32, if_pos (by simpa using h)]

theorem sub32_of_isNaN {a b : F32} (h : isNaN a = true ∨ isNaN b = true) : sub32 a b = qNaN :=
  add32_of_isNaN (by rwa [isNaN_neg32])

theorem mul32_of_isNaN {a b : F32} (h : isNaN a = true ∨ isNaN b = true) : mul32 a b = qNaN := by
  simp only [mul32]
  rw [if_pos (by simpa using h)]

theorem add32_of_isInf_left {a b : F32} (ha : isInf a = true) (hb : isFinite b = true) : add32 a b = a := by
  simp [add32, not_isNaN_of_isInf ha, not_isNaN_of_isFinite hb, ha, not_isInf_of_isFinite hb]

theorem add32_of_isInf_right {a b : F32} (ha : isFinite a = true) (hb : isInf b = true) : add32 a b = b := by
  simp [add32, not_isNaN_of_isFinite ha, not_isNaN_of_isInf hb, hb, not_isInf_of_isFinite ha]

/-- Two infinities add to the first, or to NaN where they are opposite (R12). -/
theorem add32_of_isInf {a b : F32} (ha : isInf a = true) (hb : isInf b = true) :
    add32 a b = if sign a = sign b then a else qNaN := by
  simp [add32, not_isNaN_of_isInf ha, not_isNaN_of_isInf hb, ha, hb]

theorem sub32_of_isInf {a b : F32} (ha : isInf a = true) (hb : isInf b = true) :
    sub32 a b = if sign a = sign b then qNaN else a := by
  rw [sub32, add32_of_isInf ha (by rwa [isInf_neg32]), sign_neg32]
  cases sign a <;> cases sign b <;> rfl

/-- A product with an infinity is infinite with the product's sign, or NaN where the other factor is zero (R12). -/
theorem mul32_of_isInf {a b : F32} (ha : isNaN a = false) (hb : isNaN b = false)
    (h : isInf a = true ∨ isInf b = true) :
    mul32 a b =
      if real a * real b = 0 then qNaN else if a.msb != b.msb then 0xFF800000#32 else 0x7F800000#32 := by
  have hz : real a * real b = 0 ↔ mag a = 0 ∨ mag b = 0 := by
    rw [mul_eq_zero, real_eq_zero_iff, real_eq_zero_iff]
  simp only [mul32, ha, hb, h, hz, sign, Bool.or_self, Bool.or_eq_true, decide_eq_true_eq, Bool.false_eq_true, if_false,
    if_true]
  cases a.msb != b.msb <;> rfl

/-! ### The obligation -/

/-- rnd32 as R11 states it: the nearest binary32, ties to even, infinite from the overflow threshold on. -/
theorem rnd32_isNearestEven (n : Int) (d : Nat) (hd : 0 < d) :
    isNaN (rnd32 n d) = false ∧ (n = 0 → rnd32 n d = 0x00000000#32)
      ∧ (isInf (rnd32 n d) = true ↔ (2 ^ 128 - 2 ^ 103 : ℚ) ≤ |(n : ℚ) / d|)
      ∧ (isInf (rnd32 n d) = true → (rnd32 n d).msb = decide (n < 0))
      ∧ (isFinite (rnd32 n d) = true → ∀ u : F32, isFinite u = true →
        |real (rnd32 n d) - (n : ℚ) / d| ≤ |real u - (n : ℚ) / d|
          ∧ (|real (rnd32 n d) - (n : ℚ) / d| = |real u - (n : ℚ) / d| → real u ≠ real (rnd32 n d) →
            (rnd32 n d).toNat % 2 = 0)) :=
  ⟨isNaN_rnd32 n d, fun h => by subst h; simp [rnd32, pack],
    by rw [rnd32_eq_rnd32Rat n d hd]; exact isInf_rnd32Rat _,
    fun _ => sign_rnd32 n d, fun hf u _ => rnd32_nearest n d hd hf u⟩

/-- Settles O60: the rounding from the nearest magnitude, the operations from the exact results as signed magnitudes. -/
theorem roundsToNearestEven : Obligations.RoundsToNearestEven := by
  refine ⟨rnd32_isNearestEven, fun a b ha hb n d hd => ?_, fun a b => ?_⟩
  · exact ⟨add32_of_isFinite ha hb hd, sub32_of_isFinite ha hb hd, mul32_of_isFinite ha hb hd⟩
  · refine ⟨fun h => ?nan, fun ha hb => ?infFinite, fun ha hb => ?finiteInf, fun ha hb => ?infInf,
      fun ha hb h => ?mulInf⟩
    case nan => simp [add32_of_isNaN h, sub32_of_isNaN h, mul32_of_isNaN h, isNaN_qNaN]
    case infFinite => exact ⟨add32_of_isInf_left ha hb, add32_of_isInf_left ha (by rwa [isFinite_neg32])⟩
    case finiteInf => exact ⟨add32_of_isInf_right ha hb, add32_of_isInf_right ha (by rwa [isInf_neg32])⟩
    case infInf =>
      rw [add32_of_isInf ha hb, sub32_of_isInf ha hb]
      by_cases hs : a.msb = b.msb <;> simp [sign, hs, isNaN_qNaN]
    case mulInf =>
      rw [mul32_of_isInf ha hb h]
      by_cases hz : real a * real b = 0 <;> simp [hz, isNaN_qNaN]

end Sys2Proof.Binary32

/-! PROOFS. The whole change a step can make to what the slot invariants speak of (build, registers, slots, pend_all):
it keeps them, commits, resets, or runs one slot's module (spec/10_state.md R61-R66, spec/40_sequencer.md R153). -/

namespace Sys2Proof.Machine

section
variable {s t : State}

/-! ### The engine's view of the slots -/

theorem exists_mem_of_engineView_slots (h : t.engineView.slots = s.engineView.slots) {x : Slot} (hx : x ∈ t.slots) :
    ∃ y ∈ s.slots, y.state = x.state := by
  have hm : (x.reg, x.derived, x.state) ∈ s.engineView.slots := h ▸ List.mem_map_of_mem hx
  obtain ⟨y, hy, he⟩ := List.mem_map.mp hm
  exact ⟨y, hy, congrArg (·.2.2) he⟩

theorem slot_of_engineView_slots (h : t.engineView.slots = s.engineView.slots) (i : Nat) :
    (t.slot i).reg = (s.slot i).reg ∧ (t.slot i).derived = (s.slot i).derived
      ∧ (t.slot i).state = (s.slot i).state := by
  have view : ∀ u : State, u.engineView.slots.getD i (Slot.reset.reg, Slot.reset.derived, Slot.reset.state)
      = ((u.slot i).reg, (u.slot i).derived, (u.slot i).state) :=
    fun u => List.getD_map _ _ (fun x : Slot => (x.reg, x.derived, x.state))
  have he := view t
  rw [h, view s] at he
  simpa [eq_comm] using he

/-- A host write into a slot's shadow registers or pending flag is not in the engine's view (R61, R103). -/
theorem engineView_slots_modifySlot (s : State) (i : Nat) {f : Slot → Slot}
    (hf : ∀ x, (f x).reg = x.reg ∧ (f x).derived = x.derived ∧ (f x).state = x.state) :
    (s.modifySlot i f).engineView.slots = s.engineView.slots := by
  apply List.ext_getElem?
  intro j
  simp only [State.engineView, State.modifySlot_slots, List.getElem?_map, List.getElem?_modify]
  cases s.slots[j]? with
  | none => rfl
  | some x => by_cases hij : i = j <;> simp [hij, hf x]

/-! ### The four changes -/

/-- Build, committed registers and the engine's view of the slots are kept, and a change of CHANNELS has set pend_all
(R62). -/
structure SlotsKept (s t : State) : Prop where
  build : t.build = s.build
  reg : t.reg = s.reg
  slots : t.engineView.slots = s.engineView.slots
  noted : t.pendAll = true ∨ t.pendAll = s.pendAll ∧ t.shadow.channels = s.shadow.channels

/-- A commit with pend_all at p and the active slots' derivations ds has been made (R153). -/
structure SlotsCommitted (p : Bool) (ds : List Derived) (s t : State) : Prop where
  derived : deriveSlots s.build s.shadow 0 (s.slots.take s.shadow.chainLen.toNat) = .ok ds
  build : t.build = s.build
  shadow : t.shadow = s.shadow
  reg : t.reg = s.shadow
  slots : t.slots = commitSlots p ds s.slots

/-- Registers and slots are those of a reset (R321). -/
structure SlotsReset (s t : State) : Prop where
  build : t.build = s.build
  shadow : t.shadow = GlobalRegs.reset
  reg : t.reg = GlobalRegs.reset
  slots : t.slots = List.replicate s.build.nSlots Slot.reset

/-- What becomes of the slots in one step. A STATE_CLEAR in the word of the RUN makes pend_all 1 before the commit
(R161). -/
inductive SlotsAfter (s t : State) : Prop
  | kept (h : SlotsKept s t)
  | committed (p : Bool) (ds : List Derived) (hp : p = true ∨ p = s.pendAll) (h : SlotsCommitted p ds s t)
  | reset (h : SlotsReset s t)
  | module (i : Instr) (phase : s.phase = .process) (desc : decodeDesc s.current.reg.desc = .ok i)
      (run : exec i s = .next t)

theorem SlotsKept.refl (s : State) : SlotsKept s s := ⟨rfl, rfl, rfl, .inr ⟨rfl, rfl⟩⟩

theorem SlotsKept.raiseError (s : State) (code : ErrCode) (k : BitVec 8) (a : Addr) :
    SlotsKept s (s.raiseError code k a) := ⟨rfl, rfl, rfl, .inr ⟨rfl, rfl⟩⟩

theorem SlotsKept.modifySlot (s : State) (i : Nat) {f : Slot → Slot}
    (hf : ∀ x, (f x).reg = x.reg ∧ (f x).derived = x.derived ∧ (f x).state = x.state) :
    SlotsKept s (s.modifySlot i f) := ⟨rfl, rfl, engineView_slots_modifySlot s i hf, .inr ⟨rfl, rfl⟩⟩

/-! ### The host's accesses -/

theorem writeSlot_slotsKept {a : Addr} {i : Nat} {r : SlotReg} {w : Word} (h : s.writeSlot a i r w = .next t) :
    SlotsKept s t := by
  have param : ∀ put, SlotsKept s (s.writeParam a i w put) := fun put => by
    unfold State.writeParam
    split
    · exact .raiseError _ _ _ _
    · exact .modifySlot _ _ fun _ => ⟨rfl, rfl, rfl⟩
  cases r
  case desc =>
    cases h
    unfold State.writeDesc
    split
    · exact .raiseError _ _ _ _
    · exact .modifySlot _ _ fun _ => ⟨rfl, rfl, rfl⟩
  case p0 | p1 | p2 => cases h; exact param _
  case sctl =>
    rcases execAll_sctl s i w with e | e
    · cases e.symm.trans h
      exact .refl s
    · have he := e.symm.trans h
      simp only [exec, execSlotclr] at he
      split at he <;> cases he
      · exact .modifySlot _ _ fun _ => ⟨rfl, rfl, rfl⟩
      · exact .raiseError _ _ _ _
  all_goals cases h; exact .refl s

/-- A RUN refused by the commit or by one in progress keeps the slots; else it has committed them (R151, R153). -/
theorem exec_run_slotsAfter {p : Bool} (hp : p = true ∨ p = s.pendAll)
    (h : exec .run { s with pendAll := p } = .next t) : SlotsAfter s t := by
  have noted : p = true ∨ p = s.pendAll ∧ s.shadow.channels = s.shadow.channels := hp.imp id fun e => ⟨e, rfl⟩
  by_cases hi : s.phase = .idle
  · rcases exec_run_idle { s with pendAll := p } hi with ⟨u, hu, e⟩ | ⟨c, -, e⟩
    · obtain ⟨ds, hds, rfl⟩ := State.commit_ok hu
      cases e.symm.trans h
      exact .committed p ds hp ⟨hds, rfl, rfl, rfl, rfl⟩
    · cases e.symm.trans h
      exact .kept ⟨rfl, rfl, rfl, noted⟩
  · simp only [exec, execRun, if_neg hi] at h
    cases h
    exact .kept ⟨rfl, rfl, rfl, noted⟩

theorem execAll_ctrl_slotsAfter {w : Word} (h : execAll (decodeCtrl w) s = .next t) : SlotsAfter s t := by
  rcases execAll_ctrl s w with e | ⟨p, hp, e | e⟩
  · cases e.symm.trans h
    exact .reset ⟨rfl, rfl, rfl, rfl⟩
  · cases e.symm.trans h
    exact .kept ⟨rfl, rfl, rfl, hp.imp id fun e => ⟨e, rfl⟩⟩
  · exact exec_run_slotsAfter hp (e.symm.trans h)

theorem writeGlobal_slotsAfter {a : Addr} {r : GlobalReg} {w : Word} (h : s.writeGlobal a r w = .next t) :
    SlotsAfter s t := by
  cases r
  case ctrl => exact execAll_ctrl_slotsAfter h
  case sampleRate | format | bufferSize =>
    cases h
    simp only [State.writeSampleRate, State.writeFormat, State.writeBufferSize]
    split
    · exact .kept (.raiseError _ _ _ _)
    · exact .kept ⟨rfl, rfl, rfl, .inl rfl⟩
  case chainLen =>
    cases h
    unfold State.writeChainLen
    split
    · exact .kept (.raiseError _ _ _ _)
    · exact .kept ⟨rfl, rfl, rfl, .inr ⟨rfl, rfl⟩⟩
  all_goals cases h; exact .kept ⟨rfl, rfl, rfl, .inr ⟨rfl, rfl⟩⟩

theorem hostAccess_slotsAfter {x : HostOp} (h : hostAccess x s = .next t) : SlotsAfter s t := by
  cases x with
  | rd a size =>
    simp only [hostAccess] at h
    split at h <;> cases h <;> exact .kept ⟨rfl, rfl, rfl, .inr ⟨rfl, rfl⟩⟩
  | wait => cases h; exact .kept ⟨rfl, rfl, rfl, .inr ⟨rfl, rfl⟩⟩
  | wr a size w =>
    simp only [hostAccess] at h
    split at h
    · cases h
      exact .kept (.raiseError _ _ _ _)
    · next target _ =>
      cases target with
      | global r => exact writeGlobal_slotsAfter h
      | slot i r => exact .kept (writeSlot_slotsKept h)
      | inRam i => cases h; exact .kept ⟨rfl, rfl, rfl, .inr ⟨rfl, rfl⟩⟩
      | outRam i => cases h; exact .kept (.refl s)

/-! ### The engine -/

/-- The engine's answers: nothing, the end of the commit, a module, or a conversion that finishes the run (R150). -/
theorem engineStep_next (h : engineStep s = .next t) :
    t = s ∨ t = s.endCommit
      ∨ (s.phase = .process ∧ ∃ i, decodeDesc s.current.reg.desc = .ok i ∧ exec i s = .next t)
      ∨ ∃ ws u, t = (s.storeOut ws u).finishCompleted := by
  rcases engineStep_cases s with ⟨-, e⟩ | ⟨-, e⟩ | ⟨hp, i, hi, e⟩ | ⟨-, i, hi, e⟩ | ⟨f, e, -⟩
  · cases e.symm.trans h
    exact .inl rfl
  · cases e.symm.trans h
    exact .inr (.inl rfl)
  · exact .inr (.inr (.inl ⟨hp, i, hi, e.symm.trans h⟩))
  · obtain ⟨ws, u, hx, -⟩ := exec_format s hi
    cases (e.trans hx).symm.trans h
    exact .inr (.inr (.inr ⟨ws, u, rfl⟩))
  · cases e.symm.trans h

theorem SlotsKept.endCommit (s : State) : SlotsKept s s.endCommit := by
  rcases s.endCommit_cases with ⟨-, e⟩ | ⟨-, e⟩ <;> rw [e]
  · exact ⟨rfl, rfl, rfl, .inr ⟨rfl, rfl⟩⟩
  · exact ⟨by simp, by simp, by simp [State.engineView], .inr ⟨by simp, by simp⟩⟩

theorem engineStep_slotsAfter (h : engineStep s = .next t) : SlotsAfter s t := by
  rcases engineStep_next h with rfl | rfl | ⟨hp, i, hi, hx⟩ | ⟨ws, u, rfl⟩
  · exact .kept (.refl _)
  · exact .kept (.endCommit s)
  · exact .module i hp hi hx
  · exact .kept ⟨rfl, rfl, rfl, .inr ⟨rfl, rfl⟩⟩

/-- A property of the next state that follows from each of the four changes follows from a step; the host's queue and
the draws do not matter (R152). -/
theorem step_of_slotsAfter {H P : State → Prop} (hq : ∀ s q d, H s → H { s with hostQueue := q, draws := d })
    (hP : ∀ s t, H s → SlotsAfter s t → P t) (h : H s) (hs : step s = .next t) : P t := by
  unfold step at hs
  rcases cycle_cases s with ⟨-, e⟩ | ⟨x, rest, -, -, e⟩ | ⟨rest, -, -, e⟩ | ⟨x, rest, -, -, -, -, e⟩ |
    ⟨x, rest, -, -, -, -, e⟩
  all_goals rw [e] at hs
  · exact hP _ _ h (engineStep_slotsAfter hs)
  · exact hP _ _ (hq s rest s.draws h) (hostAccess_slotsAfter hs)
  · exact hP _ _ h (engineStep_slotsAfter hs)
  · exact hP _ _ (hq s s.hostQueue _ h) (engineStep_slotsAfter hs)
  · exact hP _ _ (hq s rest _ h) (hostAccess_slotsAfter hs)

end

end Sys2Proof.Machine

/-! PROOFS. The commit and a slot's module on one slot's state, and both lanes of a slot kept equally long
(spec/10_state.md R62, R65, R66, spec/40_sequencer.md R153, R159). -/

namespace Sys2Proof.Machine

section
variable {s t : State}

/-! ### A slot's state after a commit -/

/-- What a commit with pend_all at p starts from in a slot: its state where nothing clears it, or a cleared one. -/
def CommitBase (p : Bool) (slots : List Slot) (st : SlotState) : Prop :=
  st = SlotState.clear ∨ p = false ∧ ∃ y ∈ slots, st = y.state

theorem Slot.commitActive_state (p : Bool) (d : Derived) (x : Slot) :
    (x.commitActive p d).state =
      if descOpc x.shadow.desc = 6 then (if p || x.pend then SlotState.clear else x.state).resizeDelay d.k0.toNat
      else if p || x.pend then SlotState.clear else x.state := rfl

/-- A slot's state after a commit: cleared or as before, and then perhaps resized (R153, R214). -/
theorem state_of_mem_commitSlots {p : Bool} {ds : List Derived} {slots : List Slot} {x : Slot}
    (h : x ∈ commitSlots p ds slots) :
    ∃ st, CommitBase p slots st ∧ (x.state = st ∨ ∃ n, x.state = st.resizeDelay n) := by
  rcases mem_of_mem_commitSlots h with ⟨y, hy, d, rfl⟩ | ⟨y, hy, rfl⟩
  · refine ⟨if p || y.pend then SlotState.clear else y.state, ?_, ?_⟩
    · unfold CommitBase
      cases p <;> cases y.pend <;> simp
      exact .inr ⟨y, hy, rfl⟩
    · rw [Slot.commitActive_state]
      split
      · exact .inr ⟨_, rfl⟩
      · exact .inl rfl
  · refine ⟨if p then SlotState.clear else y.state, ?_, .inl rfl⟩
    unfold CommitBase
    cases p <;> simp
    exact .inr ⟨y, hy, rfl⟩

/-! ### A slot's state after a module -/

/-- The slot being applied is one of the block's, or a reset slot where slot_pc names none. -/
theorem State.current_mem_or_reset (s : State) : s.current ∈ s.slots ∨ s.current = Slot.reset := by
  unfold State.current State.slot
  rw [List.getD_eq_getElem?_getD]
  cases h : s.slots[s.slotPc.toNat]? with
  | none => exact .inr rfl
  | some x => exact .inl (List.mem_of_getElem? h)

theorem state_of_mem_slotChange {wb : Chan (List F32)} {ovf : Bool} {f : SlotState → SlotState} {x : Slot}
    (h : x ∈ (s.slotChange wb ovf f).advanceSlot.slots) :
    ∃ y ∈ s.slots, x.state = y.state ∨ x.state = f y.state := by
  simp only [State.advanceSlot_slots, State.slotChange] at h
  rcases mem_of_mem_modify h with h | ⟨y, hy, rfl⟩
  · exact ⟨x, h, .inl rfl⟩
  · exact ⟨y, hy, .inr rfl⟩

/-- A descriptor's instruction changes no delay history, or it is DELAY and gives the current slot its folded lanes
(R155, R212). -/
theorem exec_desc_delay {i : Instr} (s : State) (h : Instr.isDesc i = true) :
    ∃ wb ovf f, exec i s = .next (s.slotChange wb ovf f).advanceSlot
      ∧ ((∀ st, (f st).delay = st.delay) ∨ i = .delay ∧ ∃ lanes, (∀ st, (f st).delay = lanes)
        ∧ ∀ c, c < 2 → lanes.get c =
            if c < s.reg.channels then
              (foldLane (delayStep s.current.derived.k0.toNat s.current.derived.e1) (s.current.state.delay.get c)
                (s.wb.get c)).1
            else s.current.state.delay.get c) := by
  by_cases hi : i = .delay
  · subst hi
    obtain ⟨wb, lanes, e, -, hl⟩ := s.foldChannels_slotChange (fun x => x.delay)
      (fun x lanes => { x with delay := lanes }) (delayStep s.current.derived.k0.toNat s.current.derived.e1)
    exact ⟨wb, _, _, congrArg (fun u => Host.Outcome.next (State.advanceSlot u)) e,
      .inr ⟨rfl, lanes, fun _ => rfl, hl⟩⟩
  · obtain ⟨wb, ovf, f, e, -, hf, -⟩ := exec_desc s h
    exact ⟨wb, ovf, f, e, .inl (hf hi)⟩

/-- A descriptor's instruction changes no pitch state, or it is a pitch shifter and gives the current slot its folded
lanes (R155, R252). -/
theorem exec_desc_pitch {i : Instr} (s : State) (h : Instr.isDesc i = true) :
    ∃ wb ovf f, exec i s = .next (s.slotChange wb ovf f).advanceSlot
      ∧ ((∀ st, (f st).pitch = st.pitch) ∨ ∃ warp lanes, (∀ st, (f st).pitch = lanes)
        ∧ ∀ c, c < 2 → lanes.get c =
            if c < s.reg.channels then
              (foldLane (pitchStep warp s.build s.current.derived.k0.toNat) (s.current.state.pitch.get c, false)
                (s.wb.get c)).1.1
            else s.current.state.pitch.get c) := by
  by_cases hi : i = .pitch ∨ i = .pitchWarp
  · obtain ⟨warp, e⟩ : ∃ warp, exec i s = .next (s.applyPitch warp).advanceSlot := by
      rcases hi with rfl | rfl
      · exact ⟨false, rfl⟩
      · exact ⟨true, rfl⟩
    obtain ⟨wb, ovf, lanes, hc, -, hl⟩ := s.applyPitch_slotChange warp
    exact ⟨wb, ovf, _, by rw [e, hc], .inr ⟨warp, lanes, fun _ => rfl, hl⟩⟩
  · obtain ⟨hp, hw⟩ := not_or.mp hi
    obtain ⟨wb, ovf, f, e, -, -, hf⟩ := exec_desc s h
    exact ⟨wb, ovf, f, e, .inl (hf hp hw)⟩

/-! ### Lanes of equal sizes -/

/-- The sizes of the two lanes of a slot's state agree. -/
def EvenLanes (sizes : SlotState → Nat → List Nat) (st : SlotState) : Prop := sizes st 0 = sizes st 1

/-- Sizes that agree in a cleared slot, and that a resize and a module on two channels of equally many frames keep
equal (R68, R159, R214). -/
structure KeptEven (sizes : SlotState → Nat → List Nat) : Prop where
  clear : EvenLanes sizes SlotState.clear
  resize : ∀ st n, EvenLanes sizes st → EvenLanes sizes (st.resizeDelay n)
  module : ∀ (s : State) (i : Instr), Instr.isDesc i = true → s.reg.channels = 2 →
    (s.wb.get 0).length = (s.wb.get 1).length → EvenLanes sizes s.current.state →
    ∃ wb ovf f, exec i s = .next (s.slotChange wb ovf f).advanceSlot
      ∧ ∀ st, EvenLanes sizes st → EvenLanes sizes (f st)

section
variable {sizes : SlotState → Nat → List Nat}

/-- While a slot is applied, the two active channels hold equally many frames (R63). -/
theorem State.WbInv.length_eq (h : s.WbInv) (hp : s.phase = .process) (hc : s.reg.channels = 2) :
    (s.wb.get 0).length = (s.wb.get 1).length := by
  rw [h (.inl hp) 0 (by omega), h (.inl hp) 1 (by omega)]

theorem State.LanesAgree.of_kept (h : s.LanesAgree sizes) (hk : SlotsKept s t) : t.LanesAgree sizes where
  pending := by
    rw [hk.reg]
    rcases hk.noted with hp | ⟨hp, hc⟩
    · exact fun _ => hp
    · rw [hp, hc]; exact h.pending
  agree := by
    rw [hk.reg]
    intro hc x hx
    obtain ⟨y, hy, he⟩ := exists_mem_of_engineView_slots hk.slots hx
    exact he ▸ h.agree hc y hy

/-- A commit with a change of CHANNELS pending clears every slot; without one, the lanes agreed before (R62, R153). -/
theorem State.LanesAgree.of_committed (hk : KeptEven sizes) (h : s.LanesAgree sizes) {p : Bool} {ds : List Derived}
    (hp : p = true ∨ p = s.pendAll) (hc : SlotsCommitted p ds s t) : t.LanesAgree sizes where
  pending := fun hne => absurd (by rw [hc.shadow, hc.reg]) hne
  agree := by
    rw [hc.reg, hc.slots]
    intro h2 x hx
    obtain ⟨st, hb, hx⟩ := state_of_mem_commitSlots hx
    have hst : EvenLanes sizes st := by
      rcases hb with rfl | ⟨rfl, y, hy, rfl⟩
      · exact hk.clear
      · have hpend : s.pendAll = false := (hp.resolve_left Bool.false_ne_true).symm
        have hsame : s.shadow.channels = s.reg.channels := by
          by_contra hne
          simp [h.pending hne] at hpend
        exact h.agree (hsame ▸ h2) y hy
    rcases hx with e | ⟨n, e⟩ <;> rw [e]
    · exact hst
    · exact hk.resize st n hst

theorem State.LanesAgree.of_reset (hk : KeptEven sizes) (hr : SlotsReset s t) : t.LanesAgree sizes where
  pending := fun hne => absurd (by rw [hr.shadow, hr.reg]) hne
  agree := by
    rw [hr.slots]
    intro _ x hx
    rw [List.eq_of_mem_replicate hx]
    exact hk.clear

theorem State.LanesAgree.of_module (hk : KeptEven sizes) (hw : s.WbInv) (h : s.LanesAgree sizes) {i : Instr}
    (hp : s.phase = .process) (hi : Instr.isDesc i = true) (hx : exec i s = .next t) : t.LanesAgree sizes := by
  obtain ⟨wb, ovf, f, e, -⟩ := exec_desc s hi
  cases e.symm.trans hx
  refine ⟨by simpa [State.slotChange] using h.pending, fun h2 x hm => ?_⟩
  have h2 : s.reg.channels = 2 := by simpa [State.slotChange] using h2
  have hcur : EvenLanes sizes s.current.state := by
    rcases s.current_mem_or_reset with hm | hm
    · exact h.agree h2 _ hm
    · rw [hm]; exact hk.clear
  obtain ⟨wb', ovf', g, e', hg⟩ := hk.module s i hi h2 (hw.length_eq hp h2) hcur
  rw [Host.Outcome.next.inj (e.symm.trans e')] at hm
  obtain ⟨y, hy, he | he⟩ := state_of_mem_slotChange hm <;> rw [he]
  · exact h.agree h2 y hy
  · exact hg _ (h.agree h2 y hy)

/-- Sizes of that kind stay equal over every step (R62, R330). -/
theorem step_lanesAgree (hk : KeptEven sizes) (hw : s.WbInv) (h : s.LanesAgree sizes) (hs : step s = .next t) :
    t.LanesAgree sizes := by
  refine step_of_slotsAfter (H := fun u => u.WbInv ∧ u.LanesAgree sizes)
    (fun _ _ _ hu => ⟨hu.1, hu.2.pending, hu.2.agree⟩) (fun u v hu ha => ?_) ⟨hw, h⟩ hs
  obtain ⟨hw, h⟩ := hu
  cases ha with
  | kept hk => exact h.of_kept hk
  | committed p ds hp hc => exact h.of_committed hk hp hc
  | reset hr => exact .of_reset hk hr
  | module i hp hi hx => exact .of_module hk hw h hp (decodeDesc_isDesc hi) hx

end

/-- Two lanes of equally many samples keep a measure of the lane state equal where every sample's step does. -/
theorem foldLane_measure_eq {σ α : Type} {step : σ → F32 → σ × F32} (m : σ → α)
    (h : ∀ a b x y, m a = m b → m (step a x).1 = m (step b y).1) {a b : σ} {xs ys : List F32}
    (hl : xs.length = ys.length) (hab : m a = m b) : m (foldLane step a xs).1 = m (foldLane step b ys).1 := by
  induction xs generalizing a b ys with
  | nil =>
    obtain rfl : ys = [] := List.eq_nil_of_length_eq_zero hl.symm
    exact hab
  | cons x xs ih =>
    cases ys with
    | nil => cases hl
    | cons y ys =>
      simp only [foldLane]
      exact ih (by simpa using hl) (h a b x y hab)

end

end Sys2Proof.Machine

/-! PROOFS. The delay histories over a step: their bounds and, on two active channels, their equal lengths
(spec/10_state.md R65, spec/42_delay.md R210-R216). -/

namespace Sys2Proof.Machine

section
variable {s t : State}

/-! ### The committed length of a DELAY slot -/

/-- The length is at least the buffer size and within the capacity, so K0 holds it whole (R211). -/
theorem deriveDelay_ok {b : Build} {p : SlotRegs} {fs frames : Nat} {d : Derived} (hb : b.maxDelay < 2 ^ 32)
    (h : deriveDelay b p fs frames = .ok d) : frames ≤ d.k0.toNat ∧ d.k0.toNat ≤ b.maxDelay := by
  simp only [deriveDelay] at h
  split at h
  · cases h
  · cases h
    have hlt : max (delayRaw fs (Binary32.max32 p.p0 Binary32.one)) frames < 2 ^ 32 := by omega
    simp only [BitVec.toNat_ofNat, Nat.mod_eq_of_lt hlt]
    omega

theorem descOpc_of_decodeDesc_delay {w : Word} (h : decodeDesc w = .ok .delay) : descOpc w = 6 := by
  have hfilter : filterOf (descFtype w) (descSlope w) ≠ .delay := by
    unfold filterOf
    repeat' split
    all_goals simp
  simp only [decodeDesc] at h
  split at h
  · cases h
  · split at h
    · cases h
    · split at h
      case h_7 hopc => exact hopc
      case h_6 => exact absurd (Except.ok.inj h) hfilter
      case h_8 => split at h <;> cases h
      all_goals cases h

theorem decodeDesc_of_descOpc_delay {w : Word} (hw : legalDesc w = true) (h : descOpc w = 6) :
    decodeDesc w = .ok .delay := by
  unfold legalDesc at hw
  split at hw
  · next i hi =>
    simp only [decodeDesc, h] at hi ⊢
    split at hi
    · cases hi
    · split at hi
      · cases hi
      · next hopc hfield => rw [if_neg hopc, if_neg hfield]
  · cases hw

theorem deriveSlot_of_descOpc_delay {b : Build} {p : SlotRegs} {g : GlobalRegs} (hp : legalDesc p.desc = true)
    (h : descOpc p.desc = 6) : deriveSlot b p g = deriveDelay b p g.sampleRate.toNat g.frames := by
  simp only [deriveSlot, decodeDesc_of_descOpc_delay hp h, derive]

/-! ### The bound of a slot's histories -/

/-- Neither history of the slot is longer than n (R65). -/
def SlotState.DelayWithin (n : Nat) (st : SlotState) : Prop := st.delay.c0.length ≤ n ∧ st.delay.c1.length ≤ n

theorem SlotState.clear_delayWithin (n : Nat) : SlotState.clear.DelayWithin n := ⟨Nat.zero_le n, Nat.zero_le n⟩

theorem SlotState.resizeDelay_delayWithin (d : Nat) (st : SlotState) : (st.resizeDelay d).DelayWithin d :=
  ⟨(resizeHistory_length_le d _).1, (resizeHistory_length_le d _).1⟩

theorem SlotState.DelayWithin.resize {n : Nat} {st : SlotState} (h : st.DelayWithin n) (d : Nat) :
    (st.resizeDelay d).DelayWithin n :=
  ⟨(resizeHistory_length_le d _).2.trans h.1, (resizeHistory_length_le d _).2.trans h.2⟩

theorem SlotState.DelayWithin.mono {m n : Nat} {st : SlotState} (h : st.DelayWithin m) (hmn : m ≤ n) :
    st.DelayWithin n :=
  ⟨h.1.trans hmn, h.2.trans hmn⟩

theorem SlotState.DelayWithin.of_delay_eq {n : Nat} {st st' : SlotState} (h : st.DelayWithin n)
    (he : st'.delay = st.delay) : st'.DelayWithin n := by
  unfold SlotState.DelayWithin
  rw [he]
  exact h

theorem SlotState.delayWithin_iff {n : Nat} {st : SlotState} :
    st.DelayWithin n ↔ ∀ c, c < 2 → (st.delay.get c).length ≤ n :=
  ⟨fun h c hc => by interval_cases c <;> [exact h.1; exact h.2], fun h => ⟨h 0 (by decide), h 1 (by decide)⟩⟩

/-! ### The bounds over the four changes -/

/-- A commit of slot i below CHAIN_LEN leaves it active, with its own derivation (R153). -/
theorem SlotsCommitted.slot_active {p : Bool} {ds : List Derived} (hc : SlotsCommitted p ds s t) {i : Nat}
    (hi : i < s.shadow.chainLen.toNat) (hs : i < s.slots.length) :
    ∃ d, deriveSlot s.build (s.slot i).shadow s.shadow = .ok d ∧ t.slot i = (s.slot i).commitActive p d := by
  obtain ⟨hlen, hd⟩ := deriveSlots_ok hc.derived
  have hids : i < ds.length := by rw [hlen, List.length_take]; omega
  refine ⟨ds[i], ?_, ?_⟩
  · have := hd i (by rw [List.length_take]; omega) hids
    rwa [List.getElem_take, ← State.slot_eq_getElem hs] at this
  · rw [slot_of_commitSlots hc.slots hs, dif_pos hids]

theorem State.DelayInv.of_kept (h : s.DelayInv) (hk : SlotsKept s t) : t.DelayInv where
  capacity := by
    rw [hk.build]
    intro x hx
    obtain ⟨y, hy, he⟩ := exists_mem_of_engineView_slots hk.slots hx
    exact he ▸ h.capacity y hy
  active := by
    intro i
    obtain ⟨hreg, hderived, hstate⟩ := slot_of_engineView_slots hk.slots i
    rw [hk.reg, hk.build, hreg, hderived, hstate]
    exact h.active i

theorem State.DelayInv.of_committed (hs : s.Inv) (h : s.DelayInv) {p : Bool} {ds : List Derived}
    (hc : SlotsCommitted p ds s t) : t.DelayInv where
  capacity := by
    rw [hc.slots, hc.build]
    intro x hx
    obtain ⟨st, hb, hx⟩ := state_of_mem_commitSlots hx
    have hst : st.DelayWithin s.build.maxDelay := by
      rcases hb with rfl | ⟨-, y, hy, rfl⟩
      · exact SlotState.clear_delayWithin _
      · exact h.capacity y hy
    rcases hx with e | ⟨n, e⟩ <;> rw [e]
    · exact hst
    · exact hst.resize n
  active := by
    rw [hc.reg, hc.build]
    intro i hi hopc
    have hlen : i < s.slots.length := by
      have := hs.shadow.chainLen
      rw [hs.slotCount]
      omega
    obtain ⟨d, hd, he⟩ := hc.slot_active hi hlen
    rw [he] at hopc ⊢
    have hopc : descOpc (s.slot i).shadow.desc = 6 := hopc
    have hmem : s.slot i ∈ s.slots := by rw [State.slot_eq_getElem hlen]; exact List.getElem_mem hlen
    rw [deriveSlot_of_descOpc_delay (hs.slotShadow _ hmem).desc hopc] at hd
    obtain ⟨hlo, hhi⟩ := deriveDelay_ok hs.build.delay.2 hd
    refine ⟨hlo, hhi, ?_⟩
    rw [Slot.commitActive_state, if_pos hopc]
    exact SlotState.resizeDelay_delayWithin _ _

theorem State.DelayInv.of_reset (hr : SlotsReset s t) : t.DelayInv where
  capacity := by
    rw [hr.slots]
    intro x hx
    rw [List.eq_of_mem_replicate hx]
    exact SlotState.clear_delayWithin _
  active := by
    rw [hr.reg]
    exact fun i hi => absurd hi (Nat.not_lt_zero i)

theorem State.DelayInv.of_slotChange (h : s.DelayInv) {wb : Chan (List F32)} {ovf : Bool} {f : SlotState → SlotState}
    (hf : ∀ st, (f st).delay = st.delay
      ∨ (f st).DelayWithin s.current.derived.k0.toNat ∧ s.current.derived.k0.toNat ≤ s.build.maxDelay) :
    (s.slotChange wb ovf f).advanceSlot.DelayInv where
  capacity := by
    intro x hx
    rw [State.advanceSlot_build]
    obtain ⟨y, hy, he | he⟩ := state_of_mem_slotChange hx <;> rw [he]
    · exact h.capacity y hy
    · rcases hf y.state with e | ⟨hw, hn⟩
      · rw [e]; exact h.capacity y hy
      · exact hw.mono hn
  active := by
    intro i
    have hslot : (s.slotChange wb ovf f).advanceSlot.slot i = (s.slotChange wb ovf f).slot i := by simp [State.slot]
    rw [State.advanceSlot_reg, State.advanceSlot_build, hslot, State.slot_slotChange]
    intro hi
    split
    · next hpc =>
      obtain ⟨rfl, -⟩ := hpc
      intro hopc
      obtain ⟨hlo, hhi, hw⟩ := h.active _ hi hopc
      refine ⟨hlo, hhi, ?_⟩
      rcases hf (s.slot s.slotPc.toNat).state with e | ⟨hw, -⟩
      · simp only [e]; exact hw
      · exact hw
    · exact h.active i hi

/-- The folded lanes of the DELAY slot being applied stay within its committed length (R212, R216). -/
theorem State.DelayInv.of_module (hs : s.Inv) (h : s.DelayInv) {i : Instr} (hp : s.phase = .process)
    (hi : decodeDesc s.current.reg.desc = .ok i) (hx : exec i s = .next t) : t.DelayInv := by
  have hpc : s.slotPc.toNat < s.reg.chainLen.toNat := by
    have := hs.phase
    rwa [State.phaseOk, hp] at this
  obtain ⟨wb, ovf, f, e, hf⟩ := exec_desc_delay s (decodeDesc_isDesc hi)
  cases e.symm.trans hx
  refine h.of_slotChange fun st => ?_
  rcases hf with hf | ⟨rfl, lanes, hf, hl⟩
  · exact .inl (hf st)
  · obtain ⟨-, hcap, hcur⟩ := h.active _ hpc (descOpc_of_decodeDesc_delay hi)
    refine .inr ⟨SlotState.delayWithin_iff.mpr fun c hc => ?_, hcap⟩
    have hcur := SlotState.delayWithin_iff.mp hcur c hc
    rw [hf, hl c hc]
    split
    · exact foldLane_keeps _ (·.length ≤ _) (fun hist v => delayStep_length_le _ _ hist v) _ _ hcur
    · exact hcur

theorem State.DelayInv.of_slotsAfter (hs : s.Inv) (h : s.DelayInv) (ha : SlotsAfter s t) : t.DelayInv := by
  cases ha with
  | kept hk => exact h.of_kept hk
  | committed p ds hp hc => exact h.of_committed hs hc
  | reset hr => exact .of_reset hr
  | module i hp hi hx => exact h.of_module hs hp hi hx

/-- The host's queue and the draws do not matter for a legal state. -/
theorem State.Inv.setQueue (h : s.Inv) (q : List HostOp) (d : Nat) :
    ({ s with hostQueue := q, draws := d } : State).Inv :=
  ⟨h.build, h.slotCount, h.shadow, h.reg, h.slotShadow, h.slotReg, h.phase, h.verdict, h.errRecord⟩

/-! ### Equal lengths -/

theorem resizeHistory_length (d : Nat) (hist : List F32) : (resizeHistory d hist).length = min d hist.length := by
  rw [resizeHistory, List.length_drop]
  omega

/-- A history grows until it is full (R212). -/
theorem delayStep_length (d : Nat) (fb : F32) (hist : List F32) (x : F32) :
    (delayStep d fb hist x).1.length = if hist.length = d then hist.length else hist.length + 1 := by
  by_cases h : hist.length = d <;> simp [delayStep, h]

theorem evenLanes_delaySizes_iff {st : SlotState} :
    EvenLanes SlotState.delaySizes st ↔ st.delay.c0.length = st.delay.c1.length := by
  simp [EvenLanes, SlotState.delaySizes]

theorem delaySizes_keptEven : KeptEven SlotState.delaySizes where
  clear := rfl
  resize := by
    intro st n h
    rw [evenLanes_delaySizes_iff] at h ⊢
    simp only [SlotState.resizeDelay, resizeHistory_length, h]
  module := by
    intro s i hi h2 hwb hcur
    obtain ⟨wb, ovf, f, e, hf⟩ := exec_desc_delay s hi
    refine ⟨wb, ovf, f, e, fun st hst => ?_⟩
    rw [evenLanes_delaySizes_iff] at hcur hst ⊢
    rcases hf with hf | ⟨-, lanes, hf, hl⟩
    · rwa [hf]
    · have h0 := hl 0 (by decide)
      have h1 := hl 1 (by decide)
      rw [h2, if_pos (by decide)] at h0 h1
      rw [hf, ← Chan.get_zero, ← Chan.get_one, h0, h1]
      refine foldLane_measure_eq List.length (fun a b x y hab => ?_) hwb hcur
      rw [delayStep_length, delayStep_length, hab]

end

/-- Settles O4: each of a step's four changes keeps the bounds, and lanes of equal lengths grow alike. -/
theorem stepKeepsDelayBounds : Obligations.StepKeepsDelayBounds := by
  constructor
  · intro s t hs h
    exact step_of_slotsAfter (H := fun u => u.Inv ∧ u.DelayInv)
      (fun u q d ⟨hi, hd⟩ => ⟨hi.setQueue q d, hd.capacity, hd.active⟩)
      (fun u v ⟨hi, hd⟩ ha => hd.of_slotsAfter hi ha) ⟨hs, h⟩
  · exact fun s t => step_lanesAgree delaySizes_keptEven

end Sys2Proof.Machine

/-! PROOFS. The pitch accumulators and queues over a step: their bounds and, on two active channels, their equal sizes
(spec/10_state.md R66, spec/44_pitch_shift.md R252-R257). -/

namespace Sys2Proof.Machine

section
variable {s t : State}

/-! ### The bounds -/

/-- Both lanes of a slot's pitch state are within the build's bounds (R66). -/
def SlotState.PitchBounded (b : Build) (st : SlotState) : Prop := st.pitch.c0.Bounded b ∧ st.pitch.c1.Bounded b

theorem SlotState.clear_pitchBounded {b : Build} (hb : b.Legal) : SlotState.clear.PitchBounded b := by
  have hzero : (⟨[], []⟩ : PitchLane).Bounded b := ⟨Nat.lt_of_lt_of_le Nat.two_pos hb.frame.1, Nat.zero_le _⟩
  exact ⟨hzero, hzero⟩

theorem SlotState.pitchBounded_iff {b : Build} {st : SlotState} :
    st.PitchBounded b ↔ ∀ c, c < 2 → (st.pitch.get c).Bounded b :=
  ⟨fun h c hc => by interval_cases c <;> [exact h.1; exact h.2], fun h => ⟨h 0 (by decide), h 1 (by decide)⟩⟩

theorem State.PitchInv.of_kept (h : s.PitchInv) (hk : SlotsKept s t) : t.PitchInv := by
  intro x hx
  obtain ⟨y, hy, he⟩ := exists_mem_of_engineView_slots hk.slots hx
  rw [hk.build, ← he]
  exact h y hy

theorem State.PitchInv.of_committed (hb : s.build.Legal) (h : s.PitchInv) {p : Bool} {ds : List Derived}
    (hc : SlotsCommitted p ds s t) : t.PitchInv := by
  intro x hx
  rw [hc.slots] at hx
  rw [hc.build]
  obtain ⟨st, hbase, hx⟩ := state_of_mem_commitSlots hx
  have hst : st.PitchBounded s.build := by
    rcases hbase with rfl | ⟨-, y, hy, rfl⟩
    · exact SlotState.clear_pitchBounded hb
    · exact h y hy
  rcases hx with e | ⟨n, e⟩ <;> rw [e] <;> exact hst

theorem State.PitchInv.of_reset (hb : s.build.Legal) (hr : SlotsReset s t) : t.PitchInv := by
  intro x hx
  rw [hr.slots] at hx
  rw [hr.build, List.eq_of_mem_replicate hx]
  exact SlotState.clear_pitchBounded hb

/-- The folded lanes of the slot being applied stay bounded (R252, R256). -/
theorem State.PitchInv.of_module (hb : s.build.Legal) (h : s.PitchInv) {i : Instr} (hi : Instr.isDesc i = true)
    (hx : exec i s = .next t) : t.PitchInv := by
  obtain ⟨wb, ovf, f, e, hf⟩ := exec_desc_pitch s hi
  cases e.symm.trans hx
  intro x hx
  rw [State.advanceSlot_build]
  obtain ⟨y, hy, he | he⟩ := state_of_mem_slotChange hx <;> rw [he]
  · exact h y hy
  · rcases hf with hf | ⟨warp, lanes, hf, hl⟩
    · rw [hf]; exact h y hy
    · have hcur : s.current.state.PitchBounded s.build := by
        rcases s.current_mem_or_reset with hm | hm
        · exact h _ hm
        · rw [hm]; exact SlotState.clear_pitchBounded hb
      refine SlotState.pitchBounded_iff.mpr fun c hc => ?_
      have hcur := SlotState.pitchBounded_iff.mp hcur c hc
      rw [hf, hl c hc]
      split
      · exact foldLane_keeps _ (fun l : PitchLane × Bool => l.1.Bounded s.build)
          (fun l v => pitchStep_bounded warp _ (Nat.le_of_succ_le hb.frame.1) _ l v) _ _ hcur
      · exact hcur

theorem State.PitchInv.of_slotsAfter (hb : s.build.Legal) (h : s.PitchInv) (ha : SlotsAfter s t) : t.PitchInv := by
  cases ha with
  | kept hk => exact h.of_kept hk
  | committed p ds hp hc => exact h.of_committed hb hc
  | reset hr => exact .of_reset hb hr
  | module i hp hi hx => exact h.of_module hb (decodeDesc_isDesc hi) hx

/-! ### Equal sizes -/

/-- The sizes of a lane's accumulator and queue. -/
def PitchLane.sizes (l : PitchLane) : Nat × Nat := (l.acc.length, l.queue.length)

theorem resample_length (x : List F32) (len : Nat) : (resample x len).length = len := by
  unfold resample
  split <;> simp [*]

/-- What a full frame pushes is F samples with warp on, else the resampled length (R252, R253). -/
theorem pitchFit_length (warp : Bool) (f len : Nat) (x : List F32) :
    (if warp then warpFit (resample x len) f else resample x len).length = if warp then f else len := by
  cases warp
  · exact resample_length x len
  · exact warpFit_length _ f

/-- A frame's sizes depend on the sizes before it alone (R252, R256). -/
theorem pitchStep_sizes (warp : Bool) (b : Build) (len : Nat) (l : PitchLane × Bool) (x : F32) :
    (pitchStep warp b len l x).1.1.sizes =
      if l.1.acc.length + 1 = b.psFrame then
        (0, l.1.queue.length + min (b.psQueue - l.1.queue.length) (if warp then b.psFrame else len) - 1)
      else (l.1.acc.length + 1, l.1.queue.length - 1) := by
  by_cases h : l.1.acc.length + 1 = b.psFrame
  · simp [pitchStep, PitchLane.sizes, queuePush, h, pitchFit_length]
  · simp [pitchStep, PitchLane.sizes, h]

theorem evenLanes_pitchSizes_iff {st : SlotState} :
    EvenLanes SlotState.pitchSizes st ↔ st.pitch.c0.sizes = st.pitch.c1.sizes := by
  simp [EvenLanes, SlotState.pitchSizes, PitchLane.sizes]

theorem pitchSizes_keptEven : KeptEven SlotState.pitchSizes where
  clear := rfl
  resize := fun _ _ h => h
  module := by
    intro s i hi h2 hwb hcur
    obtain ⟨wb, ovf, f, e, hf⟩ := exec_desc_pitch s hi
    refine ⟨wb, ovf, f, e, fun st hst => ?_⟩
    rw [evenLanes_pitchSizes_iff] at hcur hst ⊢
    rcases hf with hf | ⟨warp, lanes, hf, hl⟩
    · rwa [hf]
    · have h0 := hl 0 (by decide)
      have h1 := hl 1 (by decide)
      rw [h2, if_pos (by decide)] at h0 h1
      rw [hf, ← Chan.get_zero, ← Chan.get_one, h0, h1]
      refine foldLane_measure_eq (fun l : PitchLane × Bool => l.1.sizes) (fun a b x y hab => ?_) hwb hcur
      obtain ⟨hacc, hqueue⟩ := Prod.mk.inj hab
      rw [pitchStep_sizes, pitchStep_sizes, hacc, hqueue]

end

/-- Settles O5: each of a step's four changes keeps the bounds, and lanes of equal sizes stay so frame by frame. -/
theorem stepKeepsPitchBounds : Obligations.StepKeepsPitchBounds := by
  constructor
  · intro s t hb h
    exact step_of_slotsAfter (H := fun u => u.build.Legal ∧ u.PitchInv) (fun _ _ _ hu => hu)
      (fun u v ⟨hb, hu⟩ ha => hu.of_slotsAfter hb ha) ⟨hb, h⟩
  · exact fun s t => step_lanesAgree pitchSizes_keptEven

end Sys2Proof.Machine

/-! PROOFS. The working buffer over a step: loaded at the end of the commit, and kept in length by every module
(spec/10_state.md R63, spec/40_sequencer.md R154, R155). -/

namespace Sys2Proof.Machine

section
variable {s t : State}

/-- A channel index reads channel 0 or channel 1 (R8). -/
theorem Chan.get_eq_get_min {α : Type} (x : Chan α) (c : Nat) : x.get c = x.get (min c 1) := by
  cases c <;> simp [Chan.get]

/-- A loaded channel holds one sample per frame (R154). -/
theorem State.loadInput_lane_length (s : State) {c : Nat} (hc : c < s.reg.channels) :
    (s.loadInput.wb.get c).length = s.reg.frames := by
  have lane : ∀ k, (s.loadLane k).length = s.reg.frames := fun k => by simp [State.loadLane]
  cases c with
  | zero => simp [Chan.get, State.loadInput, hc, lane]
  | succ c =>
    have h1 : 1 < s.reg.channels := by omega
    simp [Chan.get, State.loadInput, h1, lane]

theorem State.wbInv_of_idle_or_commit (h : s.phase = .idle ∨ s.phase = .commit) : s.WbInv := by
  rintro (hp | hp) <;> rw [hp] at h <;> rcases h with h | h <;> cases h

/-- What keeps phase, registers and the channels' lengths keeps the shape. -/
theorem State.WbInv.congr (h : s.WbInv)
    (hp : t.phase = .process ∨ t.phase = .convert → s.phase = .process ∨ s.phase = .convert)
    (hr : t.reg = s.reg) (hl : ∀ c, c < 2 → (t.wb.get c).length = (s.wb.get c).length) : t.WbInv := by
  intro hph c hc
  rw [hr] at hc ⊢
  rw [Chan.get_eq_get_min, hl _ (by omega), ← Chan.get_eq_get_min]
  exact h (hp hph) c hc

theorem State.endCommit_wbInv (s : State) : s.endCommit.WbInv := by
  rcases s.endCommit_cases with ⟨-, e⟩ | ⟨-, e⟩ <;> rw [e]
  · exact wbInv_of_idle_or_commit (.inl rfl)
  · intro _ c hc
    simp only [State.startChain_reg, State.loadInput_reg, State.startChain_wb] at hc ⊢
    exact s.loadInput_lane_length hc

theorem hostAccess_wbInv {x : HostOp} (h : s.WbInv) (hs : hostAccess x s = .next t) : t.WbInv := by
  rcases hostAccess_cases x hs with ⟨hk, -⟩ | ⟨hp, p, hr⟩ | ⟨hr, -⟩
  · exact h.congr (by rw [hk.phase]; exact id) hk.reg (by simp [hk.wb])
  · rcases exec_run_idle { s with pendAll := p } hp with ⟨u, -, e⟩ | ⟨c, -, e⟩ <;> cases e.symm.trans hr <;>
      exact State.wbInv_of_idle_or_commit (.inr rfl)
  · cases hr
    exact State.wbInv_of_idle_or_commit (.inl rfl)

theorem engineStep_wbInv (h : s.WbInv) (hs : engineStep s = .next t) : t.WbInv := by
  rcases engineStep_next hs with rfl | rfl | ⟨hp, i, hi, hx⟩ | ⟨ws, u, rfl⟩
  · exact h
  · exact s.endCommit_wbInv
  · obtain ⟨wb, ovf, f, e, hl, -⟩ := exec_desc s (decodeDesc_isDesc hi)
    cases e.symm.trans hx
    exact h.congr (fun _ => .inl hp) (by simp [State.slotChange]) (by simpa [State.slotChange] using hl)
  · exact State.wbInv_of_idle_or_commit (.inl rfl)

end

/-- Settles O7: the engine enters the chain with a loaded buffer, and every module keeps each channel's length. -/
theorem stepKeepsBufferShape : Obligations.StepKeepsBufferShape :=
  step_induction (fun _ _ _ _ h => h) (fun _ _ _ => hostAccess_wbInv) (fun _ _ => engineStep_wbInv)

end Sys2Proof.Machine

/-! PROOFS. Host accesses to the global registers: read-only registers, STATUS, CTRL and INT_EN, and the idle OUT RAM
(spec/10_state.md R34, R44, R45, R53, R54, spec/20_memory.md R93). -/

namespace Sys2Proof.Machine

/-! ### An access by the register it names -/

theorem globalRegAt_bounds {a : Nat} {r : GlobalReg} (h : globalRegAt a = some r) : a < 0x100 ∧ a % 4 = 0 := by
  unfold globalRegAt at h
  split at h
  case h_20 => cases h
  all_goals decide

theorem slotRegAt_bounds {o : Nat} {r : SlotReg} (h : slotRegAt o = some r) : o < 0x40 ∧ o % 4 = 0 := by
  unfold slotRegAt at h
  split at h
  case h_14 => cases h
  all_goals decide

theorem targetAt_global {b : Build} {a : Nat} {r : GlobalReg} (h : globalRegAt a = some r) :
    targetAt b a = some (.global r) := by
  rw [targetAt, if_pos (globalRegAt_bounds h).1, h, Option.map_some]

section
variable (s : State)

/-- A write to a global register acts on it, whatever the phase (R91, R99). -/
theorem hostAccess_wr_global {a : Addr} (r : GlobalReg) (w : Word) (h : globalRegAt a.toNat = some r) :
    hostAccess (.wr a 4 w) s = s.writeGlobal a r w :=
  hostAccess_wr (globalRegAt_bounds h).2 (targetAt_global h) (.inl rfl)

/-- A read of a global register returns its value, whatever the phase (R91, R98, R99). -/
theorem hostAccess_rd_global {a : Addr} (r : GlobalReg) (h : globalRegAt a.toNat = some r) :
    hostAccess (.rd a 4) s = .next (s.reply (s.readGlobal r)) :=
  hostAccess_rd (globalRegAt_bounds h).2 (targetAt_global h) (.inl rfl)

/-- A write to a register of slot i acts on it, whatever the phase (R54, R91, R99). -/
theorem hostAccess_wr_slot {i o : Nat} (r : SlotReg) (w : Word) (h64 : s.build.nSlots ≤ 64) (hi : i < s.build.nSlots)
    (h : slotRegAt o = some r) :
    hostAccess (.wr (BitVec.ofNat 20 (0x1000 + 0x40 * i + o)) 4 w) s
      = s.writeSlot (BitVec.ofNat 20 (0x1000 + 0x40 * i + o)) i r w := by
  obtain ⟨ho, h4⟩ := slotRegAt_bounds h
  have hn := toNat_ofNat_addr (n := 0x1000 + 0x40 * i + o) (by omega)
  refine hostAccess_wr (t := .slot i r) ?_ ?_ (.inl rfl)
  · rw [hn]; omega
  · rw [hn, targetAt_slot _ _ _ h64 hi ho, h, Option.map_some]

/-- A write to an OUT word of an idle block is ignored (R93). -/
theorem hostAccess_wr_out_of_idle {i : Nat} (w : Word) (hb : s.build.maxBuffer ≤ 16384) (hp : s.phase = .idle)
    (hi : i < 4 * s.build.maxBuffer) : hostAccess (.wr (BitVec.ofNat 20 (0x80000 + 4 * i)) 4 w) s = .next s := by
  have hn := toNat_ofNat_addr (n := 0x80000 + 4 * i) (by omega)
  refine hostAccess_wr (t := .outRam i) ?_ ?_ (.inr (by simp [State.busy, hp]))
  · rw [hn]; omega
  · rw [hn, targetAt_out _ _ hb hi]

end

/-- Settles O22: each address names a register, or an OUT word, whose write answers the same state. -/
theorem readOnlyWritesIgnored : Obligations.ReadOnlyWritesIgnored := by
  refine ⟨fun s w => ?_, fun s i w h64 hi => ?_, fun s i w => hostAccess_wr_out_of_idle s w⟩
  · have ignored : ∀ {a : Addr} (r : GlobalReg), globalRegAt a.toNat = some r → s.writeGlobal a r w = .next s →
        hostAccess (.wr a 4 w) s = .next s := fun r h hw => (hostAccess_wr_global s r w h).trans hw
    simp only [List.forall_mem_cons]
    exact ⟨ignored .id rfl rfl, ignored .version rfl rfl, ignored .cap0 rfl rfl, ignored .capBuf rfl rfl,
      ignored .capDelay rfl rfl, ignored .capPsf rfl rfl, ignored .capPsq rfl rfl, ignored .capGmin rfl rfl,
      ignored .capGmax rfl rfl, ignored .errInfo rfl rfl, ignored .errAddr rfl rfl, ignored .runCount rfl rfl,
      List.forall_mem_nil _⟩
  · have ignored : ∀ {o : Nat} (r : SlotReg), slotRegAt o = some r → (∀ a, s.writeSlot a i r w = .next s) →
        hostAccess (.wr (BitVec.ofNat 20 (0x1000 + 0x40 * i + o)) 4 w) s = .next s :=
      fun r h hw => (hostAccess_wr_slot s r w h64 hi h).trans (hw _)
    simp only [List.forall_mem_cons]
    exact ⟨ignored .e0 rfl fun _ => rfl, ignored .e1 rfl fun _ => rfl, ignored .e2 rfl fun _ => rfl,
      ignored .k0 rfl fun _ => rfl, ignored .k1 rfl fun _ => rfl, ignored .k2 rfl fun _ => rfl,
      ignored .k3 rfl fun _ => rfl, ignored .k4 rfl fun _ => rfl, List.forall_mem_nil _⟩

/-! ### The bits of STATUS and INT_EN -/

section
variable (s : State)

theorem State.busy_iff : s.busy = true ↔ s.phase ≠ .idle := by simp [State.busy]

/-- CUR_SLOT is STATUS[15:8], and 0 while idle (R45). -/
theorem State.getLsbD_curSlot_field (n : Nat) :
    (s.curSlot.setWidth 32 <<< 8).getLsbD n = (decide (8 ≤ n) && s.busy && s.slotPc.getLsbD (n - 8)) := by
  have hcur : ∀ k, s.curSlot.getLsbD k = (s.busy && s.slotPc.getLsbD k) := fun k => by
    unfold State.curSlot
    cases s.busy <;> simp
  rw [BitVec.getLsbD_shiftLeft, BitVec.getLsbD_setWidth, hcur]
  by_cases hlt : n < 8
  · simp [hlt]
  by_cases hge : 16 ≤ n
  · simp [BitVec.getLsbD_of_ge s.slotPc (n - 8) (by omega)]
  · have h32 : n < 32 := by omega
    have hk : n - 8 < 32 := by omega
    simp [hlt, h32, hk, Nat.le_of_not_lt hlt]

theorem State.getLsbD_statusWord (n : Nat) :
    s.statusWord.getLsbD n =
      (s.busy && decide (n = 0) || s.status.done && decide (n = 1) || s.status.err && decide (n = 2)
        || s.status.refused && decide (n = 3) || s.status.fmtUnsup && decide (n = 4)
        || s.status.psOvf && decide (n = 5) || (decide (8 ≤ n) && s.busy && s.slotPc.getLsbD (n - 8))) := by
  simp only [State.statusWord, BitVec.getLsbD_or, State.getLsbD_curSlot_field]
  rw [getLsbD_bitAt _ _ _ (by decide), getLsbD_bitAt _ _ _ (by decide), getLsbD_bitAt _ _ _ (by decide),
    getLsbD_bitAt _ _ _ (by decide), getLsbD_bitAt _ _ _ (by decide), getLsbD_bitAt _ _ _ (by decide)]

theorem IntEnable.getLsbD_word (i : IntEnable) (n : Nat) :
    i.word.getLsbD n = ((n == 0 && i.doneIe) || (n == 1 && i.errIe)) := by
  rw [IntEnable.word, BitVec.getLsbD_or, getLsbD_bitAt _ _ _ (by decide), getLsbD_bitAt _ _ _ (by decide),
    Bool.and_comm i.doneIe, Bool.and_comm i.errIe]
  rfl

end

/-- Settles O23: the STATUS word is the join of its fields' bits, and each access acts on the register it names. -/
theorem statusAndEnables : Obligations.StatusAndEnables := by
  intro s w
  refine ⟨fun n => ?bits, s.busy_iff, hostAccess_rd_global s .status rfl, hostAccess_wr_global s .status w rfl,
    hostAccess_rd_global s .ctrl rfl, hostAccess_wr_global s .intEn w rfl, s.intEn.getLsbD_word⟩
  rw [State.getLsbD_statusWord]
  split
  case h_7 h0 h1 h2 h3 h4 h5 =>
    simp [decide_eq_false h0, decide_eq_false h1, decide_eq_false h2, decide_eq_false h3, decide_eq_false h4,
      decide_eq_false h5]
  all_goals simp

end Sys2Proof.Machine

/-! PROOFS. The memory over a step: canonical, and written only inside the IN and OUT RAMs (spec/20_memory.md R92, R93,
spec/40_sequencer.md R165). -/

namespace Sys2Proof.Machine

section
variable {s t : State}

/-- A step is an engine action or a host access, from the state with some of the queue and the draws used up (R152). -/
theorem step_next (h : step s = .next t) :
    ∃ q d, engineStep { s with hostQueue := q, draws := d } = .next t
      ∨ ∃ x, hostAccess x { s with hostQueue := q, draws := d } = .next t := by
  unfold step at h
  rcases cycle_cases s with ⟨-, e⟩ | ⟨x, rest, -, -, e⟩ | ⟨rest, -, -, e⟩ | ⟨x, rest, -, -, -, -, e⟩ |
    ⟨x, rest, -, -, -, -, e⟩
  all_goals rw [e] at h
  · exact ⟨s.hostQueue, s.draws, .inl h⟩
  · exact ⟨rest, s.draws, .inr ⟨x, h⟩⟩
  · exact ⟨s.hostQueue, s.draws, .inl h⟩
  · exact ⟨s.hostQueue, _, .inl h⟩
  · exact ⟨rest, _, .inr ⟨x, h⟩⟩

/-! ### The writes that keep the form -/

/-- A byte address of the IN or the OUT RAM (R92, R93). -/
def ramByte (b : Build) (a : Nat) : Prop :=
  (0x40000 ≤ a ∧ a < 0x40000 + 8 * b.maxBuffer) ∨ (0x80000 ≤ a ∧ a < 0x80000 + 16 * b.maxBuffer)

theorem State.memInv_iff : s.MemInv ↔ Memory.wf s.mem ∧ ∀ cell ∈ s.mem, ramByte s.build cell.1 :=
  ⟨fun ⟨hr, hm⟩ => ⟨hr, hm⟩, fun ⟨hr, hm⟩ => ⟨hr, hm⟩⟩

theorem State.MemInv.congr (h : s.MemInv) (hb : t.build = s.build) (hm : t.mem = s.mem) : t.MemInv := by
  rw [State.memInv_iff, hb, hm]
  exact State.memInv_iff.mp h

theorem State.MemInv.of_writeWord (h : s.MemInv) {i : Nat} {w : Word} (hi : i < 2 * s.build.maxBuffer)
    (hb : t.build = s.build) (hm : t.mem = Memory.writeWord s.mem (inAddr i) w) : t.MemInv := by
  obtain ⟨hr, hc⟩ := State.memInv_iff.mp h
  rw [State.memInv_iff, hb, hm]
  refine ⟨Memory.writeWord_wf _ _ hr, Memory.writeWord_forall hc _ _ fun j hj => .inl ?_⟩
  unfold inAddr
  omega

theorem State.MemInv.of_writeWords (h : s.MemInv) {ws : List Word} (hl : ws.length ≤ 4 * s.build.maxBuffer)
    (hb : t.build = s.build) (hm : t.mem = Memory.writeWords s.mem (outAddr 0) ws) : t.MemInv := by
  obtain ⟨hr, hc⟩ := State.memInv_iff.mp h
  rw [State.memInv_iff, hb, hm]
  refine ⟨Memory.writeWords_wf _ _ hr, Memory.writeWords_forall _ hc _ fun j hj => .inr ?_⟩
  unfold outAddr
  omega

/-! ### How many OUT words there are -/

/-- Two words for every sample of a legal format fit into OUT (R93, R126). -/
theorem GlobalRegs.Legal.outWords_fit {b : Build} {g : GlobalRegs} (h : g.Legal b) :
    2 * (g.frames * g.channels) ≤ 4 * b.maxBuffer := by
  have hs : g.frames * g.channels ≤ b.maxBuffer * 2 := Nat.mul_le_mul h.bufferSize.2 (channels_of_legal h.format).2
  omega

theorem State.abortedWords_length_le (s : State) :
    s.abortedWords.length ≤ 2 * (s.reg.frames * s.reg.channels) := by
  simp only [State.abortedWords, List.length_map, List.length_range, State.pendingOutWords, GlobalRegs.outWords]
  split
  · exact Nat.zero_le _
  · split <;> omega

/-! ### The step -/

/-- The host writes one IN word of an idle block, or a SOFT_RESET the OUT words of the run it aborts (R99, R321). -/
theorem hostAccess_memInv {x : HostOp} (hs : hostAccess x s = .next t) (hr : s.reg.Legal s.build) (h : s.MemInv) :
    t.MemInv := by
  rcases hostAccess_cases x hs with ⟨hk, hm | ⟨-, i, w, hi, hm⟩⟩ | ⟨hp, p, hx⟩ | ⟨hx, -⟩
  · exact h.congr hk.build hm
  · exact h.of_writeWord hi hk.build hm
  · rcases exec_run_idle { s with pendAll := p } hp with ⟨u, hu, e⟩ | ⟨c, -, e⟩ <;> cases e.symm.trans hx
    · obtain ⟨ds, -, rfl⟩ := State.commit_ok hu
      exact h.congr rfl rfl
    · exact h.congr rfl rfl
  · cases hx
    exact h.of_writeWords (s.abortedWords_length_le.trans hr.outWords_fit) rfl rfl

/-- The engine writes memory only where a converter stores its words from OUT[0] on (R165, R274). -/
theorem engineStep_memInv (hs : engineStep s = .next t) (hr : s.reg.Legal s.build) (h : s.MemInv) : t.MemInv := by
  rcases engineStep_cases s with ⟨-, e⟩ | ⟨-, e⟩ | ⟨-, i, hi, e⟩ | ⟨-, i, hi, e⟩ | ⟨f, e, -⟩
  · cases e.symm.trans hs
    exact h
  · cases e.symm.trans hs
    rcases s.endCommit_cases with ⟨-, hc⟩ | ⟨-, hc⟩ <;> exact h.congr (by simp [hc]) (by simp [hc])
  · obtain ⟨wb, ovf, f, hx, -⟩ := exec_desc s (decodeDesc_isDesc hi)
    cases (e.trans hx).symm.trans hs
    exact h.congr (by simp [State.slotChange]) (by simp [State.slotChange])
  · obtain ⟨ws, u, hx, hl⟩ := exec_format s hi
    cases (e.trans hx).symm.trans hs
    exact h.of_writeWords (hl.trans hr.outWords_fit) rfl rfl
  · cases e.symm.trans hs

end

/-- Settles O6: a step writes one IN word, or words from OUT[0] on that a legal format has room for. -/
theorem stepKeepsMemoryForm : Obligations.StepKeepsMemoryForm := by
  intro s t hi hm hs
  obtain ⟨q, d, he | ⟨x, hx⟩⟩ := step_next hs
  · exact engineStep_memInv he hi.reg (hm.congr rfl rfl)
  · exact hostAccess_memInv hx hi.reg (hm.congr rfl rfl)

end Sys2Proof.Machine

/-! PROOFS. The engine's view (spec/20_memory.md R103): no access of the host but a SOFT_RESET changes it during a run,
and the engine acts on it alone. -/

namespace Sys2Proof.Machine

section
variable {s t : State}

/-- Both states show the engine the same. -/
structure SameView (s t : State) : Prop where
  build : t.build = s.build
  reg : t.reg = s.reg
  slots : t.engineView.slots = s.engineView.slots
  phase : t.phase = s.phase
  slotPc : t.slotPc = s.slotPc
  verdict : t.verdict = s.verdict
  wb : t.wb = s.wb
  mem : t.mem = s.mem

theorem engineView_eq_iff : t.engineView = s.engineView ↔ SameView s t := by
  constructor
  · intro h
    obtain ⟨hb, hr, hs, hp, hpc, hv, hw, hm⟩ := EngineView.mk.injEq .. ▸ h
    exact ⟨hb, hr, hs, hp, hpc, hv, hw, hm⟩
  · rintro ⟨hb, hr, hs, hp, hpc, hv, hw, hm⟩
    exact (EngineView.mk.injEq ..).mpr ⟨hb, hr, hs, hp, hpc, hv, hw, hm⟩

/-! ### The host -/

/-- A change of slots that keeps what the engine reads of each is not in its view. -/
theorem HostKeeps.engineView_slots (h : HostKeeps s t) : t.engineView.slots = s.engineView.slots := by
  rcases h.slots with e | ⟨i, f, e, hf⟩
  · simp [State.engineView, e]
  · have hv : t.engineView.slots = (s.modifySlot i f).engineView.slots := by simp [State.engineView, e]
    exact hv.trans (engineView_slots_modifySlot s i hf)

theorem HostKeeps.sameView (h : HostKeeps s t) (hm : t.mem = s.mem) : SameView s t :=
  ⟨h.build, h.reg, h.engineView_slots, h.phase, h.pc, h.verdict, h.wb, hm⟩

end

/-- Settles O56: while BUSY an access writes no RAM word and starts no run, and what else it changes is not in the
view. -/
theorem hostCannotDisturbRun : Obligations.HostCannotDisturbRun := by
  intro s t x hbusy hreset hs
  rw [engineView_eq_iff]
  rcases hostAccess_cases x hs with ⟨hk, hm | ⟨hidle, -⟩⟩ | ⟨hidle, -⟩ | ⟨-, hx⟩
  · exact hk.sameView hm
  · exact absurd hidle hbusy
  · exact absurd hidle hbusy
  · rw [hreset] at hx; cases hx

section
variable {s t : State}

/-! ### The engine's operations on two states that show it the same -/

theorem SameView.current (h : SameView s t) :
    t.current.reg = s.current.reg ∧ t.current.derived = s.current.derived ∧ t.current.state = s.current.state := by
  unfold State.current
  rw [h.slotPc]
  exact slot_of_engineView_slots h.slots _

/-- A change of the current slot's own state is the same change in both views. -/
theorem SameView.slotChange (h : SameView s t) (wb : Chan (List F32)) (o o' : Bool) (f : SlotState → SlotState) :
    SameView (s.slotChange wb o f) (t.slotChange wb o' f) where
  build := h.build
  reg := h.reg
  slots := by
    have view : ∀ u : State, (u.slotChange wb o f).engineView.slots =
        u.engineView.slots.modify u.slotPc.toNat fun v => (v.1, v.2.1, f v.2.2) := fun u => by
      apply List.ext_getElem?
      intro j
      simp only [State.engineView, State.slotChange, List.getElem?_map, List.getElem?_modify]
      cases u.slots[j]? with
      | none => rfl
      | some x => by_cases hij : u.slotPc.toNat = j <;> simp [hij]
    rw [view s, ← h.slots, ← h.slotPc]
    exact view t
  phase := h.phase
  slotPc := h.slotPc
  verdict := h.verdict
  wb := rfl
  mem := h.mem

theorem SameView.advanceSlot (h : SameView s t) : SameView s.advanceSlot t.advanceSlot := by
  obtain ⟨hb, hr, hs, hp, hpc, hv, hw, hm⟩ := h
  unfold State.advanceSlot
  rw [hpc, hr]
  split
  · exact ⟨hb, rfl, hs, hp, rfl, hv, hw, hm⟩
  · exact ⟨hb, rfl, hs, rfl, rfl, hv, hw, hm⟩

theorem SameView.mapSamples (h : SameView s t) {g g' : F32 → F32} (hg : g' = g) :
    SameView (s.mapSamples g) (t.mapSamples g') where
  build := h.build
  reg := h.reg
  slots := h.slots
  phase := h.phase
  slotPc := h.slotPc
  verdict := h.verdict
  wb := by simp [hg, h.wb, h.reg]
  mem := h.mem

theorem SameView.foldChannels (h : SameView s t) {σ : Type} (get : SlotState → Chan σ)
    (put : SlotState → Chan σ → SlotState) {st st' : σ → F32 → σ × F32} (hst : st' = st) :
    SameView (s.foldChannels get put st) (t.foldChannels get put st') := by
  obtain ⟨-, -, hcur⟩ := h.current
  obtain ⟨r, es, et⟩ : ∃ r : Chan (σ × List F32),
      s.foldChannels get put st = s.slotChange r.snd s.status.psOvf (fun x => put x r.fst)
        ∧ t.foldChannels get put st' = t.slotChange r.snd t.status.psOvf (fun x => put x r.fst) :=
    ⟨_, rfl, by simp only [State.foldChannels, State.slotChange, hst, hcur, h.wb, h.reg]⟩
  exact es ▸ et ▸ h.slotChange _ _ _ _

theorem SameView.applyPitch (h : SameView s t) (warp : Bool) : SameView (s.applyPitch warp) (t.applyPitch warp) := by
  obtain ⟨-, hder, hcur⟩ := h.current
  obtain ⟨wb, lanes, o, o', es, et⟩ : ∃ wb lanes o o',
      s.applyPitch warp = s.slotChange wb o (fun x => { x with pitch := lanes })
        ∧ t.applyPitch warp = t.slotChange wb o' (fun x => { x with pitch := lanes }) :=
    ⟨_, _, _, _, rfl, by simp only [State.applyPitch, State.slotChange, hder, hcur, h.wb, h.reg, h.build]; rfl⟩
  exact es ▸ et ▸ h.slotChange _ _ _ _

theorem SameView.finishCompleted_storeOut (h : SameView s t) (ws : List Word) (u : Bool) :
    SameView (s.storeOut ws u).finishCompleted (t.storeOut ws u).finishCompleted :=
  ⟨h.build, h.reg, h.slots, rfl, rfl, h.verdict, h.wb, congrArg (Memory.writeWords · (outAddr 0) ws) h.mem⟩

theorem SameView.interleaved (h : SameView s t) : t.interleaved = s.interleaved := by
  simp [State.interleaved, State.sample, h.reg, h.wb]

theorem SameView.endCommit (h : SameView s t) : SameView s.endCommit t.endCommit := by
  have hlane : ∀ c, t.loadLane c = s.loadLane c := fun c => by simp [State.loadLane, State.inWord, h.reg, h.mem]
  have hload : t.loadInput.wb = s.loadInput.wb := by simp only [State.loadInput, hlane, h.reg, h.wb]
  unfold State.endCommit
  rw [h.verdict]
  split
  · exact ⟨h.build, h.reg, h.slots, rfl, rfl, rfl, h.wb, h.mem⟩
  · unfold State.startChain
    rw [State.loadInput_reg, State.loadInput_reg, h.reg]
    split <;> exact ⟨h.build, rfl, h.slots, rfl, rfl, h.verdict, hload, h.mem⟩

/-! ### The engine's instructions -/

/-- The two answers are next states that show the engine the same. -/
def SameAnswer (x y : Host.Outcome State Fault Refusal) : Prop := ∃ u v, x = .next u ∧ y = .next v ∧ SameView u v

theorem SameView.answer {u v : State} (h : SameView u v) : SameAnswer (.next u) (.next v) := ⟨u, v, rfl, rfl, h⟩

/-- A slot instruction computes from the current slot's committed registers and state and from the working buffer
(R155). -/
theorem SameView.sameAnswer_exec_desc (h : SameView s t) {i : Instr} (hi : Instr.isDesc i = true) :
    SameAnswer (exec i s) (exec i t) := by
  obtain ⟨-, hder, -⟩ := h.current
  have filter : ∀ n, SameAnswer (.next (s.applyFilter n).advanceSlot) (.next (t.applyFilter n).advanceSlot) :=
    fun n => (h.foldChannels _ _ (by rw [hder])).advanceSlot.answer
  cases i
  case nop => exact h.advanceSlot.answer
  case gain | dist | odrive | sat => exact (h.mapSamples (by rw [hder])).advanceSlot.answer
  case delay => exact (h.foldChannels _ _ (by rw [hder])).advanceSlot.answer
  case pitch => exact (h.applyPitch false).advanceSlot.answer
  case pitchWarp => exact (h.applyPitch true).advanceSlot.answer
  case conv16 | conv32 | convsil | run | stateclear | reset | slotclr => cases hi
  all_goals exact filter _

/-- A converter computes from the working buffer and the committed globals (R270-R273). -/
theorem SameView.sameAnswer_exec_format (h : SameView s t) {w : Word} {i : Instr} (hi : decodeFormat w = .ok i) :
    SameAnswer (exec i s) (exec i t) := by
  rcases decodeFormat_cases hi with rfl | rfl | rfl
  · simp only [exec, execConv16, h.interleaved]
    exact (h.finishCompleted_storeOut _ _).answer
  · simp only [exec, execConv32, h.interleaved]
    exact (h.finishCompleted_storeOut _ _).answer
  · simp only [exec, execConvsil, h.reg]
    exact (h.finishCompleted_storeOut _ _).answer

theorem SameView.sameAnswer_engineStep (h : SameView s t) {u : State} (hs : engineStep s = .next u) :
    SameAnswer (engineStep s) (engineStep t) := by
  obtain ⟨hreg, -, -⟩ := h.current
  rcases engineStep_cases s with ⟨hp, e⟩ | ⟨hp, e⟩ | ⟨hp, i, hi, e⟩ | ⟨hp, i, hi, e⟩ | ⟨f, e, -⟩
  · have e' : engineStep t = .next t := by simp [engineStep, h.phase, hp]
    exact e ▸ e' ▸ h.answer
  · have e' : engineStep t = .next t.endCommit := by simp [engineStep, h.phase, hp]
    exact e ▸ e' ▸ h.endCommit.answer
  · have e' : engineStep t = exec i t := by simp [engineStep, h.phase, hp, hreg, hi]
    exact e ▸ e' ▸ h.sameAnswer_exec_desc (decodeDesc_isDesc hi)
  · have e' : engineStep t = exec i t := by simp [engineStep, h.phase, hp, h.reg, hi]
    exact e ▸ e' ▸ h.sameAnswer_exec_format hi
  · cases e.symm.trans hs

end

/-- Settles O57: each engine action takes states that show the engine the same to states that do. -/
theorem engineDependsOnView : Obligations.EngineDependsOnView := by
  intro s s' t _ hview hs
  obtain ⟨u, v, hu, hv, hsame⟩ := (engineView_eq_iff.mp hview.symm).sameAnswer_engineStep hs
  cases hs.symm.trans hu
  exact ⟨v, hv, engineView_eq_iff.mpr hsame⟩

end Sys2Proof.Machine

/-! PROOFS. The host's accesses: refused ones, IN and OUT words, what a read gives, and the address map
(spec/20_memory.md R91-R100). -/

namespace Sys2Proof.Machine

section
variable {s : State} {a : Addr}

/-! ### Refused accesses -/

/-- A refused access raises its error without a slot; a read returns 0 (R100, R293). -/
theorem hostAccess_refused {size : Nat} {code : ErrCode} (h : s.checkAccess a size = .error code) (w : Word) :
    hostAccess (.rd a size) s = .next ((s.raiseError code noSlot a).reply 0#32)
      ∧ hostAccess (.wr a size w) s = .next (s.raiseError code noSlot a) := by
  simp only [hostAccess, h, and_self]

theorem checkAccess_misaligned {size : Nat} (h : size ≠ 4 ∨ a.toNat % 4 ≠ 0) :
    s.checkAccess a size = .error .busAlign := if_pos h

theorem checkAccess_unmapped (ha : a.toNat % 4 = 0) (ht : targetAt s.build a.toNat = none) :
    s.checkAccess a 4 = .error .addr := by
  simp [State.checkAccess, ha, ht]

theorem checkAccess_ramBusy {t : Target} (ha : a.toNat % 4 = 0) (ht : targetAt s.build a.toNat = some t)
    (hr : t.isRam = true) (hp : s.phase ≠ .idle) : s.checkAccess a 4 = .error .ramBusy := by
  simp [State.checkAccess, ha, ht, hr, s.busy_iff.mpr hp]

end

/-- Settles O18: the check of size and alignment is the first one. -/
theorem misalignedAccess : Obligations.MisalignedAccess :=
  fun _ _ _ w h => hostAccess_refused (checkAccess_misaligned h) w

section
variable (s : State)

/-! ### RAM words of an idle block and slot registers -/

theorem State.busy_of_idle {s : State} (h : s.phase = .idle) : s.busy = false := by simp [State.busy, h]

/-- A write to an address given as a number acts on its target. -/
theorem hostAccess_wr_ofNat {n : Nat} {u : Target} (w : Word) (hn : n < 1048576) (h4 : n % 4 = 0)
    (ht : targetAt s.build n = some u) (hr : u.isRam = false ∨ s.busy = false) :
    hostAccess (.wr (BitVec.ofNat 20 n) 4 w) s = s.writeTarget (BitVec.ofNat 20 n) u w := by
  have he := toNat_ofNat_addr hn
  exact hostAccess_wr (by rwa [he]) (by rwa [he]) hr

/-- A read of an address given as a number returns its target's value. -/
theorem hostAccess_rd_ofNat {n : Nat} {u : Target} (hn : n < 1048576) (h4 : n % 4 = 0)
    (ht : targetAt s.build n = some u) (hr : u.isRam = false ∨ s.busy = false) :
    hostAccess (.rd (BitVec.ofNat 20 n) 4) s = .next (s.reply (s.readTarget u)) := by
  have he := toNat_ofNat_addr hn
  exact hostAccess_rd (by rwa [he]) (by rwa [he]) hr

theorem hostAccess_wr_in_of_idle {i : Nat} (w : Word) (hb : s.build.maxBuffer ≤ 16384) (hp : s.phase = .idle)
    (hi : i < 2 * s.build.maxBuffer) :
    hostAccess (.wr (BitVec.ofNat 20 (0x40000 + 4 * i)) 4 w) s
      = .next { s with mem := Memory.writeWord s.mem (inAddr i) w } :=
  hostAccess_wr_ofNat s w (by omega) (by omega) (targetAt_in _ _ hb hi) (.inr (State.busy_of_idle hp))

theorem hostAccess_rd_in_of_idle {i : Nat} (hb : s.build.maxBuffer ≤ 16384) (hp : s.phase = .idle)
    (hi : i < 2 * s.build.maxBuffer) :
    hostAccess (.rd (BitVec.ofNat 20 (0x40000 + 4 * i)) 4) s = .next (s.reply (s.inWord i)) :=
  hostAccess_rd_ofNat s (by omega) (by omega) (targetAt_in _ _ hb hi) (.inr (State.busy_of_idle hp))

theorem hostAccess_rd_out_of_idle {i : Nat} (hb : s.build.maxBuffer ≤ 16384) (hp : s.phase = .idle)
    (hi : i < 4 * s.build.maxBuffer) :
    hostAccess (.rd (BitVec.ofNat 20 (0x80000 + 4 * i)) 4) s = .next (s.reply (s.outWord i)) :=
  hostAccess_rd_ofNat s (by omega) (by omega) (targetAt_out _ _ hb hi) (.inr (State.busy_of_idle hp))

/-- A read of a register of slot i returns its value, whatever the phase (R54, R98, R99). -/
theorem hostAccess_rd_slot {i o : Nat} (r : SlotReg) (h64 : s.build.nSlots ≤ 64) (hi : i < s.build.nSlots)
    (h : slotRegAt o = some r) :
    hostAccess (.rd (BitVec.ofNat 20 (0x1000 + 0x40 * i + o)) 4) s = .next (s.reply ((s.slot i).read r)) := by
  obtain ⟨ho, h4⟩ := slotRegAt_bounds h
  have ht : targetAt s.build (0x1000 + 0x40 * i + o) = some (.slot i r) := by
    rw [targetAt_slot _ _ _ h64 hi ho, h, Option.map_some]
  exact hostAccess_rd_ofNat s (by omega) (by omega) ht (.inl rfl)

end

/-! ### An IN word, byte by byte -/

theorem byteOf_eq (w : Word) (j : Nat) : byteOf w j = BitVec.ofNat 8 (w.toNat / 2 ^ (8 * j)) := by
  apply BitVec.eq_of_toNat_eq
  simp [byteOf, Nat.shiftRight_eq_div_pow]

/-- Byte j of a word just written (R95). -/
theorem Memory.byteAt_writeWord_same (m : Memory) (a : Nat) (w : Word) {j : Nat} (hj : j < 4) :
    Memory.byteAt (Memory.writeWord m a w) (a + j) = byteOf w j := by
  unfold Memory.writeWord
  interval_cases j
  · rw [Memory.byteAt_write_other _ _ (by omega), Memory.byteAt_write_other _ _ (by omega),
      Memory.byteAt_write_other _ _ (by omega), Nat.add_zero, Memory.byteAt_write_same]
  · rw [Memory.byteAt_write_other _ _ (by omega), Memory.byteAt_write_other _ _ (by omega), Memory.byteAt_write_same]
  · rw [Memory.byteAt_write_other _ _ (by omega), Memory.byteAt_write_same]
  · rw [Memory.byteAt_write_same]

/-- Settles O17: an idle block's IN word is one word written into memory. -/
theorem inputWordStored : Obligations.InputWordStored := by
  intro s i w hb hp hi
  refine ⟨_, hostAccess_wr_in_of_idle s w hb hp hi, fun j hj => ?_, fun c hc => ?_, ?_⟩
  · exact (Memory.byteAt_writeWord_same _ _ _ hj).trans (byteOf_eq w j)
  · exact Memory.byteAt_writeWord_other _ _ hc
  · have hrd := hostAccess_rd_in_of_idle { s with mem := Memory.writeWord s.mem (inAddr i) w } hb hp hi
    rwa [State.inWord, Memory.wordAt_writeWord_same] at hrd

/-! ### The address map -/

theorem globalRegAt_isSome {a : Nat} (h : a < 0x100) (h4 : a % 4 = 0) :
    (globalRegAt a).isSome = true ↔ a ≤ 0x20 ∨ (0x40 ≤ a ∧ a ≤ 0x64) := by
  have words : ∀ k < 0x40, (globalRegAt (4 * k)).isSome = true ↔ 4 * k ≤ 0x20 ∨ (0x40 ≤ 4 * k ∧ 4 * k ≤ 0x64) := by
    decide
  obtain ⟨k, rfl⟩ := Nat.dvd_of_mod_eq_zero h4
  exact words k (by omega)

theorem slotRegAt_isSome {o : Nat} (h : o < 0x40) (h4 : o % 4 = 0) : (slotRegAt o).isSome = true ↔ o ≤ 0x30 := by
  have words : ∀ k < 0x10, (slotRegAt (4 * k)).isSome = true ↔ 4 * k ≤ 0x30 := by decide
  obtain ⟨k, rfl⟩ := Nat.dvd_of_mod_eq_zero h4
  exact words k (by omega)

/-- A slot's registers are the first 0x34 bytes of its block of 0x40 (R54). -/
theorem mapped_slot_iff (n a : Nat) :
    (∃ i, i < n ∧ 0x1000 + 0x40 * i ≤ a ∧ a ≤ 0x1000 + 0x40 * i + 0x30)
      ↔ 0x1000 ≤ a ∧ (a - 0x1000) / 0x40 < n ∧ (a - 0x1000) % 0x40 ≤ 0x30 := by
  constructor
  · rintro ⟨i, hi, hlo, hhi⟩
    have hd : (a - 0x1000) / 0x40 = i := by omega
    exact ⟨by omega, hd ▸ hi, by omega⟩
  · rintro ⟨hlo, hd, hm⟩
    exact ⟨_, hd, by omega, by omega⟩

/-- The addresses that have a target are the mapped ones (R91-R93, R97). -/
theorem mapped_iff_targetAt_isSome {b : Build} {a : Nat} (h64 : b.nSlots ≤ 64) (hb : b.maxBuffer ≤ 16384)
    (ha : a % 4 = 0) : b.mapped a ↔ (targetAt b a).isSome = true := by
  rw [Build.mapped, mapped_slot_iff, targetAt]
  split
  · rw [Option.isSome_map, globalRegAt_isSome (by omega) ha]
    omega
  · split
    · split
      · rw [Option.isSome_map, slotRegAt_isSome (by omega) (by omega)]
        omega
      · simp only [Option.isSome_none, Bool.false_eq_true, iff_false]
        omega
    · split
      · rw [Option.isSome_ite]
        omega
      · split
        · rw [Option.isSome_ite]
          omega
        · simp only [Option.isSome_none, Bool.false_eq_true, iff_false]
          omega

theorem exists_target_of_mapped {b : Build} {a : Nat} (h64 : b.nSlots ≤ 64) (hb : b.maxBuffer ≤ 16384)
    (ha : a % 4 = 0) (h : b.mapped a) : ∃ t, targetAt b a = some t :=
  Option.isSome_iff_exists.mp ((mapped_iff_targetAt_isSome h64 hb ha).mp h)

/-- Settles O20: a mapped address has a target, a RAM word exactly from 0x40000 on. -/
theorem ramWhileBusy : Obligations.RamWhileBusy := by
  intro s a w h64 hb hp ha hm
  obtain ⟨t, ht⟩ := exists_target_of_mapped h64 hb ha hm
  have hram := isRam_of_targetAt ht
  refine ⟨fun hge => ?_, fun hlt => ?_⟩
  · exact hostAccess_refused (checkAccess_ramBusy ha ht (hram.trans (decide_eq_true hge)) hp) w
  · have hreg : t.isRam = false := hram.trans (decide_eq_false (by omega))
    exact ⟨t, ht, hreg, hostAccess_rd ha ht (.inl hreg), hostAccess_wr ha ht (.inl hreg)⟩

/-! ### What a read gives -/

theorem State.readGlobal_cap0 (s : State) :
    s.readGlobal .cap0
      = BitVec.ofNat 32 (s.build.nSlots % 256 + 512 + if s.build.bpVariant = .skirt then 4096 else 0) := by
  unfold State.readGlobal
  cases s.build.bpVariant <;> rfl

/-- Settles O21: a read replies or records a refusal, and each address names the register or word it gives. -/
theorem readsHaveNoSideEffect : Obligations.ReadsHaveNoSideEffect := by
  refine ⟨fun s t a size h => ?_, fun s => ?_, fun s i h64 hi => ?_, fun s i hb hp => ?_, fun s a h64 hb hp ha hm => ?_⟩
  · cases hc : s.checkAccess a size with
    | error code =>
      cases (hostAccess_refused hc 0#32).1.symm.trans h
      exact .inr ⟨code, rfl⟩
    | ok u =>
      simp only [hostAccess, hc] at h
      cases h
      exact .inl rfl
  · have rd {a : Addr} := @hostAccess_rd_global s a
    simp only [List.forall_mem_cons]
    exact ⟨rd .id rfl, rd .version rfl, s.readGlobal_cap0 ▸ rd .cap0 rfl, rd .capBuf rfl, rd .capDelay rfl,
      rd .capPsf rfl, rd .capPsq rfl, rd .capGmin rfl, rd .capGmax rfl, rd .ctrl rfl, rd .status rfl, rd .errInfo rfl,
      rd .errAddr rfl, rd .sampleRate rfl, rd .format rfl, rd .bufferSize rfl, rd .chainLen rfl, rd .runCount rfl,
      rd .intEn rfl, List.forall_mem_nil _⟩
  · have rd {o : Nat} (r : SlotReg) := hostAccess_rd_slot s (i := i) (o := o) r h64 hi
    simp only [List.forall_mem_cons]
    exact ⟨rd .desc rfl, rd .p0 rfl, rd .p1 rfl, rd .p2 rfl, rd .e0 rfl, rd .e1 rfl, rd .e2 rfl, rd .k0 rfl, rd .k1 rfl,
      rd .k2 rfl, rd .k3 rfl, rd .k4 rfl, rd .sctl rfl, List.forall_mem_nil _⟩
  · simp only [List.forall_mem_cons]
    exact ⟨hostAccess_rd_in_of_idle s hb hp, hostAccess_rd_out_of_idle s hb hp, List.forall_mem_nil _⟩
  · obtain ⟨t, ht⟩ := exists_target_of_mapped h64 hb ha hm
    exact ⟨_, hostAccess_rd ha ht (.inr (State.busy_of_idle hp))⟩

section
variable {s : State}

/-! ### Accesses that record no E_ADDR -/

theorem ErrCode.eq_addr_of_byte {code : ErrCode} (h : code.byte = 0x02#8) : code = .addr := by
  cases code
  case addr => rfl
  all_goals exact absurd h (by decide)

/-- ERR_INFO tells E_ADDR from every other code (R46, R290). -/
theorem errorInfo_ne_addr {code : ErrCode} (h : code ≠ .addr) (slot slot' : BitVec 8) :
    errorInfo code slot ≠ errorInfo .addr slot' := by
  intro he
  have hb := congrArg (BitVec.setWidth 8) he
  simp only [errorInfo, BitVec.setWidth_append_eq_right] at hb
  exact h (ErrCode.eq_addr_of_byte hb)

theorem rejectCode_ne_addr (e : Reject) : rejectCode e ≠ .addr := by cases e <;> simp [rejectCode]

/-- ERR_INFO does not hold the record of an unmapped access (R46, R97). -/
def State.NoAddrError (s : State) : Prop := s.errInfo ≠ errorInfo .addr noSlot

/-- The access is answered, and its answer holds no record of an unmapped access. -/
def AnswersMapped (x : Host.Outcome State Fault Refusal) : Prop := ∃ t, x = .next t ∧ t.NoAddrError

theorem State.NoAddrError.raiseError (h : s.NoAddrError) {code : ErrCode} (hc : code ≠ .addr) (slot : BitVec 8)
    (a : Addr) : (s.raiseError code slot a).NoAddrError := by
  simp only [State.NoAddrError, State.raiseError]
  split
  · exact h
  · exact errorInfo_ne_addr hc _ _

theorem deriveFilter_ne_addr {kind : FilterKind} {n : Nat} {b : Build} {p : SlotRegs} {fs : Nat} {code : ErrCode}
    (h : deriveFilter kind n b p fs = .error code) : code ≠ .addr := by
  simp only [deriveFilter] at h
  split at h
  · split at h <;> cases h
    simp
  · cases h
    simp

theorem deriveDelay_ne_addr {b : Build} {p : SlotRegs} {fs frames : Nat} {code : ErrCode}
    (h : deriveDelay b p fs frames = .error code) : code ≠ .addr := by
  simp only [deriveDelay] at h
  split at h <;> cases h
  simp

/-- A commit is refused by a filter's or a delay's own code (R153, R294). -/
theorem deriveSlot_ne_addr {b : Build} {p : SlotRegs} {g : GlobalRegs} {code : ErrCode}
    (h : deriveSlot b p g = .error code) : code ≠ .addr := by
  unfold deriveSlot at h
  split at h
  · next i _ =>
    cases i
    case filterLpS12 | filterLpS24 | filterHpS12 | filterHpS24 | filterBpS12 | filterBpS24 | filterLsS12 | filterLsS24 |
      filterHsS12 | filterHsS24 => exact deriveFilter_ne_addr h
    case delay => exact deriveDelay_ne_addr h
    all_goals cases h
  · cases h

theorem State.commit_ne_addr {e : CommitError} (h : s.commit = .error e) : e.code ≠ .addr := by
  unfold State.commit at h
  split at h
  · next he =>
    cases h
    obtain ⟨i, hi, -, hd, -⟩ := deriveSlots_error he
    exact deriveSlot_ne_addr hd
  · cases h

theorem exec_run_answersMapped (h : s.NoAddrError) : AnswersMapped (exec .run s) := by
  by_cases hp : s.phase = .idle
  · rcases exec_run_idle s hp with ⟨u, hu, e⟩ | ⟨c, hc, e⟩
    · obtain ⟨ds, -, rfl⟩ := State.commit_ok hu
      exact ⟨_, e, h⟩
    · exact ⟨_, e, h.raiseError (State.commit_ne_addr hc) (BitVec.ofNat 8 c.slot) ctrlAddr⟩
  · exact ⟨_, if_neg hp, h.raiseError (by simp) noSlot ctrlAddr⟩

theorem execAll_ctrl_answersMapped (h : s.NoAddrError) (w : Word) : AnswersMapped (execAll (decodeCtrl w) s) := by
  rcases execAll_ctrl s w with e | ⟨p, -, e | e⟩ <;> rw [e]
  · exact ⟨_, rfl, by simp [State.NoAddrError, State.init, errorInfo_eq, ErrCode.byte, noSlot]⟩
  · exact ⟨_, rfl, h⟩
  · exact exec_run_answersMapped (s := { s with pendAll := p }) h

theorem writeGlobal_answersMapped (h : s.NoAddrError) (a : Addr) (r : GlobalReg) (w : Word) :
    AnswersMapped (s.writeGlobal a r w) := by
  cases r
  case ctrl => exact execAll_ctrl_answersMapped h w
  case status =>
    refine ⟨_, rfl, ?_⟩
    simp only [State.NoAddrError, State.ackStatus]
    split
    · simp [errorInfo_eq, ErrCode.byte, noSlot]
    · exact h
  case sampleRate | bufferSize | chainLen =>
    refine ⟨_, rfl, ?_⟩
    simp only [State.writeSampleRate, State.writeBufferSize, State.writeChainLen]
    split
    · exact h.raiseError (by simp) _ _
    · exact h
  case format =>
    refine ⟨_, rfl, ?_⟩
    unfold State.writeFormat
    split
    · exact h.raiseError (rejectCode_ne_addr _) _ _
    · exact h
  all_goals exact ⟨_, rfl, h⟩

theorem writeSlot_answersMapped (h : s.NoAddrError) (a : Addr) {i : Nat} (hi : i < s.build.nSlots) (r : SlotReg)
    (w : Word) : AnswersMapped (s.writeSlot a i r w) := by
  have param : ∀ put, (s.writeParam a i w put).NoAddrError := fun put => by
    unfold State.writeParam
    split
    · exact h.raiseError (rejectCode_ne_addr _) _ _
    · exact h
  cases r
  case desc =>
    refine ⟨_, rfl, ?_⟩
    unfold State.writeDesc
    split
    · exact h.raiseError (rejectCode_ne_addr _) _ _
    · exact h
  case p0 | p1 | p2 => exact ⟨_, rfl, param _⟩
  case sctl =>
    rcases execAll_sctl s i w with e | e
    · exact ⟨_, e, h⟩
    · exact ⟨_, e.trans (if_pos hi), h⟩
  all_goals exact ⟨_, rfl, h⟩

theorem lt_nSlots_of_targetAt_slot {b : Build} {a i : Nat} {r : SlotReg} (h : targetAt b a = some (.slot i r)) :
    i < b.nSlots := by
  unfold targetAt at h
  split at h
  · obtain ⟨g, -, hg⟩ := Option.map_eq_some_iff.mp h; cases hg
  · split at h
    · split at h
      · next hlt => obtain ⟨g, -, hg⟩ := Option.map_eq_some_iff.mp h; cases hg; exact hlt
      · cases h
    · split at h
      · split at h <;> cases h
      · split at h
        · split at h <;> cases h
        · cases h

theorem writeTarget_answersMapped (h : s.NoAddrError) {a : Addr} {t : Target} (ht : targetAt s.build a.toNat = some t)
    (w : Word) : AnswersMapped (s.writeTarget a t w) := by
  cases t with
  | global r => exact writeGlobal_answersMapped h a r w
  | slot i r => exact writeSlot_answersMapped h a (lt_nSlots_of_targetAt_slot ht) r w
  | inRam i => exact ⟨_, rfl, h⟩
  | outRam i => exact ⟨_, rfl, h⟩

/-- An access to a mapped word passes the checks and acts on its target, or is refused because the RAM is busy (R99). -/
theorem hostAccess_answersMapped (h : s.NoAddrError) {a : Addr} {t : Target} (ha : a.toNat % 4 = 0)
    (ht : targetAt s.build a.toNat = some t) (w : Word) :
    AnswersMapped (hostAccess (.rd a 4) s) ∧ AnswersMapped (hostAccess (.wr a 4 w) s) := by
  by_cases hfree : t.isRam = false ∨ s.busy = false
  · rw [hostAccess_rd ha ht hfree, hostAccess_wr ha ht hfree]
    exact ⟨⟨_, rfl, h⟩, writeTarget_answersMapped h ht w⟩
  · simp only [not_or, Bool.not_eq_false] at hfree
    obtain ⟨hram, hbusy⟩ := hfree
    have hcheck := checkAccess_ramBusy ha ht hram (s.busy_iff.mp hbusy)
    obtain ⟨hrd, hwr⟩ := hostAccess_refused hcheck w
    have hraise := h.raiseError (code := .ramBusy) (by simp) noSlot a
    exact ⟨⟨_, hrd, hraise⟩, ⟨_, hwr, hraise⟩⟩

end

/-- Settles O19: an address has a target exactly where it is mapped, and no target's access raises E_ADDR. -/
theorem unmappedAccess : Obligations.UnmappedAccess := by
  intro s a w h64 hb ha
  have hiff := mapped_iff_targetAt_isSome h64 hb ha
  refine ⟨hiff, fun hm => ?_, fun hm he => ?_⟩
  · have hnone : targetAt s.build a.toNat = none := by simpa using mt hiff.mpr hm
    exact hostAccess_refused (checkAccess_unmapped ha hnone) w
  · obtain ⟨t, ht⟩ := exists_target_of_mapped h64 hb ha hm
    obtain ⟨hrd, hwr⟩ := hostAccess_answersMapped (s := s) he ha ht w
    simp only [List.forall_mem_cons]
    exact ⟨hrd, hwr, List.forall_mem_nil _⟩

end Sys2Proof.Machine

/-! PROOFS. The legal states over a step: every named update keeps them, so every access and every engine action does; and
from a legal state every step answers (spec/30_encoding.md R130, spec/60_exceptions.md R291). -/

namespace Sys2Proof.Machine

section
variable {s t : State}

/-! ### What the checks of a write leave legal -/

theorem legalDesc_iff {w : Word} : legalDesc w = true ↔ ∃ i, decodeDesc w = .ok i := by
  unfold legalDesc
  cases decodeDesc w <;> simp

theorem legalFormat_iff {w : Word} : legalFormat w = true ↔ checkFormat w = none := Option.isNone_iff_eq_none

theorem legalParam_iff {w : Word} : legalParam w = true ↔ checkParam w = none := Option.isNone_iff_eq_none

theorem SlotRegs.zero_legal : SlotRegs.zero.Legal := ⟨rfl, rfl, rfl, rfl⟩

theorem GlobalRegs.reset_legal {b : Build} (hb : b.Legal) : GlobalRegs.reset.Legal b where
  sampleRate := by decide
  format := rfl
  bufferSize := ⟨by decide, hb.buffer.1⟩
  chainLen := Nat.zero_le _

/-! ### The updates that keep a state legal -/

theorem State.init_inv {b : Build} (hb : b.Legal) : (State.init b).Inv where
  build := hb
  slotCount := List.length_replicate
  shadow := GlobalRegs.reset_legal hb
  reg := GlobalRegs.reset_legal hb
  slotShadow := fun _ hx => List.eq_of_mem_replicate hx ▸ SlotRegs.zero_legal
  slotReg := fun _ hx => List.eq_of_mem_replicate hx ▸ SlotRegs.zero_legal
  phase := rfl
  verdict := fun _ => rfl
  errRecord := fun _ => ⟨rfl, rfl⟩

theorem State.Inv.raiseError (h : s.Inv) (code : ErrCode) (slot : BitVec 8) (a : Addr) :
    (s.raiseError code slot a).Inv :=
  { h with errRecord := fun he => by cases he }

/-- Clearing ERR zeroes the record, and any other acknowledgement leaves both (R45). -/
theorem State.Inv.ackStatus (h : s.Inv) (w : Word) : (s.ackStatus w).Inv :=
  { h with
    errRecord := by
      simp only [State.ackStatus]
      cases w.getLsbD 2
      · simpa using h.errRecord
      · simp }

theorem State.Inv.modifySlot (h : s.Inv) (i : Nat) {f : Slot → Slot}
    (hshadow : ∀ x, x.shadow.Legal → (f x).shadow.Legal) (hreg : ∀ x, (f x).reg = x.reg) : (s.modifySlot i f).Inv :=
  { h with
    slotCount := (List.length_modify ..).trans h.slotCount
    slotShadow := fun x hx => by
      rcases mem_of_mem_modify hx with hx | ⟨y, hy, rfl⟩
      · exact h.slotShadow x hx
      · exact hshadow y (h.slotShadow y hy)
    slotReg := fun x hx => by
      rcases mem_of_mem_modify hx with hx | ⟨y, hy, rfl⟩
      · exact h.slotReg x hx
      · rw [hreg]; exact h.slotReg y hy }

/-! ### The host's accesses -/

theorem State.Inv.writeSampleRate (h : s.Inv) (a : Addr) (w : Word) : (s.writeSampleRate a w).Inv := by
  unfold State.writeSampleRate
  split
  · exact h.raiseError _ _ _
  · next hw => exact { h with shadow := { h.shadow with sampleRate := hw } }

theorem State.Inv.writeFormat (h : s.Inv) (a : Addr) (w : Word) : (s.writeFormat a w).Inv := by
  unfold State.writeFormat
  split
  · exact h.raiseError _ _ _
  · next hw => exact { h with shadow := { h.shadow with format := legalFormat_iff.mpr hw } }

theorem State.Inv.writeBufferSize (h : s.Inv) (a : Addr) (w : Word) : (s.writeBufferSize a w).Inv := by
  unfold State.writeBufferSize
  split
  · exact h.raiseError _ _ _
  · next hw =>
    obtain ⟨hzero, hmax⟩ := not_or.mp hw
    have hpos : 0 < w.toNat := Nat.pos_of_ne_zero fun e => hzero (BitVec.eq_of_toNat_eq e)
    exact { h with shadow := { h.shadow with bufferSize := ⟨hpos, Nat.le_of_not_lt hmax⟩ } }

theorem State.Inv.writeChainLen (h : s.Inv) (a : Addr) (w : Word) : (s.writeChainLen a w).Inv := by
  unfold State.writeChainLen
  split
  · exact h.raiseError _ _ _
  · next hw => exact { h with shadow := { h.shadow with chainLen := Nat.le_of_not_lt hw } }

theorem State.Inv.writeDesc (h : s.Inv) (a : Addr) (i : Nat) (w : Word) : (s.writeDesc a i w).Inv := by
  unfold State.writeDesc
  split
  · exact h.raiseError _ _ _
  · next hw =>
    exact h.modifySlot i (fun _ hx => { hx with desc := legalDesc_iff.mpr ⟨_, hw⟩ }) fun _ => rfl

theorem State.Inv.writeParam (h : s.Inv) (a : Addr) (i : Nat) (w : Word) {put : SlotRegs → SlotRegs}
    (hput : ∀ p, p.Legal → legalParam w = true → (put p).Legal) : (s.writeParam a i w put).Inv := by
  unfold State.writeParam
  split
  · exact h.raiseError _ _ _
  · next hw => exact h.modifySlot i (fun _ hx => hput _ hx (legalParam_iff.mpr hw)) fun _ => rfl

/-- A commit copies legal shadow registers (R153). -/
theorem State.Inv.of_commit (h : s.Inv) (hc : s.commit = .ok t) :
    ({ t with phase := .commit, slotPc := 0xFE#8, verdict := .accepted } : State).Inv := by
  obtain ⟨ds, -, rfl⟩ := State.commit_ok hc
  have committed : ∀ x ∈ commitSlots s.pendAll ds s.slots, x.shadow.Legal ∧ x.reg.Legal := fun x hx => by
    rcases mem_of_mem_commitSlots hx with ⟨y, hy, d, rfl⟩ | ⟨y, hy, rfl⟩ <;>
      exact ⟨h.slotShadow y hy, h.slotShadow y hy⟩
  exact
    { h with
      slotCount := (commitSlots_length _ _ _).trans h.slotCount
      reg := h.shadow
      slotShadow := fun x hx => (committed x hx).1
      slotReg := fun x hx => (committed x hx).2
      phase := rfl
      verdict := fun hp => absurd rfl hp }

theorem exec_run_inv (h : s.Inv) (hs : exec .run s = .next t) : t.Inv := by
  by_cases hp : s.phase = .idle
  · rcases exec_run_idle s hp with ⟨u, hu, e⟩ | ⟨c, -, e⟩ <;> cases e.symm.trans hs
    · exact h.of_commit hu
    · exact { h.raiseError c.code _ _ with phase := rfl, verdict := fun hp => absurd rfl hp }
  · cases (if_neg hp).symm.trans hs
    exact h.raiseError _ _ _

theorem exec_reset_inv (h : s.Inv) (hs : exec .reset s = .next t) : t.Inv := by
  cases hs
  exact { State.init_inv h.build with }

theorem execAll_ctrl_inv (h : s.Inv) {w : Word} (hs : execAll (decodeCtrl w) s = .next t) : t.Inv := by
  have noted : ∀ p, ({ s with pendAll := p } : State).Inv := fun _ => { h with }
  rcases execAll_ctrl s w with e | ⟨p, -, e | e⟩ <;> rw [e] at hs
  · exact exec_reset_inv h hs
  · cases hs
    exact noted p
  · exact exec_run_inv (noted p) hs

theorem execAll_sctl_inv (h : s.Inv) {i : Nat} {w : Word} (hs : execAll (decodeSctl i w) s = .next t) : t.Inv := by
  rcases execAll_sctl s i w with e | e <;> rw [e] at hs
  · cases hs
    exact h
  · simp only [exec, execSlotclr] at hs
    split at hs <;> cases hs
    · exact h.modifySlot i (fun _ hx => hx) fun _ => rfl
    · exact h.raiseError _ _ _

theorem writeGlobal_inv (h : s.Inv) {a : Addr} {r : GlobalReg} {w : Word} (hs : s.writeGlobal a r w = .next t) :
    t.Inv := by
  cases r
  case ctrl => exact execAll_ctrl_inv h hs
  all_goals cases hs
  case status => exact h.ackStatus w
  case sampleRate => exact h.writeSampleRate a w
  case format => exact h.writeFormat a w
  case bufferSize => exact h.writeBufferSize a w
  case chainLen => exact h.writeChainLen a w
  case intEn => exact { h with }
  all_goals exact h

theorem writeSlot_inv (h : s.Inv) {a : Addr} {i : Nat} {r : SlotReg} {w : Word} (hs : s.writeSlot a i r w = .next t) :
    t.Inv := by
  cases r
  case sctl => exact execAll_sctl_inv h hs
  all_goals cases hs
  case desc => exact h.writeDesc a i w
  case p0 => exact h.writeParam a i w fun _ hp hw => { hp with p0 := hw }
  case p1 => exact h.writeParam a i w fun _ hp hw => { hp with p1 := hw }
  case p2 => exact h.writeParam a i w fun _ hp hw => { hp with p2 := hw }
  all_goals exact h

theorem hostAccess_inv {x : HostOp} (h : s.Inv) (hs : hostAccess x s = .next t) : t.Inv := by
  cases x with
  | rd a size =>
    simp only [hostAccess] at hs
    split at hs <;> cases hs
    · exact { h.raiseError _ _ _ with }
    · exact { h with }
  | wait =>
    cases hs
    exact { h with }
  | wr a size w =>
    simp only [hostAccess] at hs
    split at hs
    · cases hs
      exact h.raiseError _ _ _
    · next target _ =>
      cases target with
      | global r => exact writeGlobal_inv h hs
      | slot i r => exact writeSlot_inv h hs
      | inRam i => cases hs; exact { h with }
      | outRam i => cases hs; exact h

/-! ### The engine -/

/-- A finished run leaves no verdict of refusal behind (R157, R158; log 10). -/
theorem State.Inv.finishCompleted (h : s.Inv) (hv : s.verdict = .accepted) : s.finishCompleted.Inv :=
  { h with phase := rfl, verdict := fun _ => hv }

theorem State.Inv.finishRefused (h : s.Inv) : s.finishRefused.Inv :=
  { h with phase := rfl, verdict := fun _ => rfl }

/-- The chain begins at slot 0 only where CHAIN_LEN is not 0 (R150, R164). -/
theorem State.Inv.startChain (h : s.Inv) (hv : s.verdict = .accepted) : s.startChain.Inv := by
  unfold State.startChain
  split
  · exact { h with phase := rfl, verdict := fun _ => hv }
  · next hne =>
    have hpos : 0 < s.reg.chainLen.toNat := Nat.pos_of_ne_zero fun e => hne (BitVec.eq_of_toNat_eq e)
    exact { h with phase := hpos, verdict := fun _ => hv }

theorem State.Inv.endCommit (h : s.Inv) : s.endCommit.Inv := by
  rcases s.endCommit_cases with ⟨-, e⟩ | ⟨hv, e⟩ <;> rw [e]
  · exact h.finishRefused
  · exact State.Inv.startChain { h with } hv

theorem State.Inv.slotPc_lt (h : s.Inv) (hp : s.phase = .process) : s.slotPc.toNat < s.reg.chainLen.toNat := by
  have hok := h.phase
  rwa [State.phaseOk, hp] at hok

/-- slot_pc advances to another slot of the chain, or leaves it (R32, R155). -/
theorem State.Inv.advanceSlot (h : s.Inv) (hp : s.phase = .process) : s.advanceSlot.Inv := by
  have hv : s.verdict = .accepted := h.verdict (by simp [hp])
  unfold State.advanceSlot
  split
  · next hlt =>
    have hnext : (s.slotPc + 1#8).toNat < s.reg.chainLen.toNat := by
      rw [BitVec.toNat_add]
      exact Nat.lt_of_le_of_lt (Nat.mod_le _ _) hlt
    exact { h with phase := by simpa only [State.phaseOk, hp] using hnext }
  · exact { h with phase := rfl, verdict := fun _ => hv }

theorem State.Inv.slotChange (h : s.Inv) (wb : Chan (List F32)) (ovf : Bool) (f : SlotState → SlotState) :
    (s.slotChange wb ovf f).Inv :=
  { h.modifySlot s.slotPc.toNat (f := fun x => { x with state := f x.state }) (fun _ hx => hx) fun _ => rfl with }

theorem engineStep_inv (h : s.Inv) (hs : engineStep s = .next t) : t.Inv := by
  rcases engineStep_cases s with ⟨-, e⟩ | ⟨-, e⟩ | ⟨hp, i, hi, e⟩ | ⟨hp, i, hi, e⟩ | ⟨f, e, -⟩
  · cases e.symm.trans hs
    exact h
  · cases e.symm.trans hs
    exact h.endCommit
  · obtain ⟨wb, ovf, f, hx, -⟩ := exec_desc s (decodeDesc_isDesc hi)
    cases (e.trans hx).symm.trans hs
    exact (h.slotChange wb ovf f).advanceSlot hp
  · obtain ⟨ws, u, hx, -⟩ := exec_format s hi
    cases (e.trans hx).symm.trans hs
    exact State.Inv.finishCompleted (s := s.storeOut ws u) { h with } (h.verdict (by simp [hp]))
  · cases e.symm.trans hs

end

/-- Settles O3: every access of the host and every action of the engine is made of updates that keep a state legal. -/
theorem stepKeepsLegality : Obligations.StepKeepsLegality :=
  step_induction (fun _ _ _ _ h => { h with }) (fun _ _ _ => hostAccess_inv) fun _ _ => engineStep_inv

section
variable {s : State}

/-! ### Every step answers -/

/-- No instruction stops on any path (R291, R297). -/
theorem exec_answers (i : Instr) (s : State) : ∃ t, exec i s = .next t := by
  cases i
  case run =>
    by_cases hp : s.phase = .idle
    · rcases exec_run_idle s hp with ⟨u, -, e⟩ | ⟨c, -, e⟩ <;> exact ⟨_, e⟩
    · exact ⟨_, if_neg hp⟩
  case slotclr slot =>
    simp only [exec, execSlotclr]
    split <;> exact ⟨_, rfl⟩
  all_goals exact ⟨_, rfl⟩

theorem execAll_answers (is : List Instr) (s : State) : ∃ t, execAll is s = .next t := by
  induction is generalizing s with
  | nil => exact ⟨s, rfl⟩
  | cons i is ih =>
    obtain ⟨u, hu⟩ := exec_answers i s
    simp only [execAll, hu]
    exact ih u

theorem writeTarget_answers (s : State) (a : Addr) (target : Target) (w : Word) :
    ∃ t, s.writeTarget a target w = .next t := by
  cases target with
  | global r =>
    cases r
    case ctrl => exact execAll_answers _ s
    all_goals exact ⟨_, rfl⟩
  | slot i r =>
    cases r
    case sctl => exact execAll_answers _ s
    all_goals exact ⟨_, rfl⟩
  | inRam i => exact ⟨_, rfl⟩
  | outRam i => exact ⟨_, rfl⟩

theorem hostAccess_answers (x : HostOp) (s : State) : ∃ t, hostAccess x s = .next t := by
  cases x with
  | rd a size => simp only [hostAccess]; split <;> exact ⟨_, rfl⟩
  | wait => exact ⟨_, rfl⟩
  | wr a size w =>
    simp only [hostAccess]
    split
    · exact ⟨_, rfl⟩
    · exact writeTarget_answers s a _ w

/-- While a slot is applied, slot_pc names one of the block's slots (R32). -/
theorem State.Inv.current_mem (h : s.Inv) (hp : s.phase = .process) : s.current ∈ s.slots := by
  have hlt : s.slotPc.toNat < s.slots.length := by
    rw [h.slotCount]
    exact Nat.lt_of_lt_of_le (h.slotPc_lt hp) h.reg.chainLen
  rw [State.current, State.slot_eq_getElem hlt]
  exact List.getElem_mem hlt

/-- The engine stops on no committed word, since each is legal (R130). -/
theorem engineStep_answers (h : s.Inv) : ∃ t, engineStep s = .next t := by
  rcases engineStep_cases s with ⟨-, e⟩ | ⟨-, e⟩ | ⟨-, i, -, e⟩ | ⟨-, i, -, e⟩ | ⟨f, -, ⟨hp, hd⟩ | ⟨-, c, hf⟩⟩
  · exact ⟨_, e⟩
  · exact ⟨_, e⟩
  · rw [e]; exact exec_answers i s
  · rw [e]; exact exec_answers i s
  · cases hd.symm.trans (h.slotReg _ (h.current_mem hp)).desc
  · obtain ⟨i, hi⟩ := decodeFormat_of_legal h.reg.format
    cases hf.symm.trans hi

end

/-- Settles O8: a step is an access, which always answers, or an engine action on legal committed words. -/
theorem legalStepAnswers : Obligations.LegalStepAnswers := by
  intro s h
  unfold step
  rcases cycle_cases s with ⟨-, e⟩ | ⟨x, rest, -, -, e⟩ | ⟨rest, -, -, e⟩ | ⟨x, rest, -, -, -, -, e⟩ |
    ⟨x, rest, -, -, -, -, e⟩ <;> rw [e]
  · exact engineStep_answers h
  · exact hostAccess_answers x _
  · exact engineStep_answers h
  · exact engineStep_answers (h.setQueue _ _)
  · exact hostAccess_answers x _

end Sys2Proof.Machine

/-! PROOFS. Decoding: the fields of a word and the words each decoder accepts (spec/30_encoding.md R121, R127-R131). -/

namespace Sys2Proof

section
variable {w m : Word}

/-! ### Fields -/

theorem field_and (v w : Word) (lo n : Nat) : field (v &&& w) lo n = field v lo n &&& field w lo n := by
  simp only [field, BitVec.toNat_and, Nat.and_div_two_pow, Nat.and_mod_two_pow]

/-- Where no bit outside a mask is set, every field outside it is 0. -/
theorem field_eq_zero_of_mask (h : w &&& ~~~m = 0#32) {lo n : Nat} (hm : field m lo n = 0) : field w lo n = 0 := by
  have hw : w &&& m = w := by
    apply BitVec.eq_of_getLsbD_eq
    intro k hk
    simpa [hk] using congrArg (·.getLsbD k) h
  rw [← hw, field_and, hm, Nat.and_zero]

theorem toNat_getLsbD_eq_field (w : Word) (k : Nat) : (w.getLsbD k).toNat = field w k 1 := Nat.toNat_testBit _ _

/-- FORMAT[7:0] is what a mask of the low byte leaves. -/
theorem and_low_byte_eq_iff {k : Nat} (hk : k < 2 ^ 8) : w &&& 0xFF#32 = BitVec.ofNat 32 k ↔ fmtDepth w = k := by
  have hmask : (w &&& 0xFF#32).toNat = fmtDepth w := by
    rw [fmtDepth, field, pow_zero, Nat.div_one]
    exact (BitVec.toNat_and w 0xFF#32).trans (Nat.and_two_pow_sub_one_eq_mod w.toNat 8)
  rw [← BitVec.toNat_inj, hmask, BitVec.toNat_ofNat, Nat.mod_eq_of_lt (by omega)]

/-! ### DESC -/

/-- A filter's word is its opcode with FTYPE and SLOPE at their places (R121, R127). -/
theorem encode_filterOf {ftype : Nat} (h : ftype < 5) (slope : Bool) :
    encode (filterOf ftype slope) = (.desc, BitVec.ofNat 32 (5 + 16 * ftype + 128 * slope.toNat)) := by
  interval_cases ftype <;> cases slope <;> rfl

/-- A pitch shifter's word is its opcode with WARP at its place (R121, R127). -/
theorem encode_pitch (warp : Bool) :
    encode (if warp then .pitchWarp else .pitch) = (.desc, BitVec.ofNat 32 (7 + 256 * warp.toNat)) := by
  cases warp <;> rfl

/-- A word with no bit outside DESC[3:0] is its opcode. -/
theorem eq_of_descOpc {k : Nat} (hm : w &&& ~~~0x0000000F#32 = 0#32) (hk : descOpc w = k) : w = BitVec.ofNat 32 k := by
  have hhigh : field w 4 28 = 0 := field_eq_zero_of_mask hm rfl
  apply BitVec.eq_of_toNat_eq
  simp only [descOpc, field, BitVec.toNat_ofNat] at *
  omega

theorem eq_of_descOpc_filter (hm : w &&& ~~~0x000000FF#32 = 0#32) (hk : descOpc w = 5) :
    w = BitVec.ofNat 32 (5 + 16 * descFtype w + 128 * (descSlope w).toNat) := by
  have hhigh : field w 8 24 = 0 := field_eq_zero_of_mask hm rfl
  rw [descSlope, toNat_getLsbD_eq_field]
  apply BitVec.eq_of_toNat_eq
  simp only [descOpc, descFtype, field, BitVec.toNat_ofNat] at *
  omega

theorem eq_of_descOpc_pitch (hm : w &&& ~~~0x0000010F#32 = 0#32) (hk : descOpc w = 7) :
    w = BitVec.ofNat 32 (7 + 256 * (descWarp w).toNat) := by
  have hmid : field w 4 4 = 0 := field_eq_zero_of_mask hm rfl
  have hhigh : field w 9 23 = 0 := field_eq_zero_of_mask hm rfl
  rw [descWarp, toNat_getLsbD_eq_field]
  apply BitVec.eq_of_toNat_eq
  simp only [descOpc, field, BitVec.toNat_ofNat] at *
  omega

/-- A bit outside the opcode's legal mask, or FTYPE 5 to 7: what E_DESC_FIELD rejects (R122). -/
abbrev IllegalDescField (w : Word) : Prop :=
  w &&& ~~~descLegalMask (descOpc w) ≠ 0#32 ∨ descOpc w = 5 ∧ 5 ≤ descFtype w

/-- A DESC word that passes both checks is the word of the instruction it decodes to: opcodes other than FILTER and
PITCH use DESC[3:0] alone (R121, R127). -/
theorem decodeDesc_of_legal (hopc : descOpc w < 8) (hlegal : ¬ IllegalDescField w) :
    ∃ i, decodeDesc w = .ok i ∧ encode i = (.desc, w) := by
  obtain ⟨hm, hf⟩ := not_or.mp hlegal
  rw [ne_eq, not_not] at hm
  rw [decodeDesc, if_neg (Nat.not_le_of_lt hopc), if_neg hlegal]
  split <;> refine ⟨_, rfl, ?_⟩
  case h_6 hk =>
    have hft : descFtype w < 5 := Nat.lt_of_not_le fun hge => hf ⟨hk, hge⟩
    rw [hk] at hm
    rw [encode_filterOf hft, ← eq_of_descOpc_filter hm hk]
  case h_8 =>
    simp only [imp_false] at *
    have hk : descOpc w = 7 := by omega
    rw [hk] at hm
    rw [encode_pitch, ← eq_of_descOpc_pitch hm hk]
  all_goals
    next hk =>
      rw [hk] at hm
      rw [eq_of_descOpc hm hk]
      rfl

/-- What decoding a DESC word gives, by the checks of R122 in their order. -/
theorem decodeDesc_cases (w : Word) :
    8 ≤ descOpc w ∧ decodeDesc w = .error .descOpc
      ∨ descOpc w < 8 ∧ IllegalDescField w ∧ decodeDesc w = .error .descField
      ∨ descOpc w < 8 ∧ ¬ IllegalDescField w ∧ ∃ i, decodeDesc w = .ok i ∧ encode i = (.desc, w) := by
  by_cases hopc : 8 ≤ descOpc w
  · exact .inl ⟨hopc, if_pos hopc⟩
  · have hlt := Nat.lt_of_not_le hopc
    by_cases hfield : IllegalDescField w
    · exact .inr (.inl ⟨hlt, hfield, (if_neg hopc).trans (if_pos hfield)⟩)
    · exact .inr (.inr ⟨hlt, hfield, decodeDesc_of_legal hlt hfield⟩)

theorem encode_of_decodeDesc {i : Instr} (h : decodeDesc w = .ok i) : encode i = (.desc, w) := by
  rcases decodeDesc_cases w with ⟨-, e⟩ | ⟨-, -, e⟩ | ⟨-, -, j, e, hj⟩ <;> cases e.symm.trans h
  exact hj

/-! ### FORMAT -/

theorem decodeFormat_eq_ok_iff {i : Instr} :
    decodeFormat w = .ok i ↔
      fmtDepth w = 16 ∧ i = .conv16 ∨ fmtDepth w = 32 ∧ i = .conv32 ∨ fmtDepth w = 64 ∧ i = .convsil := by
  unfold decodeFormat
  split
  · next h => simp [h, eq_comm]
  · split
    · next h => simp [h, eq_comm]
    · split
      · next h => simp [h, eq_comm]
      · simp [*]

theorem checkFormat_eq_none_iff :
    checkFormat w = none ↔ field w 12 20 = 0 ∧ fmtDepth w ∈ [16, 32, 64] ∧ fmtChannels w ∈ [1, 2] := by
  unfold checkFormat
  split
  · next h => simp [h]
  · next hr =>
    split
    · next hd => simp [hd]
    · next hd =>
      split
      · next hc => simp [hc]
      · next hc =>
        simp only [List.mem_cons, List.not_mem_nil, or_false, true_iff]
        omega

/-- An accepted FORMAT word is its CHANNELS and its BIT_DEPTH (R49, R126). -/
theorem eq_of_checkFormat (h : field w 12 20 = 0) : w = BitVec.ofNat 32 (256 * fmtChannels w + fmtDepth w) := by
  apply BitVec.eq_of_toNat_eq
  simp only [fmtDepth, fmtChannels, field, BitVec.toNat_ofNat] at *
  omega

/-! ### CTRL and SCTL -/

/-- A mask of one bit leaves it exactly where it is set. -/
theorem and_twoPow_eq_iff {k : Nat} (hk : k < 32) :
    w &&& BitVec.twoPow 32 k = BitVec.twoPow 32 k ↔ w.getLsbD k = true := by
  constructor
  · intro h
    simpa [hk] using congrArg (·.getLsbD k) h
  · intro h
    rw [BitVec.and_twoPow, if_pos h]

/-- A mask of two bits leaves one of them alone exactly where it is set and the other is not. -/
theorem and_twoPow_or_eq_iff {j k : Nat} (hj : j < 32) (hk : k < 32) (hjk : j ≠ k) :
    w &&& (BitVec.twoPow 32 j ||| BitVec.twoPow 32 k) = BitVec.twoPow 32 j
      ↔ w.getLsbD k = false ∧ w.getLsbD j = true := by
  constructor
  · intro h
    have bit : ∀ n, (w &&& (BitVec.twoPow 32 j ||| BitVec.twoPow 32 k)).getLsbD n = (BitVec.twoPow 32 j).getLsbD n :=
      fun n => congrArg (·.getLsbD n) h
    exact ⟨by simpa [hk, hjk.symm] using bit k, by simpa [hj] using bit j⟩
  · rintro ⟨h0, h1⟩
    simp [BitVec.and_or_distrib_left, BitVec.and_twoPow, h0, h1]

/-- SOFT_RESET discards the other commands of its word (R161). -/
theorem mem_decodeCtrl_iff {i : Instr} :
    i ∈ decodeCtrl w ↔
      w.getLsbD 2 = true ∧ i = .reset
        ∨ w.getLsbD 2 = false ∧ (w.getLsbD 1 = true ∧ i = .stateclear ∨ w.getLsbD 0 = true ∧ i = .run) := by
  unfold decodeCtrl
  cases w.getLsbD 2 <;> cases w.getLsbD 1 <;> cases w.getLsbD 0 <;> simp

theorem mem_decodeSctl_iff {i : Instr} {slot : Nat} :
    i ∈ decodeSctl slot w ↔ w.getLsbD 0 = true ∧ i = .slotclr slot := by
  unfold decodeSctl
  cases w.getLsbD 0 <;> simp

/-! ### Encoding and decoding back -/

theorem decode_encode (i : Instr) : decode (encode i).1 (encode i).2 = .ok [i] := by
  cases i
  case slotclr slot => simp [encode, decode, decodeSctl]
  all_goals rfl

theorem decodeDesc_of_encode {i : Instr} (h : encode i = (.desc, w)) : decodeDesc w = .ok i := by
  have hd := decode_encode i
  rw [h] at hd
  simp only [decode] at hd
  cases hw : decodeDesc w with
  | ok j => rw [hw] at hd; cases hd; rfl
  | error e => rw [hw] at hd; cases hd

end

/-- Settles O10: row by row. -/
theorem decodeOfEncode : Obligations.DecodeOfEncode := fun i _ => decode_encode i

/-- Settles O11: each word by the fields its decoder reads. -/
theorem wordsOfEachRow : Obligations.WordsOfEachRow := by
  refine ⟨fun w i => ⟨encode_of_decodeDesc, decodeDesc_of_encode⟩, fun w => ?conv16, fun w => ?conv32, fun w => ?convsil,
    fun w => ?reset, fun w => ?stateclear, fun w => ?run, fun w i j => ?slotclr⟩
  case conv16 => simp [decodeFormat_eq_ok_iff, and_low_byte_eq_iff (w := w) (k := 16) (by decide)]
  case conv32 => simp [decodeFormat_eq_ok_iff, and_low_byte_eq_iff (w := w) (k := 32) (by decide)]
  case convsil => simp [decodeFormat_eq_ok_iff, and_low_byte_eq_iff (w := w) (k := 64) (by decide)]
  case reset =>
    have hmask : w &&& 4#32 = 4#32 ↔ _ := and_twoPow_eq_iff (k := 2) (by decide)
    simp [mem_decodeCtrl_iff, hmask]
  case stateclear =>
    have hmask : w &&& 6#32 = 2#32 ↔ _ := and_twoPow_or_eq_iff (j := 1) (k := 2) (by decide) (by decide) (by decide)
    simp [mem_decodeCtrl_iff, hmask]
  case run =>
    have hmask : w &&& 5#32 = 1#32 ↔ _ := and_twoPow_or_eq_iff (j := 0) (k := 2) (by decide) (by decide) (by decide)
    simp [mem_decodeCtrl_iff, hmask]
  case slotclr =>
    have hmask : w &&& 1#32 = 1#32 ↔ _ := and_twoPow_eq_iff (k := 0) (by decide)
    simp [mem_decodeSctl_iff, hmask, and_comm]

/-- Settles O12: a DESC word that decodes is its row's word, and the fields of an accepted FORMAT word are its two
fields' legal values. -/
theorem decodingIsTotal : Obligations.DecodingIsTotal := by
  constructor
  · intro w
    rcases decodeDesc_cases w with ⟨-, e⟩ | ⟨-, -, e⟩ | ⟨-, -, hrow⟩
    · exact .inr (.inl e)
    · exact .inr (.inr e)
    · exact .inl hrow
  · intro w
    constructor
    · intro h
      obtain ⟨hr, hd, hc⟩ := checkFormat_eq_none_iff.mp h
      rw [eq_of_checkFormat hr]
      simp only [List.mem_cons, List.not_mem_nil, or_false] at hd hc
      rcases hd with hd | hd | hd <;> rcases hc with hc | hc <;> rw [hd, hc] <;> decide
    · have accepted : ∀ v ∈ [0x110#32, 0x120#32, 0x140#32, 0x210#32, 0x220#32, 0x240#32], checkFormat v = none := by
        simp only [List.forall_mem_cons]
        exact ⟨rfl, rfl, rfl, rfl, rfl, rfl, List.forall_mem_nil _⟩
      exact accepted w

/-- Settles O13: the decoder evaluated on each word. -/
theorem writtenOutWords : Obligations.WrittenOutWords := by
  unfold Obligations.WrittenOutWords
  decide

end Sys2Proof

/-! PROOFS. The checked writes: DESC, the parameters and the four global registers (spec/30_encoding.md R122, R124,
R126). -/

namespace Sys2Proof.Machine

section
variable (s : State)

/-! ### The fields as numbers (R9) -/

theorem descOpc_eq (w : Word) : descOpc w = w.toNat % 16 := by simp [descOpc, field]

theorem descFtype_eq (w : Word) : descFtype w = w.toNat / 16 % 8 := rfl

theorem checkParam_eq (w : Word) :
    checkParam w = if w.toNat / 2 ^ 23 % 256 = 255 then some .paramNonfinite else none := rfl

theorem checkFormat_eq (w : Word) :
    checkFormat w =
      if w.toNat / 2 ^ 12 ≠ 0 then some .fmtRsvd
      else if w.toNat % 256 ∉ [16, 32, 64] then some .fmtDepth
      else if w.toNat / 256 % 16 ∉ [1, 2] then some .fmtChannels
      else none := by
  have hrsvd : field w 12 20 = w.toNat / 2 ^ 12 := Nat.mod_eq_of_lt (by omega)
  have hdepth : fmtDepth w = w.toNat % 256 := by simp [fmtDepth, field]
  have hchannels : fmtChannels w = w.toNat / 256 % 16 := rfl
  simp only [checkFormat, hrsvd, hdepth, hchannels, List.mem_cons, List.not_mem_nil, or_false, not_or, ne_eq]

/-! ### The writes -/

theorem State.writeParam_eq (a : Addr) (i : Nat) (w : Word) (put : SlotRegs → SlotRegs) :
    s.writeParam a i w put =
      if w.toNat / 2 ^ 23 % 256 = 255 then s.raiseError .paramNonfinite (BitVec.ofNat 8 i) a
      else s.modifySlot i fun x => { x with shadow := put x.shadow } := by
  rw [State.writeParam, checkParam_eq]
  split_ifs <;> rfl

theorem State.writeFormat_eq (a : Addr) (w : Word) :
    s.writeFormat a w =
      if w.toNat / 2 ^ 12 ≠ 0 then s.raiseError .fmtRsvd noSlot a
      else if w.toNat % 256 ∉ [16, 32, 64] then s.raiseError .fmtDepth noSlot a
      else if w.toNat / 256 % 16 ∉ [1, 2] then s.raiseError .fmtChannels noSlot a
      else { s with shadow := { s.shadow with format := w }, pendAll := true } := by
  rw [State.writeFormat, checkFormat_eq]
  split_ifs <;> rfl

end

/-- Settles O14: a write of DESC decodes the word, and is rejected as the decoder rejects it. -/
theorem descWrite : Obligations.DescWrite := by
  intro s i w h64 hi
  refine (hostAccess_wr_slot s (o := 0) .desc w h64 hi rfl).trans ?_
  simp only [State.writeSlot, State.writeDesc]
  rw [← descFtype_eq w, ← descOpc_eq w]
  rcases decodeDesc_cases w with ⟨hopc, e⟩ | ⟨hlt, hfield, e⟩ | ⟨hlt, hlegal, j, e, -⟩ <;> rw [e]
  · exact (if_pos hopc).symm
  · exact ((if_neg (Nat.not_le_of_lt hlt)).trans (if_pos hfield)).symm
  · exact ((if_neg (Nat.not_le_of_lt hlt)).trans (if_neg hlegal)).symm

/-- Settles O15: the three offsets name registers that are written alike. -/
theorem paramWrite : Obligations.ParamWrite := by
  intro s i w h64 hi
  have param {o : Nat} (r : SlotReg) {put : SlotRegs → SlotRegs} (h : slotRegAt o = some r)
      (hw : ∀ a, s.writeSlot a i r w = .next (s.writeParam a i w put)) :=
    (hostAccess_wr_slot s r w h64 hi h).trans
      ((hw _).trans ((congrArg _ (s.writeParam_eq _ i w put)).trans (apply_ite _ _ _ _)))
  simp only [List.forall_mem_cons]
  exact ⟨param .p0 rfl fun _ => rfl, param .p1 rfl fun _ => rfl, param .p2 rfl fun _ => rfl, List.forall_mem_nil _⟩

/-- Settles O16: each address names its register, whose write makes the register's checks. -/
theorem globalWriteChecks : Obligations.GlobalWriteChecks := by
  intro s w
  refine ⟨(hostAccess_wr_global s .sampleRate w rfl).trans (apply_ite _ _ _ _), ?format,
    (hostAccess_wr_global s .bufferSize w rfl).trans (apply_ite _ _ _ _),
    (hostAccess_wr_global s .chainLen w rfl).trans (apply_ite _ _ _ _)⟩
  rw [hostAccess_wr_global s .format w rfl, State.writeGlobal, State.writeFormat_eq]
  simp only [apply_ite Host.Outcome.next]
  rfl

end Sys2Proof.Machine

/-! PROOFS. The host's commands: a CTRL word's bits in their order, a RUN while BUSY, and the pending clears
(spec/40_sequencer.md R151, R160-R162). -/

namespace Sys2Proof.Machine

section
variable (s : State)

/-! ### The commands of a CTRL word -/

theorem hostAccess_wr_ctrl (w : Word) : hostAccess (.wr 0x00040#20 4 w) s = execAll (decodeCtrl w) s :=
  hostAccess_wr_global s .ctrl w rfl

theorem hostAccess_wr_ctrl_reset {w : Word} (h2 : w.getLsbD 2 = true) :
    hostAccess (.wr 0x00040#20 4 w) s = exec .reset s := by
  rw [hostAccess_wr_ctrl, decodeCtrl, if_pos h2, execAll_one]

/-- Without SOFT_RESET, a CTRL word's STATE_CLEAR sets pend_all, and then its RUN runs (R161). -/
theorem hostAccess_wr_ctrl_of_no_reset {w : Word} (h2 : w.getLsbD 2 = false) :
    hostAccess (.wr 0x00040#20 4 w) s =
      if w.getLsbD 0 then exec .run { s with pendAll := s.pendAll || w.getLsbD 1 }
      else .next { s with pendAll := s.pendAll || w.getLsbD 1 } := by
  rw [hostAccess_wr_ctrl]
  unfold decodeCtrl
  rw [h2]
  cases w.getLsbD 1 <;> cases w.getLsbD 0 <;> simp only [Bool.or_false, Bool.or_true]
  · rfl
  · exact execAll_one .run s
  · rfl
  · exact execAll_one .run _

theorem exec_run_busy (h : s.phase ≠ .idle) : exec .run s = .next (s.raiseError .runBusy noSlot ctrlAddr) := if_neg h

end

/-- Settles O26: the word's STATE_CLEAR sets pend_all, and its RUN finds the block busy. -/
theorem runWhileBusy : Obligations.RunWhileBusy := by
  intro s w hp h0 h2
  rw [hostAccess_wr_ctrl_of_no_reset s h2, if_pos h0]
  exact exec_run_busy _ hp

/-- Settles O32: SOFT_RESET acts alone; without it, STATE_CLEAR's flag is what RUN finds. -/
theorem commandBitOrder : Obligations.CommandBitOrder := by
  refine fun s w => ⟨hostAccess_wr_ctrl_reset s, fun h2 h1 h0 => ⟨_, rfl, ?both⟩, fun h2 h1 h0 => ?clear,
    fun h2 h1 h0 => ?run, fun h2 h1 h0 => ?none⟩
  all_goals rw [hostAccess_wr_ctrl_of_no_reset s h2, h1, h0]
  case both | clear => rw [Bool.or_true]; rfl
  case run | none => rw [Bool.or_false]; rfl

/-- Settles O33: each command sets its one flag. -/
theorem pendingClearsSet : Obligations.PendingClearsSet :=
  ⟨fun _ => rfl, fun s _ hb hn => ⟨s.setPend _, if_pos hb, rfl, List.length_modify _ _ _,
    s.slot_modifySlot_same _ hn, fun _ => s.slot_modifySlot_other _⟩⟩

end Sys2Proof.Machine

/-! PROOFS. Which action a step is: the engine's, or the host's next access (spec/40_sequencer.md R150, R152, R155,
spec/20_memory.md R102, spec/70_reset_and_hazards.md R322). -/

namespace Sys2Proof.Machine

section
variable {s : State}

/-- The host lets a busy engine move: it has nothing pending, or only waits. -/
theorem step_eq_engineStep (hq : s.hostQueue = [] ∨ s.hostQueue.head? = some .wait) (hp : s.phase ≠ .idle) :
    step s = engineStep s := by
  unfold step cycle
  cases hs : s.hostQueue with
  | nil => rfl
  | cons x rest =>
    have hx : x = .wait := by simpa [hs] using hq
    simp only [if_neg hp, if_pos hx]

theorem step_eq_hostAccess_of_idle {x : HostOp} {rest : List HostOp} (hq : s.hostQueue = x :: rest)
    (hp : s.phase = .idle) : step s = hostAccess x { s with hostQueue := rest } := by
  simp only [step, cycle, hq, if_pos hp]

theorem step_eq_drawn {x : HostOp} {rest : List HostOp} (hq : s.hostQueue = x :: rest) (hp : s.phase ≠ .idle)
    (hx : x ≠ .wait) :
    step s = if Config.engineFirst s.draws then engineStep { s with draws := s.draws + 1 }
      else hostAccess x { s with hostQueue := rest, draws := s.draws + 1 } := by
  simp only [step, cycle, hq, if_neg hp, if_neg hx]

theorem engineStep_process {i : Instr} (hp : s.phase = .process) (hd : decodeDesc s.current.reg.desc = .ok i) :
    engineStep s = exec i s := by
  simp only [engineStep, hp, hd]

theorem engineStep_convert {i : Instr} (hp : s.phase = .convert) (hd : decodeFormat s.reg.format = .ok i) :
    engineStep s = exec i s := by
  simp only [engineStep, hp, hd]

theorem step_of_idle_empty (hq : s.hostQueue = []) (hp : s.phase = .idle) : step s = .next s := by
  simp only [step, cycle, hq, engineStep, hp]

/-- A 1 written to SLOT_STATE_CLR of slot n runs its command (R129, R162). -/
theorem hostAccess_wr_sctl {n : Nat} (h64 : s.build.nSlots ≤ 64) (hn : n < s.build.nSlots) :
    hostAccess (.wr (BitVec.ofNat 20 (0x1030 + 0x40 * n)) 4 1#32) s = exec (.slotclr n) s := by
  rw [show 0x1030 + 0x40 * n = 0x1000 + 0x40 * n + 0x30 by omega, hostAccess_wr_slot s .sctl _ h64 hn rfl]
  exact execAll_one _ _

end

/-- Settles O31: clause by clause, which agent moves and what it runs. -/
theorem stepRunsDecoded : Obligations.StepRunsDecoded := by
  refine ⟨fun s i hq hp hd => ?process, fun s i hq hp hd => ?convert, fun s x rest => step_eq_hostAccess_of_idle,
    fun s => step_eq_engineStep, fun s x rest => step_eq_drawn, fun s w i hw => ?ctrl,
    fun s n hn h64 => hostAccess_wr_sctl h64 hn, fun s => step_of_idle_empty⟩
  case process => exact (step_eq_engineStep hq (by simp [hp])).trans (engineStep_process hp hd)
  case convert => exact (step_eq_engineStep hq (by simp [hp])).trans (engineStep_convert hp hd)
  case ctrl => rw [hostAccess_wr_ctrl, hw, execAll_one]

end Sys2Proof.Machine

/-! PROOFS. The commit of a RUN, the end of a refused run, and the load of the input (spec/40_sequencer.md R150, R153,
R154, R158). -/

namespace Sys2Proof.Machine

section
variable {s t : State}

/-! ### The commit's two outcomes -/

/-- A RUN of an idle block all of whose active slots derive (R150, R153). -/
theorem exec_run_of_derived {ds : List Derived} (hp : s.phase = .idle)
    (hd : deriveSlots s.build s.shadow 0 (s.slots.take s.shadow.chainLen.toNat) = .ok ds) :
    exec .run s = .next { s with
      reg := s.shadow, slots := commitSlots s.pendAll ds s.slots, pendAll := false
      phase := .commit, slotPc := 0xFE#8, verdict := .accepted } := by
  simp only [exec, execRun, if_pos hp, State.commit, hd]

/-- A RUN of an idle block one of whose active slots fails (R153). -/
theorem exec_run_of_not_derived {e : CommitError} (hp : s.phase = .idle)
    (hd : deriveSlots s.build s.shadow 0 (s.slots.take s.shadow.chainLen.toNat) = .error e) :
    exec .run s = .next (s.refuseRun e) := by
  simp only [exec, execRun, if_pos hp, State.commit, hd]

/-- The slots below CHAIN_LEN, by index. -/
theorem State.getElem_take_slots (s : State) {n i : Nat} (hi : i < (s.slots.take n).length) :
    (s.slots.take n)[i] = s.slot i := by
  rw [List.length_take] at hi
  rw [List.getElem_take, State.slot_eq_getElem (by omega)]

/-- Where every slot below CHAIN_LEN derives, the commit has one derivation for each (R153). -/
theorem deriveSlots_active {d : Nat → Derived} (hl : s.shadow.chainLen.toNat ≤ s.slots.length)
    (h : ∀ i, i < s.shadow.chainLen.toNat → deriveSlot s.build (s.slot i).shadow s.shadow = .ok (d i)) :
    deriveSlots s.build s.shadow 0 (s.slots.take s.shadow.chainLen.toNat) =
      .ok ((List.range s.shadow.chainLen.toNat).map d) := by
  have hlen := List.length_take_of_le hl
  rw [deriveSlots_of_forall fun i hi => by rw [s.getElem_take_slots hi]; exact h i (hlen ▸ hi), hlen]

/-- The first slot below CHAIN_LEN that does not derive is the one the commit refuses with (R153, R294). -/
theorem deriveSlots_refused {i : Nat} {code : ErrCode} (hi : i < s.shadow.chainLen.toNat) (hl : i < s.slots.length)
    (hok : ∀ j, j < i → ∃ d, deriveSlot s.build (s.slot j).shadow s.shadow = .ok d)
    (hfail : deriveSlot s.build (s.slot i).shadow s.shadow = .error code) :
    deriveSlots s.build s.shadow 0 (s.slots.take s.shadow.chainLen.toNat) = .error ⟨code, i⟩ := by
  have hlen : i < (s.slots.take s.shadow.chainLen.toNat).length := by simp [hi, hl]
  rw [deriveSlots_first_error hlen (fun j hj hji => by rw [s.getElem_take_slots hj]; exact hok j hji)
    (by rw [s.getElem_take_slots hlen]; exact hfail), Nat.zero_add]

/-! ### The end of the COMMIT phase -/

theorem engineStep_commit (hp : s.phase = .commit) : engineStep s = .next s.endCommit := by
  simp only [engineStep, hp]

theorem engineStep_refused (hp : s.phase = .commit) (hv : s.verdict = .refused) :
    engineStep s = .next s.finishRefused := by
  rw [engineStep_commit hp, State.endCommit, if_pos hv]

theorem engineStep_accepted (hp : s.phase = .commit) (hv : s.verdict = .accepted) :
    engineStep s = .next s.loadInput.startChain := by
  rw [engineStep_commit hp, State.endCommit, if_neg (by simp [hv])]

end

/-! ### STATUS at a RUN -/

/-- The stored bits of STATUS at their places (R45). -/
def Status.flagBits (x : Status) : Word :=
  bitAt x.done 1 ||| bitAt x.err 2 ||| bitAt x.refused 3 ||| bitAt x.fmtUnsup 4 ||| bitAt x.psOvf 5

theorem Status.flagBits_set_err (x : Status) : { x with err := true }.flagBits = x.flagBits ||| 0x4#32 := by
  have habs : bitAt true 2 = bitAt x.err 2 ||| 0x4#32 := by cases x.err <;> rfl
  simp only [Status.flagBits, habs]
  ac_rfl

theorem State.statusWord_of_idle {s : State} (hp : s.phase = .idle) : s.statusWord = s.status.flagBits := by
  simp [State.statusWord, Status.flagBits, State.curSlot, State.busy_of_idle hp, bitAt]

/-- A block in its COMMIT phase reads BUSY = 1 and CUR_SLOT = 0xFE (R45, R150). -/
theorem State.statusWord_of_commit {s : State} (hp : s.phase = .commit) (hpc : s.slotPc = 0xFE#8) :
    s.statusWord = s.status.flagBits ||| 0x0000FE01#32 := by
  have hbusy : s.busy = true := s.busy_iff.mpr (by simp [hp])
  have hsplit : 0x0000FE01#32 = bitAt true 0 ||| (0xFE#8).setWidth 32 <<< 8 := rfl
  simp only [State.statusWord, State.curSlot, hbusy, hpc, if_true, Status.flagBits, hsplit]
  ac_rfl

/-! ### The input -/

/-- A channel of the loaded buffer: IN's samples if it is active, else as before (R94, R154, R159). -/
theorem State.get_wb_loadInput (s : State) {c : Nat} (hc : c < 2) :
    s.loadInput.wb.get c = if c < s.reg.channels then s.loadLane c else s.wb.get c := by
  interval_cases c <;> rfl

theorem State.sample_loadInput (s : State) {f c : Nat} (hc : c < 2) (hch : c < s.reg.channels)
    (hf : f < s.reg.frames) : s.loadInput.sample f c = s.inWord (f * s.reg.channels + c) := by
  simp [State.sample, s.get_wb_loadInput hc, hch, State.loadLane, List.getD_eq_getElem?_getD, hf]

/-- The chain begins at slot 0, or at the converter where it is empty (R150, R164). -/
theorem State.startChain_eq (s : State) :
    s.startChain = { s with
      phase := if s.reg.chainLen = 0#32 then .convert else .process
      slotPc := if s.reg.chainLen = 0#32 then 0xFF#8 else 0#8 } := by
  unfold State.startChain
  split <;> rfl

/-! ### A slot after the commit -/

/-- What a commit makes of slot i: registers copied, E and K written if active, the clears acted on, and an active
DELAY's history resized (R69, R153, R214). -/
theorem slot_of_commit {s t : State} {n : Nat} {d : Nat → Derived}
    (ht : t.slots = commitSlots s.pendAll ((List.range n).map d) s.slots) {i : Nat} (hi : i < s.slots.length) :
    t.slot i = if i < n then (s.slot i).commitActive s.pendAll (d i) else (s.slot i).commitInactive s.pendAll := by
  rw [slot_of_commitSlots ht hi]
  by_cases h : i < n <;> simp [h]

/-- Settles O27: the derivations are one per active slot, and each slot is committed as active or inactive. -/
theorem commitTakesEffect : Obligations.CommitTakesEffect := by
  refine ⟨fun b p g i hi => by simp only [deriveSlot, hi], fun s d hp hl hd => ?_⟩
  refine ⟨_, exec_run_of_derived hp (deriveSlots_active hl hd), rfl, commitSlots_length _ _ _, fun i hi => ?_⟩
  rw [slot_of_commit rfl hi]
  by_cases hact : i < s.shadow.chainLen.toNat
  · simp [hact, Slot.commitActive, SlotState.resizeDelay, resizeHistory]
  · cases s.pendAll <;> simp [hact, Slot.commitInactive]

/-- Settles O28: the commit refuses with the first slot that fails, and the engine's step finishes the refused run. -/
theorem firstFailureRefuses : Obligations.FirstFailureRefuses := fun _ _ _ hp hi hl hok hfail =>
  ⟨_, exec_run_of_not_derived hp (deriveSlots_refused hi hl hok hfail), rfl, engineStep_refused rfl rfl⟩

/-- Settles O29: a RUN is a commit, refused or not; one engine step finishes a refused run and opens the RAMs. -/
theorem refusedRunEnds : Obligations.RefusedRunEnds := by
  refine ⟨fun s hp => ?run, fun s hp hv => ?ends⟩
  case run =>
    rcases exec_run_idle s hp with ⟨u, hu, e⟩ | ⟨c, -, e⟩
    · obtain ⟨ds, -, rfl⟩ := State.commit_ok hu
      refine ⟨_, e, ?_, fun _ => ⟨rfl, rfl⟩, rfl, rfl, rfl, rfl, rfl, rfl⟩
      rw [State.statusWord_of_commit rfl rfl, State.statusWord_of_idle hp]
      rfl
    · refine ⟨_, e, ?_, fun h => (by cases h), rfl, rfl, rfl, rfl, rfl, rfl⟩
      rw [State.statusWord_of_commit rfl rfl, State.statusWord_of_idle hp, State.refuseRun_status,
        Status.flagBits_set_err, BitVec.or_assoc]
      rfl
  case ends =>
    refine ⟨_, engineStep_refused hp hv, rfl, ?_, fun i hb hi => hostAccess_rd_out_of_idle _ hb rfl hi⟩
    simp only [State.getLsbD_statusWord]
    simp [State.busy]

/-- Settles O30: the end of an accepted commit loads each active channel and starts the chain. -/
theorem inputLoaded : Obligations.InputLoaded := by
  intro s hp hv
  refine ⟨_, engineStep_accepted hp hv, by rw [State.startChain_eq]; rfl, fun c hc => ?_⟩
  simp only [State.startChain_wb, State.sample]
  exact ⟨fun hch => ⟨s.loadInput_lane_length hch, fun f hf => s.sample_loadInput hc hch hf⟩,
    fun hch => by rw [s.get_wb_loadInput hc, if_neg (by omega)]⟩

end Sys2Proof.Machine

/-! PROOFS. Modules without state: what mapSamples does, and NOP as its identity (spec/40_sequencer.md R155, R156,
spec/43_drive.md R231, R236). -/

namespace Sys2Proof.Machine

/-- A module without state transforms every active channel's samples and does nothing else but advance (R231, R236). -/
theorem State.mapSamples_driveEffect (s : State) (g : F32 → F32) : DriveEffect g s (s.mapSamples g).advanceSlot where
  frame := s.mapSamples_frame g
  advance := (s.mapSamples g).advanceSlot_advanced
  inactive c hc hch := by
    rw [State.advanceSlot_wb, State.mapSamples_wb, Chan.get_mapActive _ _ _ _ hc, if_neg (by omega)]
  psOvf := by simp
  noState i := by simp [State.slot]
  count c hc := by
    rw [State.advanceSlot_wb, State.mapSamples_wb, Chan.get_mapActive _ _ _ _ hc]
    split <;> simp
  samples c hc hch f hf := by
    rw [State.sample_advanceSlot, State.sample_mapSamples s g f c hc hf, if_pos hch]

/-- Transforming no sample leaves the state as it is. -/
theorem State.mapSamples_id (s : State) : s.mapSamples (fun v => v) = s := by
  simp [State.mapSamples, Chan.mapActive]

/-- Settles O38: descriptor 0 is NOP's, and NOP transforms no sample. -/
theorem nopPasses : Obligations.NopPasses := by
  refine ⟨fun b p g hp => ?_, fun s => ⟨s.advanceSlot, rfl, ?_, s.advanceSlot_wb, s.advanceSlot_slots⟩⟩
  · have hd : decodeDesc p.desc = .ok .nop := by rw [hp]; rfl
    simp only [deriveSlot, hd]
    rfl
  · have h := s.mapSamples_driveEffect fun v => v
    rwa [State.mapSamples_id] at h

end Sys2Proof.Machine

/-! PROOFS. A module with state: what foldChannels does beside its lanes, and the biquad filters of one and two stages
on the current slot (spec/40_sequencer.md R155, R159, spec/41_filter.md R189-R194). -/

namespace Sys2Proof.Machine

section
variable {σ : Type} (s : State) (get : SlotState → Chan σ) (put : SlotState → Chan σ → SlotState)
  (step : σ → F32 → σ × F32)

/-- A module with state folds every active channel's lane, and does nothing else but advance (R155, R159). -/
theorem State.foldChannels_slotEffect : SlotEffect s (s.foldChannels get put step).advanceSlot where
  frame := s.foldChannels_frame get put step
  advance := (s.foldChannels get put step).advanceSlot_advanced
  inactive c hc hch := by
    rw [State.advanceSlot_wb, s.lane_foldChannels get put step c hc, if_neg (by omega)]

/-- The current slot's state after a module with state: `put` of lanes folded where the channel is active (R159). -/
theorem State.exists_lanes_foldChannels (h : s.slotPc.toNat < s.slots.length) :
    ∃ lanes : Chan σ, ((s.foldChannels get put step).advanceSlot.slot s.slotPc.toNat).state = put s.current.state lanes
      ∧ ∀ c, c < 2 → lanes.get c =
          if c < s.reg.channels then (foldLane step ((get s.current.state).get c) (s.wb.get c)).1
          else (get s.current.state).get c := by
  refine ⟨_, s.foldChannels_current_state get put step h, fun c hc => ?_⟩
  rw [Chan.get_fst, Chan.get_mapActive _ _ _ _ hc, Chan.get_zip]
  split <;> rfl

end

/-- Folding a filter of one or two stages over a lane is a FilterRun (R189). -/
theorem filter_fold {stages : Nat} (hn : stages = 1 ∨ stages = 2) (k : Derived) (h : FilterLane) (xs : List F32) :
    FilterRun stages k h xs (foldLane (filterStep stages k) h xs).2 (foldLane (filterStep stages k) h xs).1 := by
  rcases hn with rfl | rfl
  · rw [filterStep_one_fold]
    exact ⟨rfl, _, biquad_fold k h.stage0 xs, rfl⟩
  · rw [filterStep_two_fold]
    exact ⟨_, _, biquad_fold k h.stage0 xs, biquad_fold k h.stage1 _, rfl⟩

/-- filter_apply on a slot that exists runs the stages over each active channel's lane (R189). -/
theorem State.applyFilter_filterEffect (s : State) {stages : Nat} (hn : stages = 1 ∨ stages = 2)
    (h : s.slotPc.toNat < s.slots.length) : FilterEffect stages s (s.applyFilter stages).advanceSlot := by
  obtain ⟨lanes, hst, hl⟩ := s.exists_lanes_foldChannels (fun x => x.filter) (fun x lanes => { x with filter := lanes })
    (filterStep stages s.current.derived) h
  change ((s.applyFilter stages).advanceSlot.slot s.slotPc.toNat).state = _ at hst
  exact {
    toSlotEffect := s.foldChannels_slotEffect _ _ _
    psOvf := by rw [State.advanceSlot_status, State.applyFilter, State.foldChannels_status]
    delay := by rw [hst]
    pitch := by rw [hst]
    active := fun c hc hch => by
      rw [hst, hl c hc, if_pos hch, State.advanceSlot_wb, State.applyFilter, State.lane_foldChannels _ _ _ _ c hc,
        if_pos hch]
      exact filter_fold hn _ _ _
    idle := fun c hc hch => by rw [hst, hl c hc, if_neg (by omega)] }

/-- Settles O46: each of the five is filter_apply with one stage. -/
theorem oneStageFilters : Obligations.OneStageFilters := by
  intro s h i hi
  have he : exec i s = .next (s.applyFilter 1).advanceSlot := by fin_cases hi <;> rfl
  exact ⟨_, he, s.applyFilter_filterEffect (.inl rfl) h⟩

/-- Settles O47: each of the five is filter_apply with two stages. -/
theorem twoStageFilters : Obligations.TwoStageFilters := by
  intro s h i hi
  have he : exec i s = .next (s.applyFilter 2).advanceSlot := by fin_cases hi <;> rfl
  exact ⟨_, he, s.applyFilter_filterEffect (.inr rfl) h⟩

end Sys2Proof.Machine

/-! PROOFS. Enclosures with their ends in order and within bounds, and what each interval operation makes of them
(spec/00_scope.md R15). -/

namespace Sys2Proof.ExactReal

open Binary32 Machine

/-- An enclosure with its ends in order, both between two bounds. -/
structure Within (l h : ℚ) (x : Enclosure) : Prop where
  lower : l ≤ x.lo
  ordered : x.lo ≤ x.hi
  upper : x.hi ≤ h

variable {l h l' h' : ℚ} {x y : Enclosure}

theorem Within.mono (hx : Within l h x) (hl : l' ≤ l) (hh : h ≤ h') : Within l' h' x :=
  ⟨hl.trans hx.lower, hx.ordered, hx.upper.trans hh⟩

theorem Within.ends (hx : Within l h x) : ∀ u ∈ [x.lo, x.hi], l ≤ u ∧ u ≤ h := by
  simpa using ⟨⟨hx.lower, hx.ordered.trans hx.upper⟩, hx.lower.trans hx.ordered, hx.upper⟩

theorem within_point (r : ℚ) : Within r r (point r) := ⟨le_rfl, le_rfl, le_rfl⟩

theorem Within.add (hx : Within l h x) (hy : Within l' h' y) : Within (l + l') (h + h') (add x y) :=
  ⟨add_le_add hx.lower hy.lower, add_le_add hx.ordered hy.ordered, add_le_add hx.upper hy.upper⟩

theorem Within.neg (hx : Within l h x) : Within (-h) (-l) (neg x) :=
  ⟨neg_le_neg hx.upper, neg_le_neg hx.ordered, neg_le_neg hx.lower⟩

theorem Within.onePlus (hx : Within l h x) : Within (1 + l) (1 + h) (onePlus x) := (within_point 1).add hx

theorem Within.sub (hx : Within l h x) (hy : Within l' h' y) : Within (l - h') (h - l') (sub x y) := by
  rw [sub_eq_add_neg, sub_eq_add_neg]
  exact hx.add hy.neg

theorem Within.oneMinus (hx : Within l h x) : Within (1 - h) (1 - l) (oneMinus x) := (within_point 1).sub hx

/-- A product lies where its four corners do. -/
theorem within_mul (h : ∀ u ∈ [x.lo, x.hi], ∀ v ∈ [y.lo, y.hi], l ≤ u * v ∧ u * v ≤ h') : Within l h' (mul x y) where
  lower := by simp_all [mul]
  ordered := (min_le_left _ _).trans ((min_le_left _ _).trans ((le_max_left _ _).trans (le_max_left _ _)))
  upper := by simp_all [mul]

/-- A multiple by a factor that is not negative keeps the order of the ends. -/
theorem scale_of_nonneg {c : ℚ} (hc : 0 ≤ c) (hx : x.lo ≤ x.hi) : scale c x = ⟨c * x.lo, c * x.hi⟩ := by
  have h := mul_le_mul_of_nonneg_left hx hc
  simp [scale, mul, point, h]

/-- A multiple by a factor that is not positive turns the ends round. -/
theorem scale_of_nonpos {c : ℚ} (hc : c ≤ 0) (hx : x.lo ≤ x.hi) : scale c x = ⟨c * x.hi, c * x.lo⟩ := by
  have h := mul_le_mul_of_nonpos_left hx hc
  simp [scale, mul, point, h]

/-- Turning an enclosure round and scaling it is scaling it by the opposite factor. -/
theorem scale_neg {c : ℚ} (hc : 0 ≤ c) (hx : x.lo ≤ x.hi) : scale c (neg x) = scale (-c) x := by
  rw [scale_of_nonneg hc (x := neg x) (neg_le_neg hx), scale_of_nonpos (neg_nonpos.mpr hc) hx]
  simp [neg]

theorem Within.scale_of_nonneg {c : ℚ} (hx : Within l h x) (hc : 0 ≤ c) : Within (c * l) (c * h) (scale c x) := by
  rw [ExactReal.scale_of_nonneg hc hx.ordered]
  exact ⟨mul_le_mul_of_nonneg_left hx.lower hc, mul_le_mul_of_nonneg_left hx.ordered hc,
    mul_le_mul_of_nonneg_left hx.upper hc⟩

theorem Within.scale_of_nonpos {c : ℚ} (hx : Within l h x) (hc : c ≤ 0) : Within (c * h) (c * l) (scale c x) := by
  rw [ExactReal.scale_of_nonpos hc hx.ordered]
  exact ⟨mul_le_mul_of_nonpos_left hx.upper hc, mul_le_mul_of_nonpos_left hx.ordered hc,
    mul_le_mul_of_nonpos_left hx.lower hc⟩

/-- A product with a factor that is not negative. -/
theorem Within.mul_of_nonneg (hx : Within l h x) (hl : 0 ≤ l) (hy : Within l' h' y) (hl' : l' ≤ 0) (hh' : 0 ≤ h') :
    Within (h * l') (h * h') (mul x y) := by
  refine within_mul fun u hu v hv => ?_
  obtain ⟨hu0, hu1⟩ := hx.ends u hu
  obtain ⟨hv0, hv1⟩ := hy.ends v hv
  have h1 := mul_le_mul_of_nonneg_left hv0 (hl.trans hu0)
  have h2 := mul_le_mul_of_nonneg_left hv1 (hl.trans hu0)
  have h3 := mul_le_mul_of_nonpos_right hu1 hl'
  have h4 := mul_le_mul_of_nonneg_right hu1 hh'
  exact ⟨h3.trans h1, h2.trans h4⟩

theorem width_point_add (r : ℚ) (x : Enclosure) : (add (point r) x).hi - (add (point r) x).lo = x.hi - x.lo := by
  simp [add, point]

/-- A product of two narrow enclosures is narrow. -/
theorem width_mul {m ε : ℚ} (hx : Within (-m) m x) (hy : Within (-m) m y) (wx : x.hi - x.lo ≤ ε)
    (wy : y.hi - y.lo ≤ ε) : (mul x y).hi - (mul x y).lo ≤ 4 * m * ε := by
  have near {e : Enclosure} (he : Within (-m) m e) (we : e.hi - e.lo ≤ ε) (u : ℚ) (hu : u ∈ [e.lo, e.hi]) :
      |u| ≤ m ∧ |u - e.lo| ≤ ε := by
    have hself : Within e.lo e.hi e := ⟨le_rfl, he.ordered, le_rfl⟩
    obtain ⟨hlo, hhi⟩ := hself.ends u hu
    exact ⟨abs_le.mpr (he.ends u hu), abs_le.mpr ⟨by linarith, by linarith⟩⟩
  have corner : ∀ u ∈ [x.lo, x.hi], ∀ v ∈ [y.lo, y.hi],
      x.lo * y.lo - 2 * m * ε ≤ u * v ∧ u * v ≤ x.lo * y.lo + 2 * m * ε := by
    intro u hu v hv
    obtain ⟨hum, hux⟩ := near hx wx u hu
    obtain ⟨-, hvy⟩ := near hy wy v hv
    obtain ⟨hym, -⟩ := near hy wy y.lo (by simp)
    have hm : 0 ≤ m := (abs_nonneg u).trans hum
    have h1 : |u * (v - y.lo)| ≤ m * ε := abs_mul u _ ▸ mul_le_mul hum hvy (abs_nonneg _) hm
    have h2 : |y.lo * (u - x.lo)| ≤ m * ε := abs_mul y.lo _ ▸ mul_le_mul hym hux (abs_nonneg _) hm
    rw [abs_le] at h1 h2
    constructor <;> linarith
  obtain ⟨hl, -, hh⟩ := within_mul corner
  linarith

/-- A quotient of a small enclosure by one that is not near zero is far below the overflow threshold. -/
theorem isInf_round_divPos (hx : Within (-100) 100 x) (hy : Within (1 / 2) h y) :
    isInf (round (divPos x y)) = false := by
  have corner {u v : ℚ} (hu : |u| ≤ 100) (hv : 1 / 2 ≤ v) : |u / v| < 2 ^ 127 := by
    have hv0 : 0 < v := by linarith
    rw [abs_div, abs_of_pos hv0, div_lt_iff₀ hv0]
    linarith
  have hlo : |x.lo| ≤ 100 := abs_le.mpr (hx.ends x.lo (by simp))
  have hhi : |x.hi| ≤ 100 := abs_le.mpr (hx.ends x.hi (by simp))
  have hyh : 1 / 2 ≤ y.hi := hy.lower.trans hy.ordered
  apply isInf_round
  · exact min_rec' (p := fun r => |r| < 2 ^ 127) (corner hlo hy.lower) (corner hlo hyh)
  · exact max_rec' (p := fun r => |r| < 2 ^ 127) (corner hhi hy.lower) (corner hhi hyh)

end Sys2Proof.ExactReal

/-! PROOFS. The derivation of a filter: the cutoff check, the effective parameters, the five coefficients rounded once,
and their range (spec/41_filter.md R180-R188, R294). -/

namespace Sys2Proof.Machine

open Binary32 ExactReal

/-! ### The two outcomes of a derivation -/

/-- The cutoff check of R181. -/
def CutoffOk (p : SlotRegs) (fs : Nat) : Prop := 0 < real p.p0 ∧ real p.p0 < (fs : ℚ) / 2

/-- The raw coefficients of a slot's effective parameters (R180, R182-R187). -/
def slotCoefs (kind : FilterKind) (n : Nat) (b : Build) (p : SlotRegs) (fs : Nat) : RawCoefs :=
  rawCoefs kind n b.bpVariant p.p0 (max32 p.p1 one) p.p2 fs

/-- The five coefficients divided by a0 and rounded once, with the effective parameters (R180, R188). -/
def RawCoefs.derived (c : RawCoefs) (p : SlotRegs) : Derived :=
  ⟨p.p0, max32 p.p1 one, p.p2, round (divPos c.b0 c.a0), round (divPos c.b1 c.a0), round (divPos c.b2 c.a0),
    round (divPos c.a1 c.a0), round (divPos c.a2 c.a0)⟩

/-- The range check of R188: no coefficient is infinite. -/
def Derived.InRange (d : Derived) : Prop := ∀ k ∈ [d.k0, d.k1, d.k2, d.k3, d.k4], isInf k = false

variable {kind : FilterKind} {n : Nat} {b : Build} {p : SlotRegs} {g : GlobalRegs} {fs : Nat} {i : Instr}

theorem deriveFilter_of_not_cutoffOk (h : ¬ CutoffOk p fs) : deriveFilter kind n b p fs = .error .cutoff := by
  refine if_neg fun hc => h ⟨hc.1, ?_⟩
  linarith [hc.2]

theorem Derived.inRange_iff {d : Derived} :
    d.InRange ↔ ¬ (isInf d.k0 || isInf d.k1 || isInf d.k2 || isInf d.k3 || isInf d.k4) = true := by
  simp [Derived.InRange, and_assoc]

theorem deriveFilter_of_inRange (h : CutoffOk p fs) (hr : ((slotCoefs kind n b p fs).derived p).InRange) :
    deriveFilter kind n b p fs = .ok ((slotCoefs kind n b p fs).derived p) :=
  (if_pos ⟨h.1, by linarith [h.2]⟩).trans (if_neg (Derived.inRange_iff.mp hr))

theorem deriveFilter_of_not_inRange (h : CutoffOk p fs) (hr : ¬ ((slotCoefs kind n b p fs).derived p).InRange) :
    deriveFilter kind n b p fs = .error .coefRange :=
  (if_pos ⟨h.1, by linarith [h.2]⟩).trans (if_pos (not_not.mp (Derived.inRange_iff.not.mp hr)))

/-- A derivation that succeeds has a cutoff in range and gives the coefficients, none of them infinite (R181, R188). -/
theorem deriveFilter_eq_ok_iff {d : Derived} :
    deriveFilter kind n b p fs = .ok d ↔
      CutoffOk p fs ∧ d.InRange ∧ d = (slotCoefs kind n b p fs).derived p := by
  by_cases h : CutoffOk p fs
  · by_cases hr : ((slotCoefs kind n b p fs).derived p).InRange
    · rw [deriveFilter_of_inRange h hr, Except.ok.injEq]
      exact ⟨fun e => ⟨h, e ▸ hr, e.symm⟩, fun e => e.2.2.symm⟩
    · rw [deriveFilter_of_not_inRange h hr]
      exact ⟨fun e => (nomatch e), fun ⟨_, hd, e⟩ => absurd (e ▸ hd) hr⟩
  · rw [deriveFilter_of_not_cutoffOk h]
    exact ⟨fun e => (nomatch e), fun e => absurd e.1 h⟩

/-- A derivation fails on the cutoff first, and else on an infinite coefficient (R181, R188, R294). -/
theorem deriveFilter_eq_error_iff {e : ErrCode} :
    deriveFilter kind n b p fs = .error e ↔
      ¬ CutoffOk p fs ∧ e = .cutoff
        ∨ CutoffOk p fs ∧ ¬ ((slotCoefs kind n b p fs).derived p).InRange ∧ e = .coefRange := by
  by_cases h : CutoffOk p fs
  · by_cases hr : ((slotCoefs kind n b p fs).derived p).InRange
    · simp [deriveFilter_of_inRange h hr, h, hr]
    · simp [deriveFilter_of_not_inRange h hr, h, hr, eq_comm]
  · simp [deriveFilter_of_not_cutoffOk h, h, eq_comm]

/-! ### The ten filters -/

/-- The ten filters with the type and the number of stages of each (R121, R123). -/
def filterDesigns : List (Instr × FilterKind × Nat) :=
  [(.filterLpS12, .lp, 1), (.filterHpS12, .hp, 1), (.filterBpS12, .bp, 1), (.filterLsS12, .ls, 1),
    (.filterHsS12, .hs, 1), (.filterLpS24, .lp, 2), (.filterHpS24, .hp, 2), (.filterBpS24, .bp, 2),
    (.filterLsS24, .ls, 2), (.filterHsS24, .hs, 2)]

theorem derive_of_mem_filterDesigns {x : Instr × FilterKind × Nat} (h : x ∈ filterDesigns) :
    derive x.1 b p g = deriveFilter x.2.1 x.2.2 b p g.sampleRate.toNat := by
  fin_cases h <;> rfl

/-! ### The range of the pass filters' coefficients -/

/-- The six raw coefficients are small and a0 is not near zero. -/
structure RawCoefs.Small (c : RawCoefs) : Prop where
  b0 : Within (-100) 100 c.b0
  b1 : Within (-100) 100 c.b1
  b2 : Within (-100) 100 c.b2
  a0 : Within (1 / 2) 100 c.a0
  a1 : Within (-100) 100 c.a1
  a2 : Within (-100) 100 c.a2

theorem RawCoefs.Small.inRange {c : RawCoefs} (h : c.Small) : (c.derived p).InRange := by
  simp only [Derived.InRange, RawCoefs.derived, List.forall_mem_cons, List.not_mem_nil, false_imp_iff, implies_true,
    and_true]
  exact ⟨isInf_round_divPos h.b0 h.a0, isInf_round_divPos h.b1 h.a0, isInf_round_divPos h.b2 h.a0,
    isInf_round_divPos h.a1 h.a0, isInf_round_divPos h.a2 h.a0⟩

theorem CutoffOk.turn_lt (h : CutoffOk p fs) : real p.p0 / fs < 1 / 2 := by
  obtain ⟨h0, h1⟩ := h
  have hfs : (0 : ℚ) < fs := by linarith
  rw [div_lt_iff₀ hfs]
  linarith

theorem CutoffOk.within_cosTurn (h : CutoffOk p fs) : Within (-5) 2 (cosTurn (real p.p0 / fs)) := by
  obtain ⟨h1, h2, h3⟩ := cosTurn_bounds _ h.turn_lt
  exact ⟨h1, h2, h3⟩

theorem CutoffOk.within_sinTurn (h : CutoffOk p fs) : Within (-1 / 5) 4 (sinTurn (real p.p0 / fs)) := by
  obtain ⟨h1, h2, h3, -⟩ := sinTurn_bounds _ h.turn_lt
  exact ⟨by linarith, h2, h3⟩

theorem real_one : real one = 1 := by decide +kernel

theorem isFinite_of_legalParam {w : Word} (h : legalParam w = true) : isFinite w = true := by
  rw [legalParam_iff, checkParam_eq] at h
  have hexp : w.toNat / 2 ^ 23 % 256 ≠ 255 := fun hc => by
    rw [if_pos hc] at h
    cases h
  rw [isFinite_iff, mag]
  omega

/-- The effective Q is the greater of P1 and 1 (R180). -/
theorem SlotRegs.Legal.real_q (h : p.Legal) : real (max32 p.p1 one) = max (real p.p1) 1 := by
  rw [real_max32 _ _ (isFinite_of_legalParam h.p1) (by decide), real_one]

/-- α = sw/(2Q) with Q at least 1 (R182). -/
theorem within_alpha {q : ℚ} {sw : Enclosure} (hq : 1 ≤ q) (h : Within (-1 / 5) 4 sw) :
    Within (-1 / 10) 2 (scale (1 / (2 * q)) sw) := by
  have h0 : 0 ≤ 1 / (2 * q) := by positivity
  have h1 : 1 / (2 * q) ≤ 1 / 2 := one_div_le_one_div_of_le two_pos (by linarith)
  exact (h.scale_of_nonneg h0).mono (by linarith) (by linarith)

theorem passCoefs_small {bp : BpVariant} {cw sw alpha : Enclosure} (hc : Within (-5) 2 cw) (hs : Within (-1 / 5) 4 sw)
    (ha : Within (-1 / 10) 2 alpha) : (passCoefs kind bp cw sw alpha).Small := by
  have half {l h : ℚ} {x : Enclosure} (hx : Within l h x) : Within (1 / 2 * l) (1 / 2 * h) (scale (1 / 2) x) :=
    hx.scale_of_nonneg (by norm_num)
  have widen {l h : ℚ} {x : Enclosure} (hx : Within l h x) (hl : -100 ≤ l := by norm_num)
      (hh : h ≤ 100 := by norm_num) : Within (-100) 100 x := hx.mono hl hh
  have a0 : Within (1 / 2) 100 (onePlus alpha) := ha.onePlus.mono (by norm_num) (by norm_num)
  have a1 : Within (-100) 100 (scale (-2) cw) := widen (hc.scale_of_nonpos (by norm_num))
  have a2 : Within (-100) 100 (oneMinus alpha) := widen ha.oneMinus
  have zero : Within (-100) 100 (point 0) := widen (within_point 0)
  cases kind
  case lp => exact ⟨widen (half hc.oneMinus), widen hc.oneMinus, widen (half hc.oneMinus), a0, a1, a2⟩
  case hp => exact ⟨widen (half hc.onePlus), widen hc.onePlus.neg, widen (half hc.onePlus), a0, a1, a2⟩
  all_goals
    cases bp
    case peak0dB => exact ⟨widen ha, zero, widen ha.neg, a0, a1, a2⟩
    case skirt => exact ⟨widen (half hs), zero, widen (half hs).neg, a0, a1, a2⟩

/-- The pass filters, LP, HP and BP (R183-R185). -/
def FilterKind.isPass : FilterKind → Bool
  | .lp | .hp | .bp => true
  | .ls | .hs => false

/-- A pass filter's coefficients come from passCoefs, whatever its number of stages (R190-R192). -/
theorem slotCoefs_pass (h : kind.isPass = true) :
    slotCoefs kind n b p fs =
      passCoefs kind b.bpVariant (cosTurn (real p.p0 / fs)) (sinTurn (real p.p0 / fs))
        (scale (1 / (2 * real (max32 p.p1 one))) (sinTurn (real p.p0 / fs))) := by
  cases kind
  case lp | hp | bp => rfl
  case ls | hs => cases h

/-- A pass filter within its cutoff range never fails (R190-R192). -/
theorem slotCoefs_inRange_of_pass (hp : p.Legal) (hk : kind.isPass = true) (h : CutoffOk p fs) :
    ((slotCoefs kind n b p fs).derived p).InRange := by
  have hq : 1 ≤ real (max32 p.p1 one) := hp.real_q ▸ le_max_right _ _
  rw [slotCoefs_pass hk]
  exact (passCoefs_small h.within_cosTurn h.within_sinTurn (within_alpha hq h.within_sinTurn)).inRange

theorem exists_filterDesign : ∀ i ∈ [Instr.filterLpS12, .filterHpS12, .filterBpS12, .filterLsS12, .filterHsS12,
      .filterLpS24, .filterHpS24, .filterBpS24, .filterLsS24, .filterHsS24],
    ∃ x ∈ filterDesigns, x.1 = i ∧
      (x.2.1.isPass = true ∨ i ∈ [Instr.filterLsS12, .filterHsS12, .filterLsS24, .filterHsS24]) := by
  decide

/-- Settles O48: a filter is refused on its cutoff, a shelf else on an infinite coefficient, and on nothing more. -/
theorem filterDerivationChecks : Obligations.FilterDerivationChecks := by
  intro b p g hp i hi
  obtain ⟨x, hx, rfl, hshelf⟩ := exists_filterDesign i hi
  rw [derive_of_mem_filterDesigns hx]
  refine ⟨?cutoff, fun e he => ?codes, fun d hd => ?ok⟩
  case cutoff => rw [deriveFilter_eq_error_iff]; simp [CutoffOk]
  case codes =>
    rcases deriveFilter_eq_error_iff.mp he with ⟨-, rfl⟩ | ⟨hc, hr, rfl⟩
    · exact .inl rfl
    · exact .inr ⟨rfl, hshelf.resolve_left fun hk => hr (slotCoefs_inRange_of_pass hp hk hc)⟩
  case ok =>
    obtain ⟨-, hr, rfl⟩ := deriveFilter_eq_ok_iff.mp hd
    exact ⟨rfl, rfl, hp.real_q, hr⟩

end Sys2Proof.Machine

/-! PROOFS. What an enclosure says of the real it holds: the quotient of two enclosed reals, and the rounding of a
decided enclosure as the binary32 nearest the real (spec/00_scope.md R11, R15). -/

namespace Sys2Proof.ExactReal

open Binary32 Machine

/-- The quotient by a positive enclosure holds the quotient of the reals: it lies between the quotients of the
numerator's ends, and each of those between two corners. -/
theorem holds_divPos {x y : Enclosure} {a b : ℝ} (hy : 0 < y.lo) (ha : Holds x a) (hb : Holds y b) :
    Holds (divPos x y) (a / b) := by
  obtain ⟨h1, h2⟩ := hb
  have hlo : (0 : ℝ) < y.lo := by exact_mod_cast hy
  have hb0 : 0 < b := hlo.trans_le h1
  have hinv1 : (y.hi : ℝ)⁻¹ ≤ b⁻¹ := inv_anti₀ hb0 h2
  have hinv2 : b⁻¹ ≤ (y.lo : ℝ)⁻¹ := inv_anti₀ hlo h1
  have between (e : ℝ) : min (e / y.lo) (e / y.hi) ≤ e / b ∧ e / b ≤ max (e / y.lo) (e / y.hi) := by
    have h := mul_between (c := e) hinv1 hinv2
    simpa only [div_eq_inv_mul, min_comm, max_comm] using h
  constructor <;> simp only [divPos] <;> push_cast
  · exact (between x.lo).1.trans (div_le_div_of_nonneg_right ha.1 hb0.le)
  · exact (div_le_div_of_nonneg_right ha.2 hb0.le).trans (between x.hi).2

/-! ### The nearest binary32 -/

/-- r is no farther from v than from u where it lies on v's side of their middle. -/
theorem abs_sub_le_abs_sub_iff {v u r : ℝ} : |v - r| ≤ |u - r| ↔ 0 ≤ (u - v) * (u + v - 2 * r) := by
  rw [← sq_le_sq]
  constructor <;> intro h <;> linarith

theorem abs_sub_eq_abs_sub_iff {v u r : ℝ} : |v - r| = |u - r| ↔ (u - v) * (u + v - 2 * r) = 0 := by
  rw [← sq_eq_sq_iff_abs_eq_abs]
  constructor <;> intro h <;> linarith

/-- The rounding of a rational is the binary32 nearest it (R11). -/
theorem nearest_rnd32Rat (q : ℚ) : Nearest (rnd32Rat q) (q : ℝ) := by
  obtain ⟨hnan, -, -, -, hnear⟩ := rnd32_isNearestEven q.num q.den q.den_pos
  rw [Rat.num_div_den] at hnear
  refine ⟨hnan, ?overflow, ?sign, fun hf u hu => ?nearest⟩
  case overflow =>
    rw [isInf_rnd32Rat, ← Rat.cast_abs, ← Rat.cast_le (K := ℝ)]
    norm_num
  case sign =>
    have h : (rnd32Rat q).msb = decide (q.num < 0) := sign_rnd32 _ _
    by_cases hn : q.num < 0
    · simpa [h, hn] using (Rat.num_neg.mp hn).le
    · simpa [h, hn] using Rat.num_nonneg.mp (not_lt.mp hn)
  case nearest =>
    obtain ⟨h1, h2⟩ := hnear hf u hu
    exact ⟨by exact_mod_cast h1, fun he => h2 (by exact_mod_cast he)⟩

/-- -0 is as near to zero as +0, and even. -/
theorem nearest_negZero : Nearest negZero 0 := by
  have h0 : real negZero = 0 := by decide +kernel
  refine ⟨by decide, ?overflow, ?sign, fun _ u _ => ?nearest⟩
  case overflow =>
    have hfin : ¬ isInf negZero = true := by decide
    exact iff_of_false hfin (by norm_num)
  case sign => rw [ite_self]
  case nearest =>
    rw [h0, Rat.cast_zero, sub_zero, abs_zero]
    exact ⟨abs_nonneg _, fun _ _ => by decide⟩

/-- A pattern nearest two reals is nearest every real between them. -/
theorem nearest_of_between {v : F32} {a b r : ℝ} (ha : Nearest v a) (hb : Nearest v b) (h1 : a ≤ r) (h2 : r ≤ b) :
    Nearest v r := by
  obtain ⟨hnan, oa, sa, na⟩ := ha
  obtain ⟨-, ob, sb, nb⟩ := hb
  have habs : (if v.msb then r ≤ 0 else 0 ≤ r) ∧ (|b| ≤ |r| ∧ |r| ≤ |a| ∨ |a| ≤ |r| ∧ |r| ≤ |b|) := by
    split
    case isTrue hs =>
      rw [if_pos hs] at sb
      exact ⟨h2.trans sb, .inl ⟨abs_le_abs_of_nonpos sb h2, abs_le_abs_of_nonpos (h2.trans sb) h1⟩⟩
    case isFalse hs =>
      rw [if_neg hs] at sa
      exact ⟨sa.trans h1, .inr ⟨abs_le_abs_of_nonneg sa h1, abs_le_abs_of_nonneg (sa.trans h1) h2⟩⟩
  obtain ⟨hsign, hmag⟩ := habs
  refine ⟨hnan, ?overflow, hsign, fun hf u hu => ?nearest⟩
  case overflow =>
    rcases hmag with ⟨l, u⟩ | ⟨l, u⟩
    · exact ⟨fun h => (ob.mp h).trans l, fun h => oa.mpr (h.trans u)⟩
    · exact ⟨fun h => (oa.mp h).trans l, fun h => ob.mpr (h.trans u)⟩
  case nearest =>
    obtain ⟨la, ea⟩ := na hf u hu
    obtain ⟨lb, eb⟩ := nb hf u hu
    rw [abs_sub_le_abs_sub_iff] at la lb
    rw [abs_sub_eq_abs_sub_iff] at ea eb
    rw [abs_sub_le_abs_sub_iff, abs_sub_eq_abs_sub_iff]
    rcases le_total (real v : ℝ) (real u) with h | h
    · have hstep := mul_le_mul_of_nonneg_left h2 (sub_nonneg.mpr h)
      exact ⟨by linarith, fun he => eb (by linarith)⟩
    · have hstep := mul_le_mul_of_nonpos_left h1 (sub_nonpos.mpr h)
      exact ⟨by linarith, fun he => ea (by linarith)⟩

/-- A decided enclosure rounds to the binary32 nearest every real it holds (R15; log 7). -/
theorem nearest_round {x : Enclosure} {r : ℝ} (hr : Holds x r) (hd : Decided x) : Nearest (round x) r := by
  have hlo := nearest_rnd32Rat x.lo
  have hhi : Nearest (rnd32Rat x.lo) x.hi := by
    rw [hd]
    split
    case isTrue h => 
      rw [h.1, Rat.cast_zero]
      exact nearest_negZero
    case isFalse => exact nearest_rnd32Rat x.hi
  rw [round_of_decided hd]
  exact nearest_of_between hlo hhi hr.1 hr.2

end Sys2Proof.ExactReal

/-! PROOFS. The raw coefficients hold what R183-R187 write, wherever the enclosures of cos, sin and 10^r hold theirs
(spec/41_filter.md R182; log 7). -/

namespace Sys2Proof.Machine

open Binary32 ExactReal

variable {kind : FilterKind} {n : Nat} {bp : BpVariant} {cw sw alpha a : Enclosure} {c w α A β : ℝ}

theorem Holds.congr {e : Enclosure} {x y : ℝ} (h : Holds e x) (hxy : x = y) : Holds e y := hxy ▸ h

/-! ### LP, HP and BP -/

theorem passCoefs_cookbook (hk : kind.isPass = true) (hc : Holds cw c) (hw : Holds sw w) (ha : Holds alpha α) :
    Cookbook kind bp c w α A β (passCoefs kind bp cw sw alpha) := by
  have half {e : Enclosure} {x : ℝ} (hx : Holds e x) : Holds (scale (1 / 2) e) (x / 2) :=
    (holds_scale hx).congr (by push_cast; ring)
  have a0 := holds_onePlus ha
  have a1 : Holds (scale (-2) cw) (-2 * c) := (holds_scale hc).congr (by push_cast; ring)
  have a2 := holds_oneMinus ha
  have zero : Holds (point 0) 0 := (holds_point 0).congr Rat.cast_zero
  cases kind
  case lp => exact ⟨half (holds_oneMinus hc), holds_oneMinus hc, half (holds_oneMinus hc), a0, a1, a2⟩
  case hp => exact ⟨half (holds_onePlus hc), holds_neg (holds_onePlus hc), half (holds_onePlus hc), a0, a1, a2⟩
  case bp =>
    cases bp
    case peak0dB => exact ⟨ha, zero, holds_neg ha, a0, a1, a2⟩
    case skirt => exact ⟨half hw, zero, (holds_neg (half hw)).congr (neg_div 2 w).symm, a0, a1, a2⟩
  case ls | hs => cases hk

/-! ### The shelves -/

/-- The shelves' β of R182, at the slope S = n/2 of n stages. -/
noncomputable def shelfBeta (n : Nat) (A : ℝ) : ℝ := √A * √((A + 1 / A) * (1 / ((n : ℝ) / 2) - 1) + 2)

/-- At slope 12 the two roots multiply to A + 1. -/
theorem shelfBeta_one (hA : 0 < A) : shelfBeta 1 A = A + 1 := by
  have h : A * ((A + 1 / A) * (1 / (((1 : ℕ) : ℝ) / 2) - 1) + 2) = (A + 1) ^ 2 := by
    push_cast
    field_simp
    ring
  rw [shelfBeta, ← Real.sqrt_mul hA.le, h, Real.sqrt_sq (by linarith)]

/-- At slope 24 they multiply to the root of 2A. -/
theorem shelfBeta_two (hA : 0 < A) : shelfBeta 2 A = √(2 * A) := by
  rw [shelfBeta, ← Real.sqrt_mul hA.le]
  norm_num [mul_comm]

theorem holds_shelfSums (hn : n = 1 ∨ n = 2) (hA : 0 < A) (hw : Holds sw w) (ha : Holds a A) :
    Holds (shelfSums n a sw).1 (A + 1 + shelfBeta n A * w)
      ∧ Holds (shelfSums n a sw).2 (A + 1 - shelfBeta n A * w) := by
  have ap1 := holds_onePlus ha
  rcases hn with rfl | rfl
  · rw [shelfBeta_one hA]
    exact ⟨(holds_mul ap1 (holds_onePlus hw)).congr (by ring), (holds_mul ap1 (holds_oneMinus hw)).congr (by ring)⟩
  · have hroot : Holds (sqrt (scale 2 a)) (shelfBeta 2 A) :=
      (holds_sqrt (holds_scale ha)).congr (by rw [shelfBeta_two hA]; norm_num)
    exact ⟨(holds_add ap1 (holds_mul hroot hw)).congr (by ring), (holds_sub ap1 (holds_mul hroot hw)).congr (by ring)⟩

theorem shelfCoefs_cookbook (high : Bool) (hn : n = 1 ∨ n = 2) (hA : 0 < A) (hc : Holds cw c) (hw : Holds sw w)
    (ha : Holds a A) : Cookbook (if high then .hs else .ls) bp c w α A (shelfBeta n A) (shelfCoefs high n cw sw a) := by
  obtain ⟨sum, diff⟩ := holds_shelfSums hn hA hw ha
  have am1 : Holds (sub a (point 1)) (A - 1) := (holds_sub ha (holds_point 1)).congr (by norm_num)
  have tilt := holds_mul am1 hc
  have ap1c := holds_mul (holds_onePlus ha) hc
  have twice {k : ℚ} {e : Enclosure} {x y : ℝ} (hx : Holds e x) (hy : k * x = y) : Holds (scale k e) y :=
    (holds_scale hx).congr hy
  cases high
  · exact ⟨(holds_mul ha (holds_sub sum tilt)).congr (by ring),
      twice (holds_mul ha (holds_sub am1 ap1c)) (by push_cast; ring),
      (holds_mul ha (holds_sub diff tilt)).congr (by ring), (holds_add sum tilt).congr (by ring),
      twice (holds_add am1 ap1c) (by push_cast; ring), (holds_add diff tilt).congr (by ring)⟩
  · exact ⟨(holds_mul ha (holds_add sum tilt)).congr (by ring),
      twice (holds_mul ha (holds_add am1 ap1c)) (by push_cast; ring),
      (holds_mul ha (holds_add diff tilt)).congr (by ring), (holds_sub sum tilt).congr (by ring),
      twice (holds_sub am1 ap1c) (by push_cast; ring), (holds_sub diff tilt).congr (by ring)⟩

/-- The raw coefficients of each of the ten filters hold what R183-R187 write. -/
theorem rawCoefs_cookbook {x : Instr × FilterKind × Nat} (hx : x ∈ filterDesigns) (bp : BpVariant) {e0 e1 e2 : F32}
    {fs : Nat} (hA : 0 < A) (hc : Holds (cosTurn (real e0 / fs)) c) (hw : Holds (sinTurn (real e0 / fs)) w)
    (ha : Holds (pow10 (real e2 / 40)) A) :
    Cookbook x.2.1 bp c w (w / (2 * (real e1 : ℝ))) A (shelfBeta x.2.2 A) (rawCoefs x.2.1 x.2.2 bp e0 e1 e2 fs) := by
  have alpha : Holds (scale (1 / (2 * real e1)) (sinTurn (real e0 / fs))) (w / (2 * (real e1 : ℝ))) :=
    (holds_scale hw).congr (by push_cast; ring)
  have hn : x.2.2 = 1 ∨ x.2.2 = 2 := by revert x; decide
  obtain ⟨i, kind, n⟩ := x
  cases kind
  case lp | hp | bp => exact passCoefs_cookbook rfl hc hw alpha
  case ls => exact shelfCoefs_cookbook false hn hA hc hw ha
  case hs => exact shelfCoefs_cookbook true hn hA hc hw ha

end Sys2Proof.Machine

/-! PROOFS. The symmetries of the coefficients: LP, HP and BP, and the shelves of 0 dB, whose A is 1
(spec/41_filter.md R190-R194). -/

namespace Sys2Proof.ExactReal

open Machine

variable {x : Enclosure}

theorem add_point_zero (x : Enclosure) : add x (point 0) = x := by simp [add, point]

theorem point_zero_add (x : Enclosure) : add (point 0) x = x := by simp [add, point]

theorem sub_point_zero (x : Enclosure) : sub x (point 0) = x := by simp [sub, neg, add, point]

theorem point_zero_sub (x : Enclosure) : sub (point 0) x = neg x := by simp [sub, add, point]

theorem point_zero_mul (x : Enclosure) : mul (point 0) x = point 0 := by simp [mul, point]

theorem divPos_point_zero (x : Enclosure) : divPos (point 0) x = point 0 := by simp [divPos, point]

theorem point_one_mul (hx : x.lo ≤ x.hi) : mul (point 1) x = x := by
  simpa [scale] using scale_of_nonneg zero_le_one hx

/-- The quotient of an enclosure by itself rounds to 1.0 where it is at least 1 and no wider than 2^-100. -/
theorem round_divPos_self (hx : 1 ≤ x.lo) (hw : x.hi - x.lo ≤ 1 / 2 ^ 100) (ho : x.lo ≤ x.hi) :
    round (divPos x x) = Binary32.one := by
  have corner {u v : ℚ} (hu : |u - v| ≤ 1 / 2 ^ 100) (hv : 1 ≤ v) : |u / v - 1| ≤ 1 / 2 ^ 100 := by
    have hv0 : 0 < v := by linarith
    rw [div_sub_one hv0.ne', abs_div, abs_of_pos hv0]
    exact (div_le_self (abs_nonneg _) hv).trans hu
  have same (u : ℚ) : |u - u| ≤ 1 / 2 ^ 100 := by rw [sub_self, abs_zero]; positivity
  have cross : |x.hi - x.lo| ≤ 1 / 2 ^ 100 := by rwa [abs_of_nonneg (sub_nonneg.mpr ho)]
  have hx' : 1 ≤ x.hi := hx.trans ho
  apply round_near_one
  · exact min_rec' (p := fun r => |r - 1| ≤ 1 / 2 ^ 100) (corner (same _) hx)
      (corner (abs_sub_comm x.hi x.lo ▸ cross) hx')
  · exact max_rec' (p := fun r => |r - 1| ≤ 1 / 2 ^ 100) (corner cross hx) (corner (same _) hx')

end Sys2Proof.ExactReal

namespace Sys2Proof.Machine

open Binary32 ExactReal

variable {kind : FilterKind} {n : Nat} {b : Build} {p : SlotRegs} {g : GlobalRegs} {fs : Nat}
  {cw sw : Enclosure}

/-! ### Shelves of 0 dB -/

theorem onePlus_point_one : onePlus (point 1) = point 2 := by decide +kernel

/-- The root in the 24 dB shelves' β at A = 1, √2. -/
theorem within_sqrt_two :
    Within 1 (3 / 2) (sqrt (scale 2 (point 1)))
      ∧ (sqrt (scale 2 (point 1))).hi - (sqrt (scale 2 (point 1))).lo ≤ 1 / 2 ^ 200 :=
  ⟨⟨by decide +kernel, by decide +kernel, by decide +kernel⟩, by decide +kernel⟩

/-- The sums of R186 and R187 at A = 1: small, the first at least 1 and very narrow. -/
theorem shelfSums_of_unity (hn : n = 1 ∨ n = 2) (hs : Within (-1 / 5) 4 sw) (hw : sw.hi - sw.lo ≤ 1 / 2 ^ 200) :
    Within 1 10 (shelfSums n (point 1) sw).1
      ∧ (shelfSums n (point 1) sw).1.hi - (shelfSums n (point 1) sw).1.lo ≤ 1 / 2 ^ 100
      ∧ Within (-10) 10 (shelfSums n (point 1) sw).2 := by
  rcases hn with rfl | rfl
  · have h1 : (shelfSums 1 (point 1) sw).1 = scale 2 (onePlus sw) := congrArg (mul · _) onePlus_point_one
    have h2 : (shelfSums 1 (point 1) sw).2 = scale 2 (oneMinus sw) := congrArg (mul · _) onePlus_point_one
    rw [h1, h2]
    refine ⟨(hs.onePlus.scale_of_nonneg two_pos.le).mono (by norm_num) (by norm_num), ?_,
      (hs.oneMinus.scale_of_nonneg two_pos.le).mono (by norm_num) (by norm_num)⟩
    have wo : (onePlus sw).hi - (onePlus sw).lo ≤ 1 / 2 ^ 200 := width_point_add 1 sw ▸ hw
    rw [scale_of_nonneg two_pos.le hs.onePlus.ordered, ← mul_sub]
    exact (mul_le_mul_of_nonneg_left wo two_pos.le).trans (by norm_num)
  · obtain ⟨hroot, wroot⟩ := within_sqrt_two
    have h1 : (shelfSums 2 (point 1) sw).1 = add (point 2) (mul (sqrt (scale 2 (point 1))) sw) :=
      congrArg (add · _) onePlus_point_one
    have h2 : (shelfSums 2 (point 1) sw).2 = sub (point 2) (mul (sqrt (scale 2 (point 1))) sw) :=
      congrArg (sub · _) onePlus_point_one
    have hb := hroot.mul_of_nonneg zero_le_one hs (by norm_num) (by norm_num)
    have wb := width_mul (hroot.mono (by norm_num) (by norm_num)) (hs.mono (by norm_num) le_rfl) wroot hw
    rw [h1, h2]
    refine ⟨((within_point 2).add hb).mono (by norm_num) (by norm_num), ?_,
      ((within_point 2).sub hb).mono (by norm_num) (by norm_num)⟩
    rw [width_point_add]
    exact wb.trans (by norm_num)

/-- With A = 1 both shelves have b_i = a_i: the sums of R186 and R187, and -4·cw between them. -/
theorem shelfCoefs_of_unity (high : Bool) (hc : cw.lo ≤ cw.hi)
    (h1 : (shelfSums n (point 1) sw).1.lo ≤ (shelfSums n (point 1) sw).1.hi)
    (h2 : (shelfSums n (point 1) sw).2.lo ≤ (shelfSums n (point 1) sw).2.hi) :
    shelfCoefs high n cw sw (point 1) =
      ⟨(shelfSums n (point 1) sw).1, scale (-2) (scale 2 cw), (shelfSums n (point 1) sw).2,
        (shelfSums n (point 1) sw).1, scale (-2) (scale 2 cw), (shelfSums n (point 1) sw).2⟩ := by
  have am1 : sub (point 1) (point 1) = point 0 := by decide +kernel
  have htwo : mul (point 2) cw = scale 2 cw := rfl
  have hord : (scale 2 cw).lo ≤ (scale 2 cw).hi := by
    rw [scale_of_nonneg two_pos.le hc]
    exact mul_le_mul_of_nonneg_left hc two_pos.le
  have hneg : (neg (scale 2 cw)).lo ≤ (neg (scale 2 cw)).hi := neg_le_neg hord
  cases high <;>
    simp only [shelfCoefs, am1, onePlus_point_one, point_zero_mul, htwo, point_zero_add, point_zero_sub, add_point_zero,
      sub_point_zero, point_one_mul h1, point_one_mul h2, point_one_mul hord, point_one_mul hneg,
      scale_neg two_pos.le hord, if_true, Bool.false_eq_true, if_false]

/-- The value 10^(E2/40) at both zeros of E2 is exactly 1. -/
theorem pow10_of_0_dB {e2 : F32} (h : e2 = 0x00000000#32 ∨ e2 = 0x80000000#32) : pow10 (real e2 / 40) = point 1 := by
  rcases h with rfl | rfl <;> decide +kernel

/-- A shelf of 0 dB within its cutoff range derives, with b_i = a_i and so K0 = 1, K1 = K3 and K2 = K4 (R193, R194). -/
theorem deriveFilter_shelf_of_0_dB (hk : kind = .ls ∨ kind = .hs) (hn : n = 1 ∨ n = 2) (h : CutoffOk p fs)
    (h2 : p.p2 = 0x00000000#32 ∨ p.p2 = 0x80000000#32) :
    ∃ d, deriveFilter kind n b p fs = .ok d ∧ d.k0 = 0x3F800000#32 ∧ d.k1 = d.k3 ∧ d.k2 = d.k4 := by
  have hc := h.within_cosTurn
  obtain ⟨-, -, -, hw⟩ := sinTurn_bounds _ h.turn_lt
  obtain ⟨s1, w1, s2⟩ := shelfSums_of_unity hn h.within_sinTurn hw
  have hcoefs : ∃ high, slotCoefs kind n b p fs =
      shelfCoefs high n (cosTurn (real p.p0 / fs)) (sinTurn (real p.p0 / fs)) (point 1) := by
    rw [← pow10_of_0_dB h2]
    rcases hk with rfl | rfl
    · exact ⟨false, rfl⟩
    · exact ⟨true, rfl⟩
  obtain ⟨high, hcoefs⟩ := hcoefs
  rw [shelfCoefs_of_unity high hc.ordered s1.ordered s2.ordered] at hcoefs
  have mid : Within (-100) 100 (scale (-2) (scale 2 (cosTurn (real p.p0 / fs)))) :=
    ((hc.scale_of_nonneg two_pos.le).scale_of_nonpos (by norm_num)).mono (by norm_num) (by norm_num)
  have sum : Within (1 / 2) 100 (shelfSums n (point 1) (sinTurn (real p.p0 / fs))).1 :=
    s1.mono (by norm_num) (by norm_num)
  have diff := s2.mono (l' := -100) (h' := 100) (by norm_num) (by norm_num)
  have small : (slotCoefs kind n b p fs).Small := by
    rw [hcoefs]
    exact ⟨sum.mono (by norm_num) le_rfl, mid, diff, sum, mid, diff⟩
  refine ⟨_, deriveFilter_of_inRange h small.inRange, ?_⟩
  rw [hcoefs]
  exact ⟨round_divPos_self s1.lower w1 s1.ordered, rfl, rfl⟩

/-! ### LP, HP and BP -/

/-- K1 of a band-pass is +0 (R192). -/
theorem round_bp_b1 (bp : BpVariant) (cw sw alpha a0 : Enclosure) :
    round (divPos (passCoefs .bp bp cw sw alpha).b1 a0) = 0x00000000#32 := by
  have hb1 : (passCoefs .bp bp cw sw alpha).b1 = point 0 := by cases bp <;> rfl
  rw [hb1, divPos_point_zero]
  decide +kernel

/-- The three pass filters share a0, a1 and a2 (R183-R185). -/
theorem passCoefs_denominator (kind : FilterKind) (bp : BpVariant) (cw sw alpha : Enclosure) :
    (passCoefs kind bp cw sw alpha).a0 = onePlus alpha ∧ (passCoefs kind bp cw sw alpha).a1 = scale (-2) cw
      ∧ (passCoefs kind bp cw sw alpha).a2 = oneMinus alpha := by
  cases kind
  case lp | hp => exact ⟨rfl, rfl, rfl⟩
  case bp | ls | hs => cases bp <;> exact ⟨rfl, rfl, rfl⟩

/-- So the three derive the same K3 and K4. -/
theorem passFilters_share_k3_k4 {kind' : FilterKind} (hk : kind.isPass = true) (hk' : kind'.isPass = true)
    {d d' : Derived} (hd : deriveFilter kind n b p fs = .ok d) (hd' : deriveFilter kind' n b p fs = .ok d') :
    d.k3 = d'.k3 ∧ d.k4 = d'.k4 := by
  obtain ⟨-, -, rfl⟩ := deriveFilter_eq_ok_iff.mp hd
  obtain ⟨-, -, rfl⟩ := deriveFilter_eq_ok_iff.mp hd'
  simp only [slotCoefs_pass hk, slotCoefs_pass hk', RawCoefs.derived, passCoefs_denominator, and_self]

/-- LP and HP have b2 = b0, BP has b1 = 0, and no pass filter's coefficients depend on its number of stages
(R190-R192). -/
theorem passFilters_symmetric {lp hp bp : Derived} (hlp : derive .filterLpS12 b p g = .ok lp)
    (hhp : derive .filterHpS12 b p g = .ok hp) (hbp : derive .filterBpS12 b p g = .ok bp) :
    lp.k2 = lp.k0 ∧ hp.k2 = hp.k0 ∧ bp.k1 = 0x00000000#32
      ∧ lp.k3 = hp.k3 ∧ lp.k3 = bp.k3 ∧ lp.k4 = hp.k4 ∧ lp.k4 = bp.k4
      ∧ derive .filterLpS24 b p g = .ok lp ∧ derive .filterHpS24 b p g = .ok hp
      ∧ derive .filterBpS24 b p g = .ok bp := by
  obtain ⟨lh3, lh4⟩ := passFilters_share_k3_k4 rfl rfl hlp hhp
  obtain ⟨lb3, lb4⟩ := passFilters_share_k3_k4 rfl rfl hlp hbp
  obtain ⟨-, -, elp⟩ := deriveFilter_eq_ok_iff.mp hlp
  obtain ⟨-, -, ehp⟩ := deriveFilter_eq_ok_iff.mp hhp
  obtain ⟨-, -, ebp⟩ := deriveFilter_eq_ok_iff.mp hbp
  have bpK1 : bp.k1 = 0x00000000#32 := ebp ▸ round_bp_b1 _ _ _ _ _
  exact ⟨elp ▸ rfl, ehp ▸ rfl, bpK1, lh3, lb3, lh4, lb4, hlp, hhp, hbp⟩

/-- Settles O49: LP, HP and BP share their denominators, a shelf of 0 dB has b_i = a_i, and the interval operations hold
what the formulas write. -/
theorem passFilterSymmetry : Obligations.PassFilterSymmetry := by
  refine ⟨fun _ _ _ _ _ _ => passFilters_symmetric, ?shelf, ?coefs, fun _ _ _ _ => holds_divPos,
    fun _ _ => nearest_round⟩
  case shelf =>
    intro b p g h0 h1 h2 i hi
    obtain ⟨x, hx, rfl, hk, hn⟩ :
        ∃ x ∈ filterDesigns, x.1 = i ∧ (x.2.1 = .ls ∨ x.2.1 = .hs) ∧ (x.2.2 = 1 ∨ x.2.2 = 2) := by
      revert i
      decide
    rw [derive_of_mem_filterDesigns hx]
    exact deriveFilter_shelf_of_0_dB hk hn ⟨h0, h1⟩ h2
  case coefs =>
    intro b p g x hx
    refine ⟨fun d hd => ?_, fun c w A hc hw ha hA => rawCoefs_cookbook hx _ hA hc hw ha⟩
    rw [derive_of_mem_filterDesigns hx] at hd
    obtain ⟨-, -, rfl⟩ := deriveFilter_eq_ok_iff.mp hd
    exact ⟨rfl, rfl, rfl, rfl, rfl⟩

end Sys2Proof.Machine

/-! PROOFS. The delay line: the committed length and parameters of a DELAY slot, and the module's effect on the current
slot (spec/42_delay.md R210-R213). -/

namespace Sys2Proof.Machine

open Binary32

/-! ### The delay line over the channels -/

/-- delay_apply on a slot that exists, whose histories are within its length, runs the delay line over each active
channel's lane (R212, R213). -/
theorem State.applyDelay_delayEffect (s : State) (h : s.slotPc.toNat < s.slots.length)
    (hd : 0 < s.current.derived.k0.toNat)
    (hlen : ∀ c, c < 2 → (s.current.state.delay.get c).length ≤ s.current.derived.k0.toNat) :
    DelayEffect s s.applyDelay.advanceSlot := by
  obtain ⟨lanes, hst, hl⟩ := s.exists_lanes_foldChannels (fun x => x.delay) (fun x lanes => { x with delay := lanes })
    (delayStep s.current.derived.k0.toNat s.current.derived.e1) h
  change (s.applyDelay.advanceSlot.slot s.slotPc.toNat).state = _ at hst
  exact {
    toSlotEffect := s.foldChannels_slotEffect _ _ _
    psOvf := by rw [State.advanceSlot_status, State.applyDelay, State.foldChannels_status]
    filter := by rw [hst]
    pitch := by rw [hst]
    active := fun c hc hch => by
      rw [hst, hl c hc, if_pos hch, State.advanceSlot_wb, State.applyDelay, State.lane_foldChannels _ _ _ _ c hc,
        if_pos hch]
      exact delay_fold _ _ hd _ _ (hlen c hc)
    idle := fun c hc hch => by rw [hst, hl c hc, if_neg (by omega)] }

/-- Settles O50: delay is delay_apply on the current slot, a fold of the delay line over each active channel's lane. -/
theorem delayLine : Obligations.DelayLine := fun s h hd hlen =>
  ⟨_, rfl, s.applyDelay_delayEffect h hd hlen⟩

/-! ### The length and the parameters of a DELAY slot -/

/-- A value that is not negative, from its units as a natural number. -/
theorem units_toNat_div {v : F32} (h : 0 ≤ real v) : ((units v).toNat : ℚ) / 2 ^ 149 = real v := by
  have hu : 0 ≤ units v := by
    rw [real_eq, le_div_iff₀ (by positivity), zero_mul] at h
    exact_mod_cast h
  rw [real_eq, ← Int.cast_natCast, Int.toNat_of_nonneg hu]

/-- D_raw is round_he of fs · real(E0) / 1000 (R211). -/
theorem delayRaw_isRoundHe (fs : Nat) {e0 : F32} (h : 0 ≤ real e0) :
    IsRoundHe ((fs : ℚ) * real e0 / 1000) (delayRaw fs e0) := by
  have hq : (fs : ℚ) * real e0 / 1000 = ((fs * (units e0).toNat : ℕ) : ℚ) / (1000 * 2 ^ 149 : ℕ) := by
    rw [← units_toNat_div h]
    push_cast
    ring
  rw [hq]
  exact roundHalfEven_isRoundHe _ _ (by positivity)

/-- A legal parameter's maximum with one is the greater of its value and 1 (R13, R124). -/
theorem real_max32_one_of_legalParam {w : Word} (h : legalParam w = true) : real (max32 w one) = max (real w) 1 := by
  rw [real_max32 _ _ (isFinite_of_legalParam h) (by decide), real_one]

section
variable {b : Build} {p : SlotRegs} {fs frames : Nat}

/-- A length beyond the capacity refuses the derivation (R211). -/
theorem deriveDelay_of_maxDelay_lt (h : b.maxDelay < max (delayRaw fs (max32 p.p0 one)) frames) :
    deriveDelay b p fs frames = .error .delayRange := if_pos h

/-- A length within the capacity is committed to K0, beside the clamped time and feedback (R210, R211). -/
theorem deriveDelay_of_le_maxDelay (h : max (delayRaw fs (max32 p.p0 one)) frames ≤ b.maxDelay) :
    deriveDelay b p fs frames = .ok
      { Derived.zero with
        e0 := max32 p.p0 one
        e1 := clip p.p1 posZero one
        k0 := BitVec.ofNat 32 (max (delayRaw fs (max32 p.p0 one)) frames) } := if_neg h.not_gt

end

/-- Settles O51: the raw length is the rounded product of the clamped time; the derivation is refused or commits the
length, which K0 holds whole because a legal capacity is below 2^32. -/
theorem delayLength : Obligations.DelayLength := by
  intro b p g hb hp _
  have he0 := real_max32_one_of_legalParam hp.p0
  have hnonneg : 0 ≤ real (max32 p.p0 one) := he0 ▸ zero_le_one.trans (le_max_right _ _)
  have hfeedback : Clamped p.p1 posZero one (clip p.p1 posZero one) :=
    clip_clamped (by decide) (by decide) (not_isNaN_of_isFinite (isFinite_of_legalParam hp.p1)) (by decide +kernel)
  refine ⟨delayRaw g.sampleRate.toNat (max32 p.p0 one), he0 ▸ delayRaw_isRoundHe _ hnonneg,
    fun h => deriveDelay_of_maxDelay_lt h, fun h => ⟨_, deriveDelay_of_le_maxDelay h, he0, hfeedback, rfl, ?k0, rfl, rfl,
    rfl, rfl⟩⟩
  case k0 => exact Nat.mod_eq_of_lt (h.trans_lt hb.delay.2)

end Sys2Proof.Machine

/-! PROOFS. The drive family: the four gain stages, tanh32 and its rounding, the derivation of E and K, and the unity gain
(spec/43_drive.md R230-R236). -/

namespace Sys2Proof.Binary32

/-- Only the two zeros have magnitude zero. -/
theorem mag_eq_zero_iff (v : F32) : mag v = 0 ↔ v = 0x00000000#32 ∨ v = 0x80000000#32 := by
  constructor
  · intro h
    rw [← pack_sign_mag v, h]
    cases sign v
    · exact .inl rfl
    · exact .inr rfl
  · rintro (rfl | rfl) <;> rfl

/-- A product with 1.0 keeps the magnitude: every magnitude that is not NaN rounds to itself. -/
theorem roundMag_mul_one {m : Nat} (h : m < 0x7F800000) :
    roundMag (magUnits m * magUnits (mag one)) (2 ^ 149 * 2 ^ 149) = m := by
  have hone : magUnits (mag one) = 2 ^ 149 := by decide +kernel
  refine roundMag_exact m _ _ h (by positivity) ?_
  rw [hone, mul_assoc]

/-- 1.0 is neutral for what is not NaN: zeros, subnormals and infinities too (R12). -/
theorem mul32_one {v : F32} (h : isNaN v = false) : mul32 v one = v := by
  have hsign : (sign v != sign one) = sign v := Bool.bne_false _
  rcases isInf_or_isFinite h with hi | hf
  · have hm := (isInf_iff v).mp hi
    conv_rhs => rw [← pack_sign_mag v, hm]
    simp [mul32, h, hi, hm, hsign, show isNaN one = false from rfl, show mag one ≠ 0 by decide]
  · conv_rhs => rw [← pack_sign_mag v]
    simp only [mul32, h, not_isInf_of_isFinite hf, hsign, roundMag_mul_one ((isFinite_iff v).mp hf),
      show isNaN one = false from rfl, show isInf one = false from rfl, Bool.or_self, Bool.false_eq_true, if_false]

/-- A clip clamps between ordered ends that are not NaN, infinite ends too (R13). -/
theorem clip_clamped_of_not_isNaN {v lo hi : F32} (hlo : isNaN lo = false) (hhi : isNaN hi = false)
    (hv : isNaN v = false) (hle : real lo ≤ real hi) : Machine.Clamped v lo hi (clip v lo hi) := by
  have hclip : clip v lo hi = if real hi < real v then hi else if real v < real lo then lo else v := by
    simp only [clip, lt32_iff hhi hv, lt32_iff hv hlo]
  rw [hclip]
  constructor
  case within => exact fun h1 h2 => by rw [if_neg h2.not_gt, if_neg h1.not_gt]
  case above => exact fun h => if_pos h
  case below => exact fun h => by rw [if_neg (h.le.trans hle).not_gt, if_pos h]

end Sys2Proof.Binary32

namespace Sys2Proof.ExactReal

open Binary32 Machine

/-! ### tanh32 -/

theorem tanh32_of_isNaN {v : F32} (h : isNaN v = true) : tanh32 v = qNaN := if_pos h

theorem tanh32_of_zero {v : F32} (h : mag v = 0) : tanh32 v = v := by
  simp [tanh32, isNaN, h]

theorem tanh32_of_isInf {v : F32} (h : isInf v = true) : tanh32 v = if v.msb then negOne else one := by
  have h0 : mag v ≠ 0 := by
    rw [(isInf_iff v).mp h]
    decide
  simp only [tanh32, not_isNaN_of_isInf h, h0, h, Bool.false_eq_true, if_false, if_true]
  rfl

/-- tanh32 of a finite value that is not zero rounds the enclosure of tanh, taken odd (R15). -/
theorem tanh32_of_isFinite {v : F32} (h : isFinite v = true) (h0 : mag v ≠ 0) :
    tanh32 v = round (if v.msb then neg (tanhPos (-real v)) else tanhPos (real v)) := by
  simp only [tanh32, not_isNaN_of_isFinite h, h0, not_isInf_of_isFinite h, sign, Bool.false_eq_true, if_false]
  exact (apply_ite round _ _ _).symm

end Sys2Proof.ExactReal

namespace Sys2Proof.Machine

open Binary32 ExactReal

/-! ### The gain stages -/

/-- An instruction without state that transforms the samples by `g` has that effect and leaves every slot alone. -/
theorem exec_driveEffect {i : Instr} {s : State} {g : F32 → F32}
    (h : exec i s = .next (s.mapSamples g).advanceSlot) :
    ∃ t, exec i s = .next t ∧ DriveEffect g s t ∧ t.slots = s.slots :=
  ⟨_, h, s.mapSamples_driveEffect g, by simp⟩

/-- Settles O39: GAIN transforms each sample by the gain stage alone. -/
theorem gainMultiplies : Obligations.GainMultiplies := fun _ => exec_driveEffect rfl

/-- Settles O40: DIST transforms each sample by the gain stage and a clip. -/
theorem distClips : Obligations.DistClips := fun _ => exec_driveEffect rfl

/-- Settles O41: OVERDRIVE transforms each sample by the gain stage and a clip, which compares with K1 before K2 (R13). -/
theorem overdriveClips : Obligations.OverdriveClips := fun _ => exec_driveEffect rfl

/-- Settles O42: SAT transforms each sample by the gain stage and tanh32, whose finite values round a decided enclosure. -/
theorem satTakesTanh : Obligations.SatTakesTanh := by
  refine ⟨fun s => exec_driveEffect rfl, fun v => ⟨fun hn => ?nan, tanh32_of_isInf, fun hz => ?zero,
    fun hf hpos hneg => ?finite⟩⟩
  case nan => rw [tanh32_of_isNaN hn, isNaN_qNaN]
  case zero => exact tanh32_of_zero ((mag_eq_zero_iff v).mpr hz)
  case finite =>
    have h0 : mag v ≠ 0 := fun h => ((mag_eq_zero_iff v).mp h).elim hpos hneg
    intro e hold hdec
    rw [tanh32_of_isFinite hf h0]
    exact nearest_round hold hdec

/-! ### The derivation -/

theorem SlotRegs.Legal.not_isNaN {p : SlotRegs} (hp : p.Legal) :
    isNaN p.p0 = false ∧ isNaN p.p1 = false ∧ isNaN p.p2 = false :=
  ⟨not_isNaN_of_isFinite (isFinite_of_legalParam hp.p0), not_isNaN_of_isFinite (isFinite_of_legalParam hp.p1),
    not_isNaN_of_isFinite (isFinite_of_legalParam hp.p2)⟩

/-- A legal build's gain range has no NaN end and is in order: it spans the drive range (R7). -/
theorem gainRange_ordered {b : Build} (hb : b.Legal) :
    isNaN b.gainMin = false ∧ isNaN b.gainMax = false ∧ real b.gainMin ≤ real b.gainMax := by
  obtain ⟨hmin, hlow⟩ := hb.gainMin
  obtain ⟨hfin, hhigh, -⟩ := hb.gainMax
  have hmax := not_isNaN_of_isFinite hfin
  rw [← Bool.not_eq_true, lt32_iff (by decide) hmin, not_lt] at hlow
  rw [← Bool.not_eq_true, lt32_iff hmax (by decide), not_lt] at hhigh
  have hdrive : real driveMin ≤ real driveMax := by decide +kernel
  exact ⟨hmin, hmax, hlow.trans (hdrive.trans hhigh)⟩

/-- DIST, OVERDRIVE and SAT clamp P0 to the drive range (R230). -/
theorem clip_drive_clamped {v : F32} (h : isNaN v = false) : Clamped v driveMin driveMax (clip v driveMin driveMax) :=
  clip_clamped_of_not_isNaN (by decide) (by decide) h (by decide +kernel)

/-- OVERDRIVE clamps its threshold and its asymmetry to [0, 1] (R230). -/
theorem clip_unit_clamped {v : F32} (h : isNaN v = false) : Clamped v posZero one (clip v posZero one) :=
  clip_clamped_of_not_isNaN (by decide) (by decide) h (by decide +kernel)

/-- Settles O43: the gain factor rounds a decided enclosure, and each opcode's derivation clips its parameters to ordered
ranges. -/
theorem driveDerivation : Obligations.DriveDerivation := by
  refine ⟨fun e0 => nearest_round, fun b p g hp hb x hx => ?_⟩
  obtain ⟨h0, h1, h2⟩ := hp.not_isNaN
  obtain ⟨hmin, hmax, hle⟩ := gainRange_ordered hb
  have hdrive := clip_drive_clamped h0
  simp only [List.mem_cons, List.not_mem_nil, or_false] at hx
  rcases hx with rfl | rfl | rfl | rfl
  case inl =>
    exact ⟨_, rfl, rfl, rfl, rfl, clip_clamped_of_not_isNaN hmin hmax h0 hle, nofun, fun _ => ⟨rfl, rfl, rfl, rfl⟩⟩
  case inr.inl => exact ⟨_, rfl, rfl, rfl, rfl, hdrive, nofun, fun _ => ⟨rfl, rfl, rfl, rfl⟩⟩
  case inr.inr.inl =>
    exact ⟨_, rfl, rfl, rfl, rfl, hdrive, fun _ => ⟨rfl, rfl, clip_unit_clamped h1, clip_unit_clamped h2⟩,
      fun h => absurd rfl h⟩
  case inr.inr.inr => exact ⟨_, rfl, rfl, rfl, rfl, hdrive, nofun, fun _ => ⟨rfl, rfl, rfl, rfl⟩⟩

/-! ### The unity gain -/

/-- A gain of 0 dB, of either sign, is exactly 1.0: 10^0 is exact (R232). -/
theorem gainFactor_of_zero {e0 : F32} (h : mag e0 = 0) : gainFactor e0 = one := by
  have hpow : pow10 (real e0 / 20) = point 1 := by
    rw [(real_eq_zero_iff e0).mpr h]
    decide +kernel
  rw [gainFactor, hpow]
  exact round_near_one (by norm_num [point]) (by norm_num [point])

/-- A module without state keeps every sample that its transformation keeps, and every place beyond the buffer or on an
inactive channel (R231). -/
theorem DriveEffect.sample_eq {g : F32 → F32} {s t : State} (h : DriveEffect g s t) {f c : Nat} (hc : c < 2)
    (hg : g (s.sample f c) = s.sample f c) : t.sample f c = s.sample f c := by
  rcases lt_or_ge c s.reg.channels with hch | hch
  · rcases lt_or_ge f (s.wb.get c).length with hf | hf
    · exact (h.samples c hc hch f hf).trans hg
    · rw [State.sample, State.sample, List.getD_eq_default _ _ hf, List.getD_eq_default _ _ (h.count c hc ▸ hf)]
  · rw [State.sample, State.sample, h.inactive c hc hch]

/-- Settles O44: the enclosure of 10^0 is the point 1, and a product with 1.0 is exact. -/
theorem unityGainPasses : Obligations.UnityGainPasses := by
  refine ⟨gainFactor_of_zero rfl, gainFactor_of_zero rfl, fun s hk => ?_⟩
  obtain ⟨t, ht, heff, -⟩ := gainMultiplies s
  rw [hk] at heff
  exact ⟨t, ht, fun f c hc hn => heff.sample_eq hc (mul32_one hn)⟩

end Sys2Proof.Machine

/-! PROOFS. The pitch shifter: its effect on the current slot, the resampled lengths, RESAMPLE and warp_fit, and the
latency of a warp-on lane (spec/44_pitch_shift.md R250-R257). -/

namespace Sys2Proof.Binary32

/-- Against ordered finite ends, a clip takes the value to the greater of the low end and the lesser of the high end and
itself (R13). -/
theorem real_clip {v lo hi : F32} (hlo : isFinite lo = true) (hhi : isFinite hi = true) (hv : isNaN v = false)
    (hle : real lo ≤ real hi) : real (clip v lo hi) = max (real lo) (min (real hi) (real v)) := by
  rcases lt_or_ge (real hi) (real v) with ha | ha
  · rw [clip_of_above hhi hv ha, min_eq_left ha.le, max_eq_right hle]
  rcases lt_or_ge (real v) (real lo) with hb | hb
  · rw [clip_of_below hlo hhi hv hle hb, min_eq_right ha, max_eq_left hb.le]
  · rw [clip_of_within hlo hhi hv hb ha, min_eq_right ha, max_eq_right hb]

end Sys2Proof.Binary32

namespace Sys2Proof.Machine

open Binary32

/-! ### The pitch shifter over the channels -/

section
variable (s : State) (warp : Bool)

/-- Both channels' lanes of the current slot, beside an overflow flag not yet set, each folded over the channel's samples
where the channel is active (R159, R252). -/
def State.pitchLanes : Chan ((PitchLane × Bool) × List F32) :=
  (Chan.zip (Chan.zip s.current.state.pitch ⟨false, false⟩) s.wb).mapActive s.reg.channels fun p =>
    foldLane (pitchStep warp s.build s.current.derived.k0.toNat) p.1 p.2

theorem State.get_pitchLanes {c : Nat} (hc : c < 2) :
    (s.pitchLanes warp).get c =
      if c < s.reg.channels then
        foldLane (pitchStep warp s.build s.current.derived.k0.toNat) (s.current.state.pitch.get c, false) (s.wb.get c)
      else ((s.current.state.pitch.get c, false), s.wb.get c) := by
  have hflag : (⟨false, false⟩ : Chan Bool).get c = false := ite_self _
  rw [State.pitchLanes, Chan.get_mapActive _ _ _ _ hc, Chan.get_zip, Chan.get_zip, hflag]

theorem State.get_wb_applyPitch (c : Nat) : (s.applyPitch warp).wb.get c = ((s.pitchLanes warp).get c).2 :=
  Chan.get_snd _ c

/-- An overflow on either lane sets PS_OVF, and nothing clears it (R257). -/
theorem State.psOvf_applyPitch :
    (s.applyPitch warp).status.psOvf = true ↔
      s.status.psOvf = true ∨ ∃ c, c < 2 ∧ ((s.pitchLanes warp).get c).1.2 = true := by
  have hflags : (s.applyPitch warp).status.psOvf =
      (s.status.psOvf || (s.pitchLanes warp).c0.1.2 || (s.pitchLanes warp).c1.1.2) := rfl
  simp [hflags, or_assoc, Nat.le_one_iff_eq_zero_or_eq_one, or_and_right, exists_or]

/-- The current slot's state after the pitch shifter: the folded lanes in place of those before (R252). -/
theorem State.current_state_applyPitch (h : s.slotPc.toNat < s.slots.length) :
    ((s.applyPitch warp).advanceSlot.slot s.slotPc.toNat).state =
      { s.current.state with pitch := (s.pitchLanes warp).fst.fst } := by
  rw [State.slot, State.advanceSlot_slots]
  exact congrArg Slot.state (List.getD_modify_same _ _ _ h)

theorem State.current_pitch_applyPitch (h : s.slotPc.toNat < s.slots.length) (c : Nat) :
    ((s.applyPitch warp).advanceSlot.slot s.slotPc.toNat).state.pitch.get c = ((s.pitchLanes warp).get c).1.1 := by
  rw [s.current_state_applyPitch warp h, Chan.get_fst, Chan.get_fst]

/-- pitch_apply on a slot that exists runs the pitch shifter over each active channel's lane (R252, R257). -/
theorem State.applyPitch_pitchEffect (h : s.slotPc.toNat < s.slots.length) :
    PitchEffect warp s (s.applyPitch warp).advanceSlot := by
  choose dropped hrun hdropped using fun c =>
    pitch_fold warp s.build s.current.derived.k0.toNat (s.current.state.pitch.get c) (s.wb.get c) false
  simp only [Bool.false_eq_true, false_or] at hdropped
  exact {
    frame := s.applyPitch_frame warp
    advance := (s.applyPitch warp).advanceSlot_advanced
    inactive := fun c hc hch => by
      rw [State.advanceSlot_wb, State.get_wb_applyPitch, State.get_pitchLanes _ _ hc, if_neg hch.not_gt]
    filter := by rw [State.current_state_applyPitch _ _ h]
    delay := by rw [State.current_state_applyPitch _ _ h]
    lanes := by
      refine ⟨dropped, fun c hc hch => ?_, ?_⟩
      · rw [State.advanceSlot_wb, State.get_wb_applyPitch, State.current_pitch_applyPitch _ _ h,
          State.get_pitchLanes _ _ hc, if_pos hch]
        exact hrun c
      · rw [State.advanceSlot_status, State.psOvf_applyPitch]
        refine or_congr_right (exists_congr fun c => and_congr_right fun hc => ?_)
        rw [State.get_pitchLanes _ _ hc, ← hdropped]
        by_cases hch : c < s.reg.channels <;> simp [hch]
    idle := fun c hc hch => by
      rw [State.current_pitch_applyPitch _ _ h, State.get_pitchLanes _ _ hc, if_neg hch.not_gt] }

end

/-- Settles O52: both instructions are pitch_apply on the current slot, a fold of the pitch shifter over each active
channel's lane. -/
theorem pitchShift : Obligations.PitchShift := by
  intro s h x hx
  have he : exec x.1 s = .next (s.applyPitch x.2).advanceSlot := by fin_cases hx <;> rfl
  exact ⟨_, he, s.applyPitch_pitchEffect x.2 h⟩

/-! ### The resampled lengths -/

theorem real_pitchMin : real pitchMin = 1 / 2 := by decide +kernel

theorem real_pitchMax : real pitchMax = 2 := by decide +kernel

/-- L is round_he of F / real(E0) (R251). -/
theorem pitchLength_isRoundHe (f : Nat) {e0 : F32} (h : 0 < real e0) :
    IsRoundHe ((f : ℚ) / real e0) (pitchLength f e0) := by
  have hu := units_toNat_div h.le
  have hpos : 0 < (units e0).toNat := by
    refine Nat.pos_of_ne_zero fun h0 => h.ne ?_
    rw [← hu, h0]
    simp
  have hq : (f : ℚ) / real e0 = ((f * 2 ^ 149 : ℕ) : ℚ) / (units e0).toNat := by
    rw [← hu, div_div_eq_mul_div]
    push_cast
    rfl
  rw [hq]
  exact roundHalfEven_isRoundHe _ _ hpos

/-- A factor within [0.5, 2.0] gives between 1 and 2F samples (R251). -/
theorem pitchLength_bounds {f : Nat} (hf : 2 ≤ f) {e0 : F32} (h1 : 1 / 2 ≤ real e0) (h2 : real e0 ≤ 2) :
    1 ≤ pitchLength f e0 ∧ pitchLength f e0 ≤ 2 * f := by
  have hpos : 0 < real e0 := by linarith
  have hfq : (2 : ℚ) ≤ f := by exact_mod_cast hf
  have hround := pitchLength_isRoundHe f hpos
  constructor
  · have hlow : ((1 : ℤ) : ℚ) ≤ f / real e0 := by
      rw [le_div_iff₀ hpos]
      push_cast
      linarith
    exact_mod_cast (IsRoundHe.bounds hround).2 hlow
  · have hhigh : f / real e0 ≤ ((2 * f : ℤ) : ℚ) := by
      rw [div_le_iff₀ hpos]
      push_cast
      nlinarith
    exact_mod_cast (IsRoundHe.bounds hround).1 hhigh

section
variable (warp : Bool) (b : Build) (p : SlotRegs)

theorem derivePitch_e0 : (derivePitch warp b p).e0 = clip p.p0 pitchMin pitchMax := rfl

theorem derivePitch_k0 :
    (derivePitch warp b p).k0 = BitVec.ofNat 32 (pitchLength b.psFrame (derivePitch warp b p).e0) := rfl

theorem derivePitch_k1 :
    (derivePitch warp b p).k1 =
      BitVec.ofNat 32 (if warp then b.psFrame else pitchLength b.psFrame (derivePitch warp b p).e0) := rfl

end

/-- The factor of a legal parameter is its value clamped to [0.5, 2.0] (R124, R250). -/
theorem real_derivePitch_e0 (warp : Bool) (b : Build) {p : SlotRegs} (h : legalParam p.p0 = true) :
    real (derivePitch warp b p).e0 = max (1 / 2) (min 2 (real p.p0)) := by
  have hle : real pitchMin ≤ real pitchMax := by
    rw [real_pitchMin, real_pitchMax]
    norm_num
  rw [derivePitch_e0, real_clip (by decide) (by decide) (not_isNaN_of_isFinite (isFinite_of_legalParam h)) hle,
    real_pitchMin, real_pitchMax]

/-- Settles O53: the clamped factor keeps the rounded quotient between 1 and 2F, which K0 holds whole because a legal F is
below 2^16. -/
theorem pitchLengths : Obligations.PitchLengths := by
  intro b p g hb hp x hx
  have he : derive x.1 b p g = .ok (derivePitch x.2 b p) := by fin_cases hx <;> rfl
  obtain ⟨hframe, hframe'⟩ := hb.frame
  have he0 := real_derivePitch_e0 x.2 b hp.p0
  have h1 : 1 / 2 ≤ real (derivePitch x.2 b p).e0 := he0 ▸ le_max_left _ _
  have h2 : real (derivePitch x.2 b p).e0 ≤ 2 := he0 ▸ max_le (by norm_num) (min_le_left _ _)
  obtain ⟨hlow, hhigh⟩ := pitchLength_bounds hframe h1 h2
  have hk0 : (derivePitch x.2 b p).k0.toNat = pitchLength b.psFrame (derivePitch x.2 b p).e0 := by
    rw [derivePitch_k0, BitVec.toNat_ofNat, Nat.mod_eq_of_lt (by omega)]
  have hk1 : (derivePitch x.2 b p).k1.toNat = if x.2 then b.psFrame else (derivePitch x.2 b p).k0.toNat := by
    rw [derivePitch_k1, hk0, BitVec.toNat_ofNat, Nat.mod_eq_of_lt (by split <;> omega)]
  refine ⟨_, he, he0, rfl, rfl, ?_, hk0 ▸ hlow, hk0 ▸ hhigh, hk1, rfl, rfl, rfl⟩
  rw [hk0]
  exact pitchLength_isRoundHe _ (one_half_pos.trans_le h1)

/-! ### RESAMPLE and warp_fit -/

/-- warp_fit gives the samples of r in order, and +0.0 where r has none (R253). -/
theorem getD_warpFit (r : List F32) {f n : Nat} (hn : n < f) :
    (warpFit r f).getD n 0#32 = if n < r.length then r.getD n 0#32 else 0x00000000#32 := by
  unfold warpFit
  by_cases h : r.length < f
  · rw [if_pos h]
    by_cases hr : n < r.length
    · rw [if_pos hr, List.getD_append _ _ _ _ hr]
    · rw [if_neg hr, List.getD_append_right _ _ _ _ (by omega), List.getD_replicate _ (by omega)]
      rfl
  · rw [if_neg h, if_pos (by omega)]
    simp [List.getD_eq_getElem?_getD, hn]

theorem warpFit_of_length_eq {r : List F32} {f : Nat} (h : r.length = f) : warpFit r f = r := by
  rw [warpFit, if_neg h.not_lt, List.take_of_length_le h.le]

/-- Settles O54: the lengths and the identity hold by the definitions, and warp_fit sample by sample. -/
theorem resampleAndFit : Obligations.ResampleAndFit := fun x len f =>
  ⟨resample_length x len, resample_of_length rfl, warpFit_length x f, fun _ => getD_warpFit x⟩

/-! ### The latency of a warp-on lane -/

section
variable {b : Build} {len : Nat} {l l' : PitchLane} {x y : F32} {xs ys : List F32} {p : Prop}

/-- A lagging lane's queue is empty when its frame is full: every sample pushed for the last frame has been emitted
(R257). -/
theorem PitchLane.Lagging.queue_eq_nil {f : Nat} (hl : l.Lagging f) (h : l.acc.length + 1 = f) : l.queue = [] :=
  hl.2.elim id fun hq => List.eq_nil_of_length_eq_zero (by omega)

/-- A lagging lane that has samples queued is one frame short of full with them (R255). -/
theorem PitchLane.Lagging.length_eq_of_cons {f : Nat} (hl : l.Lagging f) {v : F32} {vs : List F32}
    (hc : l.queue = v :: vs) : l.queue.length + l.acc.length = f - 1 :=
  hl.2.resolve_left (hc ▸ List.cons_ne_nil v vs)

/-- It stays so as one sample is emitted and one comes in (R252). -/
theorem PitchLane.Lagging.length_shifted {f : Nat} (hl : l.Lagging f) {v : F32} {vs : List F32}
    (hc : l.queue = v :: vs) (x : F32) : vs.length + (l.acc ++ [x]).length = f - 1 := by
  have hsum := hl.length_eq_of_cons hc
  rw [hc, List.length_cons] at hsum
  rw [List.length_append, List.length_singleton]
  omega

theorem PitchLane.owed_of_queue_nil (f : Nat) (h : l.queue = []) :
    l.owed f = List.replicate (f - 1 - l.acc.length) 0x00000000#32 ++ l.acc := by
  simp [PitchLane.owed, h]

theorem PitchLane.owed_of_length_eq {f : Nat} (h : l.queue.length + l.acc.length = f - 1) :
    l.owed f = l.queue ++ l.acc := by
  simp [PitchLane.owed, h]

/-- A frame that stays short of full emits the front of the queue, or silence, and pushes nothing (R252). -/
theorem PitchFrame.of_short (h : PitchFrame true b len l x y l' p) (hshort : l.acc.length + 1 ≠ b.psFrame) :
    ¬ p ∧ y = l.queue.headD 0x00000000#32 ∧ l' = ⟨l.acc ++ [x], l.queue.tail⟩ := by
  rw [PitchFrame, if_neg hshort] at h
  exact ⟨h.1.mp, h.2⟩

/-- A full frame of a lagging lane fits the queue whole, and is emitted from its first sample on (R252, R256, R257). -/
theorem PitchFrame.of_lagging_full (h : PitchFrame true b len l x y l' p) (hl : l.Lagging b.psFrame)
    (hq : b.psFrame ≤ b.psQueue) (hfull : l.acc.length + 1 = b.psFrame) :
    ¬ p ∧ l'.acc = [] ∧ y :: l'.queue = warpFit (resample (l.acc ++ [x]) len) b.psFrame := by
  rw [PitchFrame, if_pos hfull, hl.queue_eq_nil hfull] at h
  obtain ⟨r, rfl, hp, hy, rfl⟩ := h
  have hlen := warpFit_length (resample (l.acc ++ [x]) len) b.psFrame
  rw [if_pos rfl] at hp hy ⊢
  rw [List.length_nil, Nat.zero_add, hlen] at hp
  rw [List.nil_append, List.length_nil, Nat.sub_zero, List.take_of_length_le (by omega)] at hy ⊢
  generalize warpFit (resample (l.acc ++ [x]) len) b.psFrame = r at *
  obtain ⟨v, vs, rfl⟩ : ∃ v vs, r = v :: vs := List.exists_cons_of_length_pos (by omega)
  exact ⟨fun h => (hp.mp h).not_ge hq, rfl, by rw [hy]; rfl⟩

/-- A frame of a lagging lane drops nothing and leaves it lagging (R255, R257). -/
theorem PitchFrame.lagging (h : PitchFrame true b len l x y l' p) (hl : l.Lagging b.psFrame)
    (hq : b.psFrame ≤ b.psQueue) : ¬ p ∧ l'.Lagging b.psFrame := by
  by_cases hfull : l.acc.length + 1 = b.psFrame
  · obtain ⟨hp, hacc, hout⟩ := h.of_lagging_full hl hq hfull
    have hlen := congrArg List.length hout
    rw [warpFit_length, List.length_cons] at hlen
    refine ⟨hp, ?_, .inr ?_⟩ <;> rw [hacc, List.length_nil] <;> omega
  · obtain ⟨hp, -, rfl⟩ := h.of_short hfull
    have hacc := hl.1
    refine ⟨hp, by rw [List.length_append, List.length_singleton]; omega, ?_⟩
    cases hc : l.queue with
    | nil => exact .inl rfl
    | cons v vs => exact .inr (hl.length_shifted hc x)

/-- A frame of a lagging lane with L = F emits the first sample the lane owes, and x becomes the last one owed (R255). -/
theorem PitchFrame.owed_eq (h : PitchFrame true b b.psFrame l x y l' p) (hl : l.Lagging b.psFrame)
    (hq : b.psFrame ≤ b.psQueue) : y :: l'.owed b.psFrame = l.owed b.psFrame ++ [x] := by
  by_cases hfull : l.acc.length + 1 = b.psFrame
  · obtain ⟨-, hacc, hout⟩ := h.of_lagging_full hl hq hfull
    have hframe : (l.acc ++ [x]).length = b.psFrame := by rw [List.length_append, List.length_singleton, hfull]
    rw [resample_of_length hframe.symm, warpFit_of_length_eq hframe] at hout
    have hlen := congrArg List.length hout
    rw [hframe, List.length_cons] at hlen
    rw [PitchLane.owed_of_length_eq (by rw [hacc, List.length_nil]; omega), hacc, List.append_nil, hout,
      PitchLane.owed_of_queue_nil _ (hl.queue_eq_nil hfull), ← hfull]
    simp
  · obtain ⟨-, rfl, rfl⟩ := h.of_short hfull
    cases hc : l.queue with
    | nil =>
      have hsilence : b.psFrame - 1 - l.acc.length = b.psFrame - 1 - (l.acc.length + 1) + 1 := by
        have := hl.1
        omega
      rw [PitchLane.owed_of_queue_nil _ hc, PitchLane.owed_of_queue_nil _ (by rfl), hsilence, List.replicate_succ]
      simp
    | cons v vs =>
      rw [PitchLane.owed_of_length_eq (hl.length_eq_of_cons hc), hc,
        PitchLane.owed_of_length_eq (hl.length_shifted hc x)]
      simp

/-- Over any number of frames a lagging lane drops nothing and stays lagging (R257). -/
theorem PitchRun.lagging (h : PitchRun true b len l xs ys l' p) (hl : l.Lagging b.psFrame)
    (hq : b.psFrame ≤ b.psQueue) : ¬ p ∧ l'.Lagging b.psFrame := by
  induction h with
  | nil => exact ⟨id, hl⟩
  | cons hframe _ ih =>
    obtain ⟨hp, hl'⟩ := hframe.lagging hl hq
    obtain ⟨hps, hl''⟩ := ih hl'
    exact ⟨not_or.mpr ⟨hp, hps⟩, hl''⟩

/-- Over any number of frames with L = F a lagging lane's outputs are what it owes and then its inputs (R255). -/
theorem PitchRun.owed_eq (h : PitchRun true b b.psFrame l xs ys l' p) (hl : l.Lagging b.psFrame)
    (hq : b.psFrame ≤ b.psQueue) : ys ++ l'.owed b.psFrame = l.owed b.psFrame ++ xs := by
  induction h with
  | nil => simp
  | cons hframe _ ih =>
    rw [List.cons_append, ih (hframe.lagging hl hq).2, ← List.cons_append, hframe.owed_eq hl hq]
    simp

end

/-- Settles O55: the pitch shifter runs each active lane from a lagging one, and an inactive lane stays as it is. -/
theorem warpLatency : Obligations.WarpLatency := by
  intro s hb h hl
  have heff := s.applyPitch_pitchEffect true h
  have hq : s.build.psFrame ≤ s.build.psQueue := (Nat.le_mul_of_pos_left _ two_pos).trans hb.queue.1
  obtain ⟨dropped, hrun, hovf⟩ := heff.lanes
  refine ⟨_, rfl, ?_, fun c hc => ?_⟩
  · have hnone : ¬ ∃ c, c < 2 ∧ c < s.reg.channels ∧ dropped c := fun ⟨c, hc, hch, hd⟩ =>
      ((hrun c hc hch).lagging (hl c hc) hq).1 hd
    exact Bool.eq_iff_iff.mpr (hovf.trans (or_iff_left hnone))
  · by_cases hch : c < s.reg.channels
    · exact ⟨((hrun c hc hch).lagging (hl c hc) hq).2, fun _ hk => (hk ▸ hrun c hc hch).owed_eq (hl c hc) hq⟩
    · exact ⟨heff.idle c hc (by omega) ▸ hl c hc, fun h' => absurd h' hch⟩

end Sys2Proof.Machine

/-! PROOFS. The output converters: what the end of a run leaves in OUT and elsewhere, and the converted word as an
integer (spec/45_output_convert.md R270-R276). -/

namespace Sys2Proof.Machine

open Binary32

section
variable (s : State)

/-! ### The words stored -/

/-- A converter's word i is in OUT[i] when the run has ended (R274). -/
theorem State.outWord_storeOut_finishCompleted (ws : List Word) (u : Bool) {i : Nat} {w : Word} (h : ws[i]? = some w) :
    (s.storeOut ws u).finishCompleted.outWord i = w := by
  obtain ⟨hi, rfl⟩ := List.getElem?_eq_some_iff.mp h
  simpa [State.outWord, outAddr] using Memory.wordAt_writeWords_same s.mem (outAddr 0) ws i hi

/-- No byte but those of a converter's words changes (R274). -/
theorem State.byteAt_storeOut_finishCompleted (ws : List Word) (u : Bool) {a : Nat}
    (h : a < 0x80000 ∨ 0x80000 + 4 * ws.length ≤ a) :
    Memory.byteAt (s.storeOut ws u).finishCompleted.mem a = Memory.byteAt s.mem a :=
  Memory.byteAt_writeWords_other s.mem ws h

theorem State.interleaved_length : s.interleaved.length = s.reg.frames * s.reg.channels := by
  simp [State.interleaved]

/-- In OUT's order the sample of frame f and channel c has the place f · C + c (R94). -/
theorem State.getElem?_interleaved {f c : Nat} (hf : f < s.reg.frames) (hc : c < s.reg.channels) :
    s.interleaved[f * s.reg.channels + c]? = some (s.sample f c) := by
  have hlt : f * s.reg.channels + c < s.reg.frames * s.reg.channels :=
    calc f * s.reg.channels + c < (f + 1) * s.reg.channels := by rw [Nat.succ_mul]; omega
      _ ≤ s.reg.frames * s.reg.channels := Nat.mul_le_mul_right _ hf
  have hdiv : (f * s.reg.channels + c) / s.reg.channels = f := by
    rw [Nat.add_comm, Nat.add_mul_div_right _ _ (by omega), Nat.div_eq_of_lt hc, Nat.zero_add]
  simp [State.interleaved, hlt, hdiv, Nat.mod_eq_of_lt hc]

/-- Of the interleaved samples converted by g, each is stored at its sample's place and nothing else is (R271, R272,
R274). -/
theorem State.storeOut_map_interleaved (g : F32 → Word) (u : Bool) :
    (∀ f c, f < s.reg.frames → c < s.reg.channels →
        (s.storeOut (s.interleaved.map g) u).finishCompleted.outWord (f * s.reg.channels + c) = g (s.sample f c))
      ∧ ∀ a, a < 0x80000 ∨ 0x80000 + 4 * (s.reg.frames * s.reg.channels) ≤ a →
        Memory.byteAt (s.storeOut (s.interleaved.map g) u).finishCompleted.mem a = Memory.byteAt s.mem a := by
  refine ⟨fun f c hf hc => ?_, fun a ha => ?_⟩
  · exact s.outWord_storeOut_finishCompleted _ _ (by rw [List.getElem?_map, s.getElem?_interleaved hf hc]; rfl)
  · exact s.byteAt_storeOut_finishCompleted _ _ (by rwa [List.length_map, s.interleaved_length])

end

/-- Settles O35: the words are the interleaved samples converted, stored from OUT[0] on as the run is finished. -/
theorem convertedWords : Obligations.ConvertedWords := by
  intro s
  simp only [List.forall_mem_cons]
  exact ⟨⟨_, rfl, rfl, s.storeOut_map_interleaved conv16Word false⟩,
    ⟨_, rfl, rfl, s.storeOut_map_interleaved conv32Word false⟩, List.forall_mem_nil _⟩

/-- Settles O36: the words are 2·B·C zeros, stored from OUT[0] on as the run is finished. -/
theorem silentWords : Obligations.SilentWords := fun s =>
  ⟨_, rfl, rfl,
    fun _ hi => s.outWord_storeOut_finishCompleted _ _ (by rw [List.getElem?_replicate, if_pos hi]),
    fun _ ha => s.byteAt_storeOut_finishCompleted _ _ (by rwa [List.length_replicate])⟩

/-! ### The converted integer -/

theorem sat_eq_max_min {n lo hi : Int} (h : lo ≤ hi) : sat n lo hi = max lo (min hi n) := by
  unfold sat
  split
  · omega
  · split <;> omega

section
variable {v : F32} (m lo hi : Int)

theorem toInt_of_isNaN (h : isNaN v = true) : toInt v m lo hi = 0 := if_pos h

theorem toInt_of_isInf (h : isInf v = true) : toInt v m lo hi = if sign v then lo else hi := by
  simp [toInt, not_isNaN_of_isInf h, h]

/-- A finite value's integer is the exact product, truncated and saturated (R276). -/
theorem toInt_of_isFinite (h : isFinite v = true) : toInt v m lo hi = sat (truncRat (real v * m)) lo hi := by
  have hquot : (units v * m).tdiv (2 ^ 149) = truncRat (real v * m) := by
    rw [real_eq, div_mul_eq_mul_div]
    exact_mod_cast tdiv_eq_truncRat (units v * m) (2 ^ 149) (by positivity)
  simp only [toInt, not_isNaN_of_isFinite h, not_isInf_of_isFinite h, hquot, Bool.false_eq_true, if_false]

end

/-- to_int stays in a range that holds 0 (R276). -/
theorem toInt_bounds (v : F32) (m : Int) {lo hi : Int} (hlo : lo ≤ 0) (hhi : 0 ≤ hi) :
    lo ≤ toInt v m lo hi ∧ toInt v m lo hi ≤ hi := by
  unfold toInt
  split
  · exact ⟨hlo, hhi⟩
  · split
    · split <;> omega
    · rw [sat_eq_max_min (by omega)]
      omega

/-- A range within the signed 32-bit numbers is stored exactly, as two's complement (R271, R272). -/
theorem toInt_ofInt_toInt (v : F32) (m : Int) {lo hi : Int} (hlo : lo ≤ 0) (hhi : 0 ≤ hi) (hmin : -2 ^ 31 ≤ lo)
    (hmax : hi < 2 ^ 31) : (BitVec.ofInt 32 (toInt v m lo hi)).toInt = toInt v m lo hi := by
  obtain ⟨hl, hh⟩ := toInt_bounds v m hlo hhi
  exact BitVec.toInt_ofInt_eq_self (by decide) (hmin.trans hl) (hh.trans_lt hmax)

theorem toInt_conv16Word (v : F32) : (conv16Word v).toInt = toInt v 32767 (-32768) 32767 :=
  toInt_ofInt_toInt v _ (by decide) (by decide) (by decide) (by decide)

theorem toInt_conv32Word (v : F32) : (conv32Word v).toInt = toInt v 2147483647 (-2147483648) 2147483647 :=
  toInt_ofInt_toInt v _ (by decide) (by decide) (by decide) (by decide)

/-- to_int by the kind of value: finite, NaN or infinite (R271, R272, R276). -/
theorem toInt_truncates (v : F32) (m : Int) {lo hi : Int} (h : lo ≤ hi) :
    (isFinite v = true → toInt v m lo hi = max lo (min hi (truncRat (real v * m))))
      ∧ (isNaN v = true → toInt v m lo hi = 0)
      ∧ (isInf v = true → toInt v m lo hi = if sign v then lo else hi) :=
  ⟨fun hv => (toInt_of_isFinite m lo hi hv).trans (sat_eq_max_min h), toInt_of_isNaN m lo hi, toInt_of_isInf m lo hi⟩

/-- Settles O37: a converted word, as a signed number, is to_int of its sample. -/
theorem conversionTruncates : Obligations.ConversionTruncates := by
  intro v
  simp only [List.forall_mem_cons, toInt_conv16Word, toInt_conv32Word]
  exact ⟨toInt_truncates v _ (by decide), toInt_truncates v _ (by decide), List.forall_mem_nil _⟩

end Sys2Proof.Machine

/-! PROOFS. The error record and the interrupt line: raising an error with ERR clear and with ERR set, what a STATUS or
INT_EN write leaves of both, and the codes (spec/60_exceptions.md R290, R292, R295). -/

namespace Sys2Proof.Machine

section
variable {s : State}

/-! ### Raising an error -/

theorem State.raiseError_of_err_false (h : s.status.err = false) (code : ErrCode) (slot : BitVec 8) (a : Addr) :
    s.raiseError code slot a =
      { s with
        errInfo := BitVec.ofNat 32 (256 * slot.toNat + code.byte.toNat)
        errAddr := BitVec.ofNat 32 a.toNat
        status := { s.status with err := true } } := by
  simp only [State.raiseError, h, Bool.false_eq_true, if_false, errorInfo_eq, errorAddr_eq]

/-- An error raised while ERR = 1 is absorbed (R292). -/
theorem State.raiseError_of_err_true (h : s.status.err = true) (code : ErrCode) (slot : BitVec 8) (a : Addr) :
    s.raiseError code slot a = s := by
  have hstatus : { s.status with err := true } = s.status := by rw [← h]
  simp only [State.raiseError, h, if_true, hstatus]

/-! ### Acknowledging -/

theorem State.ackStatus_done_of_bit {w : Word} (h : w.getLsbD 1 = true) : (s.ackStatus w).status.done = false := by
  simp only [State.ackStatus, h, Bool.not_true, Bool.and_false]

/-- Acknowledging ERR clears it together with its record (R45, R292). -/
theorem State.ackStatus_err_of_bit {w : Word} (h : w.getLsbD 2 = true) :
    (s.ackStatus w).status.err = false ∧ (s.ackStatus w).errInfo = 0#32 ∧ (s.ackStatus w).errAddr = 0#32 := by
  simp only [State.ackStatus, h, Bool.not_true, Bool.and_false, if_true, and_self]

theorem hostAccess_wr_status (w : Word) : hostAccess (.wr 0x00044#20 4 w) s = .next (s.ackStatus w) :=
  hostAccess_wr_global s .status w rfl

theorem hostAccess_wr_intEn (w : Word) : hostAccess (.wr 0x00064#20 4 w) s = .next (s.setIntEn w) :=
  hostAccess_wr_global s .intEn w rfl

/-! ### The interrupt line -/

theorem State.irq_iff :
    s.irq = true ↔ (s.status.done = true ∧ s.intEn.doneIe = true) ∨ (s.status.err = true ∧ s.intEn.errIe = true) := by
  simp only [State.irq, Bool.or_eq_true, Bool.and_eq_true]

theorem State.irq_of_status_clear (hdone : s.status.done = false) (herr : s.status.err = false) : s.irq = false := by
  simp only [State.irq, hdone, herr, Bool.false_and, Bool.or_false]

theorem State.irq_of_disabled (hdone : s.intEn.doneIe = false) (herr : s.intEn.errIe = false) : s.irq = false := by
  simp only [State.irq, hdone, herr, Bool.and_false, Bool.or_false]

end

/-- Settles O24: ERR decides whether an error is recorded or absorbed, and an acknowledgement clears it with its
record. -/
theorem errorRecord : Obligations.ErrorRecord := by
  refine ⟨fun s code slot a => ?raise, fun s w h => ⟨_, hostAccess_wr_status w, State.ackStatus_err_of_bit h⟩,
    fun s => ⟨_, rfl, rfl, rfl, rfl⟩, by decide⟩
  split
  · next h => exact State.raiseError_of_err_false h code slot a
  · next h => exact State.raiseError_of_err_true (Bool.eq_true_of_not_eq_false h) code slot a

/-- Settles O25: the line is low where both status bits are clear and where both enables are, as after reset. -/
theorem interruptLine : Obligations.InterruptLine := by
  refine ⟨fun _ => State.irq_iff, State.irq_of_disabled rfl rfl, fun s => ⟨⟨_, hostAccess_wr_status _, ?ack⟩,
    ⟨_, hostAccess_wr_intEn _, State.irq_of_disabled rfl rfl⟩⟩⟩
  exact State.irq_of_status_clear (State.ackStatus_done_of_bit rfl) (State.ackStatus_err_of_bit rfl).1

end Sys2Proof.Machine

/-! PROOFS. SOFT_RESET and power-on: the RAMs over an aborted run, the reset values, and the invariants of the reset state
(spec/70_reset_and_hazards.md R320, R321). -/

namespace Sys2Proof.Machine

/-! ### SOFT_RESET and the OUT words of an aborted run -/

theorem State.abortedWords_length (s : State) : s.abortedWords.length = s.pendingOutWords := by
  simp only [State.abortedWords, List.length_map, List.length_range]

/-- Word i of an aborted run is the i-th free value drawn from the counter on (R321; log 5). -/
theorem State.getElem_abortedWords (s : State) {i : Nat} (h : i < s.abortedWords.length) :
    s.abortedWords[i] = Config.abortedWord (s.draws + i) := by
  simp only [State.abortedWords, List.getElem_map, List.getElem_range]

/-! ### The values after power-on -/

theorem Status.flagBits_clear : Status.flagBits ⟨false, false, false, false, false⟩ = 0#32 := by decide

theorem IntEnable.word_clear : IntEnable.word ⟨false, false⟩ = 0#32 := by decide

/-- Every index reads a reset slot, one of the build's slots or not. -/
theorem State.slot_init (b : Build) (i : Nat) : (State.init b).slot i = Slot.reset := by
  by_cases h : i < b.nSlots <;> simp [State.slot, State.init, List.getD_eq_getElem?_getD, h]

/-- The module state of a reset slot, on either channel (R64-R66, R68). -/
theorem SlotState.get_clear (c : Nat) :
    SlotState.clear.filter.get c = ⟨Biquad.zero, Biquad.zero⟩ ∧ SlotState.clear.delay.get c = []
      ∧ SlotState.clear.pitch.get c = ⟨[], []⟩ := by
  cases c <;> exact ⟨rfl, rfl, rfl⟩

/-! ### The standard build -/

/-- The model's build is one that R7 admits (log 2). -/
theorem standardBuild_legal : Build.standard.Legal := by
  constructor <;> decide

/-- A block at power-on is as a SOFT_RESET of it leaves its slots. -/
theorem State.init_slotsReset (b : Build) : SlotsReset (State.init b) (State.init b) := ⟨rfl, rfl, rfl, rfl⟩

/-- Settles O34: memory is written from OUT[0] on alone, with one free value for each word the aborted run owed. -/
theorem softReset : Obligations.SoftReset := by
  intro s words n
  have hlen : s.abortedWords.length = n := s.abortedWords_length
  refine ⟨_, rfl, rfl, fun a ha => ?frame, fun i hi => ?words⟩
  case frame => exact Memory.byteAt_writeWords_other s.mem _ (hlen ▸ ha)
  case words => exact (wordAt_writeWords_out s _ i (hlen ▸ hi)).trans (s.getElem_abortedWords _)

/-- Settles O1: every register and flag of State.init is a literal, every slot a reset slot, and no byte is written. -/
theorem resetValues : Obligations.ResetValues := by
  intro b s
  have hslot : ∀ i, s.slot i = Slot.reset := State.slot_init b
  refine ⟨rfl, rfl, rfl, rfl, rfl, rfl, s.readGlobal_cap0, rfl, rfl,
    (State.statusWord_of_idle rfl).trans Status.flagBits_clear, rfl, rfl, ?globals, rfl, IntEnable.word_clear, rfl, rfl, rfl,
    rfl, List.length_replicate, fun i => ?slots, fun _ => rfl⟩
  case globals =>
    simp only [List.forall_mem_cons]
    exact ⟨⟨rfl, rfl, rfl, rfl⟩, ⟨rfl, rfl, rfl, rfl⟩, List.forall_mem_nil _⟩
  case slots =>
    rw [hslot i]
    simp only [List.forall_mem_cons]
    exact ⟨⟨⟨rfl, rfl, rfl, rfl⟩, ⟨rfl, rfl, rfl, rfl⟩, List.forall_mem_nil _⟩, rfl, rfl,
      fun c _ => SlotState.get_clear c⟩

/-- Settles O2: the standard build is legal, every slot is cleared, the block is idle, and no byte is written. -/
theorem resetMeetsInvariants : Obligations.ResetMeetsInvariants := by
  have hreset : SlotsReset State.reset State.reset := State.init_slotsReset _
  exact ⟨State.init_inv standardBuild_legal, .of_reset hreset, .of_reset standardBuild_legal hreset,
    ⟨.nil, List.forall_mem_nil _⟩, State.wbInv_of_idle_or_commit (.inl rfl), .of_reset delaySizes_keptEven hreset,
    .of_reset pitchSizes_keptEven hreset⟩

end Sys2Proof.Machine

/-! PROOFS. The engine's own: what no engine step changes (spec/70_reset_and_hazards.md R332), and how many steps a run in
progress has left at most (R333). -/

namespace Sys2Proof.Machine

section
variable {s t : State}

/-! ### What the engine leaves alone -/

@[simp] theorem State.slot_advanceSlot (s : State) (i : Nat) : s.advanceSlot.slot i = s.slot i := by
  rw [State.slot, State.advanceSlot_slots, State.slot]

/-- A slot change and the advance of slot_pc are in the frame of a slot instruction (R155). -/
theorem State.slotChange_frame (s : State) (wb : Chan (List F32)) (ovf : Bool) (f : SlotState → SlotState) :
    ModuleFrame s (s.slotChange wb ovf f).advanceSlot where
  globals := by constructor <;> simp [State.slotChange]
  memory := by simp [State.slotChange]
  slotCount := by simp [State.slotChange]
  slotRegs i := by
    simp only [SameSlotRegs, State.slot_advanceSlot, State.slot_slotChange]
    split <;> exact ⟨rfl, rfl, rfl, rfl⟩
  others i hi := by
    rw [State.slot_advanceSlot, State.slot_slotChange, if_neg fun h => hi h.1]

/-- What no engine step changes: build, global registers, INT_EN, pending flags, every slot's registers, and memory below
OUT (R332). -/
structure EngineFrame (s t : State) : Prop where
  build : t.build = s.build
  shadow : t.shadow = s.shadow
  reg : t.reg = s.reg
  intEn : t.intEn = s.intEn
  pendAll : t.pendAll = s.pendAll
  slotCount : t.slots.length = s.slots.length
  slotRegs : ∀ i, SameSlotRegs s t i
  memory : ∀ a, a < 0x80000 → Memory.byteAt t.mem a = Memory.byteAt s.mem a

theorem SameSlotRegs.of_slots_eq (h : t.slots = s.slots) (i : Nat) : SameSlotRegs s t i := by
  simp only [SameSlotRegs, State.slot, h, and_self]

theorem EngineFrame.refl (s : State) : EngineFrame s s :=
  ⟨rfl, rfl, rfl, rfl, rfl, rfl, .of_slots_eq rfl, fun _ _ => rfl⟩

theorem EngineFrame.endCommit (s : State) : EngineFrame s s.endCommit := by
  rcases s.endCommit_cases with ⟨-, e⟩ | ⟨-, e⟩ <;> rw [e]
  · exact ⟨rfl, rfl, rfl, rfl, rfl, rfl, .of_slots_eq rfl, fun _ _ => rfl⟩
  · constructor <;> simp [SameSlotRegs.of_slots_eq]

/-- A slot instruction changes no register of any slot and no byte (R155). -/
theorem ModuleFrame.engineFrame (h : ModuleFrame s t) : EngineFrame s t :=
  ⟨h.globals.build, h.globals.shadow, h.globals.reg, h.globals.intEn, h.globals.pendAll, h.slotCount, h.slotRegs,
    fun a _ => h.memory a⟩

/-- A converter stores from OUT[0] on (R274). -/
theorem EngineFrame.finishCompleted_storeOut (s : State) (ws : List Word) (u : Bool) :
    EngineFrame s (s.storeOut ws u).finishCompleted :=
  ⟨rfl, rfl, rfl, rfl, rfl, rfl, .of_slots_eq rfl, fun _ ha => s.byteAt_storeOut_finishCompleted ws u (.inl ha)⟩

theorem engineStep_frame (h : engineStep s = .next t) : EngineFrame s t := by
  rcases engineStep_next h with rfl | rfl | ⟨-, i, hi, hx⟩ | ⟨ws, u, rfl⟩
  · exact .refl _
  · exact .endCommit s
  · obtain ⟨wb, ovf, f, e, -⟩ := exec_desc s (decodeDesc_isDesc hi)
    cases e.symm.trans hx
    exact (s.slotChange_frame wb ovf f).engineFrame
  · exact .finishCompleted_storeOut s ws u

/-! ### The steps a run has left -/

/-- An upper bound of the engine steps that a run still takes: one for the converter, one for each slot left, one for the
end of the commit (R150). -/
def State.stepsLeft (s : State) : Nat :=
  match s.phase with
  | .idle => 0
  | .commit => s.reg.chainLen.toNat + 2
  | .process => s.reg.chainLen.toNat - s.slotPc.toNat + 1
  | .convert => 1

theorem State.stepsLeft_of_process (h : s.phase = .process) :
    s.stepsLeft = s.reg.chainLen.toNat - s.slotPc.toNat + 1 := by
  simp only [State.stepsLeft, h]

theorem State.stepsLeft_of_convert (h : s.phase = .convert) : s.stepsLeft = 1 := by
  simp only [State.stepsLeft, h]

theorem State.stepsLeft_le (s : State) : s.stepsLeft ≤ s.reg.chainLen.toNat + 2 := by
  unfold State.stepsLeft
  split <;> omega

theorem State.stepsLeft_pos (s : State) (h : s.phase ≠ .idle) : 0 < s.stepsLeft := by
  unfold State.stepsLeft
  split
  case h_1 hp => exact absurd hp h
  all_goals omega

/-- The run in progress in s has ended in t (R157, R158). -/
structure RunEnded (s t : State) : Prop where
  phase : t.phase = .idle
  done : t.status.done = true
  refused : t.status.refused = decide (s.verdict = .refused)
  runCount : t.runCount = if s.verdict = .refused then s.runCount else s.runCount + 1#32

/-- The run in progress in s goes on in t, with a step less to take. -/
structure RunGoesOn (s t : State) : Prop where
  phase : t.phase ≠ .idle
  fewer : t.stepsLeft < s.stepsLeft
  verdict : t.verdict = s.verdict
  runCount : t.runCount = s.runCount
  hostQueue : t.hostQueue = s.hostQueue

theorem RunEnded.of_goesOn {u : State} (h : RunGoesOn s u) (he : RunEnded u t) : RunEnded s t where
  phase := he.phase
  done := he.done
  refused := h.verdict ▸ he.refused
  runCount := by rw [he.runCount, h.verdict, h.runCount]

theorem State.finishRefused_runEnded (hv : s.verdict = .refused) : RunEnded s s.finishRefused := by
  constructor <;> simp [hv]

theorem State.finishCompleted_runEnded (hv : s.verdict = .accepted) : RunEnded s s.finishCompleted := by
  constructor <;> simp [hv]

/-- A run that is not refused leaves its COMMIT phase for slot 0 or for the converter (R150, R164). -/
theorem State.startChain_goesOn (hp : s.phase = .commit) : RunGoesOn s s.loadInput.startChain := by
  rw [State.startChain_eq]
  by_cases hc : s.reg.chainLen = 0#32 <;> constructor <;> simp [State.stepsLeft, hp, hc]

/-- A slot that has been applied leaves one fewer to apply (R32, R155). -/
theorem State.Inv.advanceSlot_goesOn (h : s.Inv) (hp : s.phase = .process) : RunGoesOn s s.advanceSlot := by
  have hpc : s.slotPc.toNat < s.reg.chainLen.toNat := h.slotPc_lt hp
  have hlen : s.reg.chainLen.toNat ≤ 64 := h.reg.chainLen.trans h.build.slots.2
  have hleft := s.stepsLeft_of_process hp
  obtain ⟨hbusy, hfewer⟩ : s.advanceSlot.phase ≠ .idle ∧ s.advanceSlot.stepsLeft < s.stepsLeft := by
    by_cases hlt : s.slotPc.toNat + 1 < s.reg.chainLen.toNat
    · obtain ⟨hnext, hphase⟩ := s.advanceSlot_advanced.1 hlt
      have hnat : (s.slotPc + 1#8).toNat = s.slotPc.toNat + 1 :=
        BitVec.toNat_add_of_lt (by simp only [BitVec.toNat_ofNat]; omega)
      refine ⟨by simp [hphase, hp], ?_⟩
      rw [State.stepsLeft_of_process (hphase.trans hp), hleft, State.advanceSlot_reg, hnext, hnat]
      omega
    · obtain ⟨-, hphase⟩ := s.advanceSlot_advanced.2 (by omega)
      refine ⟨by simp [hphase], ?_⟩
      rw [State.stepsLeft_of_convert hphase, hleft]
      omega
  exact ⟨hbusy, hfewer, by simp, by simp, by simp⟩

/-- An engine step of a legal busy block ends the run or leaves it with fewer steps to take (R150, R157, R158). -/
theorem State.Inv.engineStep_busy (h : s.Inv) (hp : s.phase ≠ .idle) (hs : engineStep s = .next t) :
    RunEnded s t ∨ RunGoesOn s t := by
  rcases engineStep_cases s with ⟨hi, -⟩ | ⟨hp, e⟩ | ⟨hp, i, hi, e⟩ | ⟨hp, i, hi, e⟩ | ⟨f, e, -⟩
  · exact absurd hi hp
  · cases e.symm.trans hs
    rcases s.endCommit_cases with ⟨hv, e⟩ | ⟨-, e⟩ <;> rw [e]
    · exact .inl (State.finishRefused_runEnded hv)
    · exact .inr (State.startChain_goesOn hp)
  · obtain ⟨wb, ovf, f, hx, -⟩ := exec_desc s (decodeDesc_isDesc hi)
    cases (e.trans hx).symm.trans hs
    exact .inr { (h.slotChange wb ovf f).advanceSlot_goesOn hp with }
  · obtain ⟨ws, u, hx, -⟩ := exec_format s hi
    cases (e.trans hx).symm.trans hs
    exact .inl { State.finishCompleted_runEnded (s := s.storeOut ws u) (h.verdict (by simp [hp])) with }
  · cases e.symm.trans hs

/-! ### The whole run -/

theorem core_run_succ (n : Nat) (h : step s = .next t) : core.run (n + 1) s = core.run n t := by
  simp only [Host.Core.run, core, h]

/-- A run in progress that the host leaves alone or waits for ends within the steps it has left (R333). -/
theorem State.Inv.run_ends (h : s.Inv) (hq : s.hostQueue = [] ∨ s.hostQueue.head? = some .wait) (hp : s.phase ≠ .idle) :
    ∃ n t, n ≤ s.stepsLeft ∧ core.run n s = .next t ∧ RunEnded s t := by
  induction hk : s.stepsLeft using Nat.strong_induction_on generalizing s with
  | _ k ih =>
    subst hk
    obtain ⟨u, hu⟩ := engineStep_answers h
    have hstep : step s = .next u := (step_eq_engineStep hq hp).trans hu
    rcases h.engineStep_busy hp hu with he | hgo
    · exact ⟨1, u, s.stepsLeft_pos hp, core_run_succ 0 hstep, he⟩
    · obtain ⟨n, t, hn, hrun, he⟩ := ih _ hgo.fewer (engineStep_inv h hu) (hgo.hostQueue ▸ hq) hgo.phase rfl
      exact ⟨n + 1, t, hn.trans_lt hgo.fewer, (core_run_succ n hstep).trans hrun, .of_goesOn hgo he⟩

end

/-- Settles O58: each of the engine's four answers keeps the frame. -/
theorem engineWritesOnlyItsOwn : Obligations.EngineWritesOnlyItsOwn := by
  intro s t h
  obtain ⟨hb, hsh, hr, hi, hp, hn, hslots, hm⟩ := engineStep_frame h
  exact ⟨hb, hsh, hr, hi, hp, hn, hslots, hm⟩

/-- Settles O59: each engine step ends the run or leaves it fewer steps, of which it has at most CHAIN_LEN + 2. -/
theorem runEnds : Obligations.RunEnds := by
  intro s h hq hp
  obtain ⟨n, t, hn, hrun, hphase, hdone, hrefused, hcount⟩ := h.run_ends hq hp
  exact ⟨n, t, hn.trans s.stepsLeft_le, hrun, hphase, hdone, hrefused, hcount⟩

end Sys2Proof.Machine
